-- ==== Sys2Proof/Word.lean ====
section
/-! DEFINITION. The word types of the BFX block: the 32-bit host word (R6), the bus byte (R12), the device and register
addresses (R9), and the two 32-bit representations of a number (R11). -/

namespace Sys2Proof

/-- A host register, a command word, or a field value exchanged with the Host: `DATA_W = 32` bits (R6). -/
abbrev Word := BitVec 32

/-- One byte of a bus transaction (R12, R52). -/
abbrev Byte := BitVec 8

/-- A device address, 7 bits (R9). -/
abbrev DevAddr := BitVec 7

/-- A device register address, 8 bits (R9). -/
abbrev RegAddr := BitVec 8

/-- `zext_32(v)`: the 32-bit vector of a natural below `2^32` (R11). -/
def zext32 (v : Nat) : Word := BitVec.ofNat 32 v

/-- `sext_32(v)`: the 32-bit two's complement vector of an integer, `v mod 2^32` (R11). -/
def sext32 (v : Int) : Word := BitVec.ofInt 32 v

end Sys2Proof
end

