-- ==== Sys2Proof/Config.lean ====
section
/-! DEFINITION. The parameters of an instance of the block (R6, R7, R8): the only variation between instances (R2). -/

namespace Sys2Proof

/-- The three parameters of the model (R6, R7, R8). They are no state (R20): no step changes them. -/
structure Config where
  /-- `RW_MAX`: the largest register width in bytes (R6). -/
  rwMax : Nat
  /-- `N_DESC`: the number of descriptor table entries (R7). -/
  nDesc : Nat
  /-- `P_CONV_RO`: the read-only flag of fixed entry 9, left OPEN by the spec (R8). -/
  convRo : Bool
  deriving DecidableEq, Repr

/-- `N_FIXED = 10`: entries 0 to 9 are the fixed register map (R7). -/
def nFixed : Nat := 10

/-- The legal values of the parameters: `RW_MAX` in 2 to 4 (R6), `N_DESC` in 10 to 255 (R7); either `P_CONV_RO` (R8). -/
def Config.legal (c : Config) : Bool :=
  decide (2 ≤ c.rwMax) && decide (c.rwMax ≤ 4) && decide (10 ≤ c.nDesc) && decide (c.nDesc ≤ 255)

/-- The value of `P_CONV_RO` in the machine of `State.reset`: OPEN (R8, D5), so a free value that nothing can
evaluate (log 7). -/
opaque Config.convReadOnly : Bool

/-- The reference configuration, `RW_MAX = 4` and `N_DESC = 16` (R6, R7), with `P_CONV_RO` free (R8). DESIGN CHOICE that
`State.reset` is this instance (log 6). -/
def Config.reference : Config := { rwMax := 4, nDesc := 16, convRo := Config.convReadOnly }

end Sys2Proof
end

