-- ==== Sys2Proof/Syntax.lean ====
section
/-! DEFINITION. The five commands of the block (R71), one constructor per row of spec/opcode_table.json. Their one operand
field is the descriptor index IDX (R72); every other operand comes from host registers through the latch. -/

namespace Sys2Proof

/-- A command. The index is a number, as the assembler writes it (R78); the encoding admits 0 to 255 (log 12). -/
inductive Instr where
  /-- READ i: field read through `DT[i]` (R107). -/
  | read (idx : Nat)
  /-- WRITE i: field write through `DT[i]` of `WDATA` (R108). -/
  | write (idx : Nat)
  /-- DEFINE i: construct the descriptor in `DESC_DATA` into `DT[i]` (R134). -/
  | define (idx : Nat)
  /-- UNDEFINE i: clear programmable entry `DT[i]` (R136). -/
  | undefine (idx : Nat)
  /-- QUERY i: copy `DT[i]` into `DESC_DATA` (R137). -/
  | query (idx : Nat)
  deriving DecidableEq, Repr

/-- The descriptor index of a command (R72). -/
def Instr.idx : Instr → Nat
  | .read i => i
  | .write i => i
  | .define i => i
  | .undefine i => i
  | .query i => i

end Sys2Proof
end

