-- ==== Sys2Proof/WellFormed.lean ====
section
/-! DEFINITION. Which commands the command word can hold (R70, R72, R78). -/

namespace Sys2Proof

/-- IDX is an 8-bit unsigned index, 0 to 255 (R72). An index of `N_DESC` or more is well formed: it is encodable and its
command fails with DESC_RANGE (R72). -/
def Instr.wellFormed (i : Instr) : Bool := decide (i.idx < 256)

end Sys2Proof
end

