-- ==== Sys2Proof/Decode.lean ====
section
/-! DEFINITION. The decoder of the 32-bit command word, total and rejecting by name (R70 to R77), and the encoder. -/

namespace Sys2Proof

/-- OP, bits 3:0 (R70). -/
def cmdOp (w : Word) : BitVec 4 := w.extractLsb' 0 4

/-- RES0, bits 7:4, reserved, must be 0 (R70). -/
def cmdRes0 (w : Word) : BitVec 4 := w.extractLsb' 4 4

/-- IDX, bits 15:8 (R70). -/
def cmdIdx (w : Word) : BitVec 8 := w.extractLsb' 8 8

/-- RES1, bits 31:16, reserved, must be 0 (R70). -/
def cmdRes1 (w : Word) : BitVec 16 := w.extractLsb' 16 16

/-- Why a word is ILLEGAL (R73, R74), in the order R173 gives. -/
inductive DecodeError where
  /-- `word[7:4] != 0` or `word[31:16] != 0` (R73). The Engine raises ILLEGAL_CMD. -/
  | reservedBits
  /-- The reserved bits are zero and OP is 0x0 or 0x6 to 0xF (R71, R74). The Engine raises ILLEGAL_CMD. -/
  | reservedOp
  deriving DecidableEq, Repr

/-- `decode(word)` (R76). -/
def decode (w : Word) : Except DecodeError Instr :=
  if cmdRes0 w ≠ 0#4 ∨ cmdRes1 w ≠ 0#16 then .error .reservedBits
  else
    match (cmdOp w).toNat with
    | 1 => .ok (.read (cmdIdx w).toNat)
    | 2 => .ok (.write (cmdIdx w).toNat)
    | 3 => .ok (.define (cmdIdx w).toNat)
    | 4 => .ok (.undefine (cmdIdx w).toNat)
    | 5 => .ok (.query (cmdIdx w).toNat)
    | _ => .error .reservedOp

/-- The OP value of a command (R71). -/
def Instr.opcode : Instr → BitVec 4
  | .read _ => 1#4
  | .write _ => 2#4
  | .define _ => 3#4
  | .undefine _ => 4#4
  | .query _ => 5#4

/-- The command word of a command, most significant field first: RES1, IDX, RES0, OP (R70, R78). -/
def encode (i : Instr) : Word := 0#16 ++ BitVec.ofNat 8 i.idx ++ 0#4 ++ i.opcode

/-- The 32-bit command word of an opcode-table word of `nbits` bits, every bit above `nbits` zero. The block has one
word per command, so no byte order arises (R77). -/
def tableWord (nbits w : Nat) : Word := BitVec.ofNat 32 (w % 2 ^ nbits)

/-- What `decode` reads from an opcode-table word. -/
def decodeTableWord (nbits w : Nat) : Option Instr :=
  match decode (tableWord nbits w) with
  | .ok i => some i
  | .error _ => none

end Sys2Proof
end

