-- ==== Sys2Proof/Machine/State.lean ====
section
/-! DEFINITION. The state of the block (R20), the data it is made of, the reasons a step can stop, and the state after
reset (R191). -/

namespace Sys2Proof.Machine

open Sys2Proof

/-- One entry of the descriptor table (R32). The bit mask is derived, not stored (R100). -/
structure Desc where
  /-- 1 if the entry holds a descriptor. -/
  valid : Bool
  /-- Device register address. -/
  addr : RegAddr
  /-- Register width in bytes. -/
  width : BitVec 4
  /-- Decode the field as two's complement. -/
  signed : Bool
  /-- Read-only field: WRITE is refused. -/
  ro : Bool
  /-- Lowest bit of the field. -/
  lb : BitVec 8
  /-- Number of bits of the field. -/
  nbits : BitVec 8
  deriving DecidableEq, Repr

/-- The all-zero entry: a programmable entry after reset (R191) and after UNDEFINE (R136). -/
def Desc.empty : Desc :=
  { valid := false, addr := 0#8, width := 0#4, signed := false, ro := false, lb := 0#8, nbits := 0#8 }

/-- The Engine state (R34). -/
inductive Fsm where
  /-- No command in progress; a `CMD` write is accepted. -/
  | idle
  /-- A command was accepted and latched; its checks have not run. -/
  | pending
  /-- A READ or WRITE has issued its read transaction and waits for the answer. -/
  | rdWait
  /-- A WRITE has issued its write transaction and waits for the answer. -/
  | wrWait
  deriving DecidableEq, Repr

/-- The error codes of `STATUS.ERR` (R170). Codes 9 to 15 are never written, so they have no constructor. -/
inductive Err where
  /-- NONE, 0: the command succeeded. -/
  | noError
  /-- CONSTRUCTION, 1: the DEFINE operand fails the construction checks. -/
  | construction
  /-- TRANSPORT, 2: the Transport answered `Fail`. -/
  | transport
  /-- INVALID_ARGUMENT, 3: `WDATA` does not fit the field. -/
  | invalidArgument
  /-- UNSUPPORTED, 4: WRITE through a read-only descriptor. -/
  | unsupported
  /-- DESC_RANGE, 5: `IDX >= N_DESC`. -/
  | descRange
  /-- DESC_INVALID, 6: READ or WRITE through an entry with `valid = 0`. -/
  | descInvalid
  /-- DESC_FIXED, 7: DEFINE or UNDEFINE of a fixed entry. -/
  | descFixed
  /-- ILLEGAL_CMD, 8: the command word decodes as ILLEGAL. -/
  | illegalCmd
  deriving DecidableEq, Repr

/-- The command latch `L` (R35). `L.op` and `L.idx` are fields of `L.word`. -/
structure Latch where
  word : Word
  dev : DevAddr
  wdata : Word
  desc : Word
  deriving DecidableEq, Repr

/-- A transaction request (R36, R52). -/
inductive Req where
  /-- `Read(dev, reg, w)`: `w` bytes. -/
  | read (dev : DevAddr) (reg : RegAddr) (w : Nat)
  /-- `Write(dev, reg, b[0..w-1])`. -/
  | write (dev : DevAddr) (reg : RegAddr) (b : List Byte)
  deriving DecidableEq, Repr

/-- A Transport answer (R36, R52). -/
inductive Rsp where
  | readOk (b : List Byte)
  | writeOk
  | fail
  deriving DecidableEq, Repr

/-- An event of the history `H` (R37). -/
inductive Event where
  | issue (req : Req)
  | answer (rsp : Rsp)
  | reset
  deriving DecidableEq, Repr

/-- A Host operation (R150): one 32-bit register at an 8-bit byte offset. -/
inductive HostAccess where
  | read (off : BitVec 8)
  | write (off : BitVec 8) (v : Word)
  deriving DecidableEq, Repr

/-- One step of one agent (R3), with the choice the agent makes: what the Host accesses, what the Transport answers. -/
inductive Turn where
  | host (a : HostAccess)
  | engine
  | transport (rsp : Rsp)
  | reset
  deriving DecidableEq, Repr

/-- The state: every piece of state of the block (R20), then the model's own three fields. -/
structure State where
  /-- `CMD` readback: the last accepted command word (R24). -/
  cmd : Word
  /-- `STATUS.OVR` (R25). -/
  ovr : Bool
  /-- `STATUS.RSIGNED` (R25). -/
  rsigned : Bool
  /-- `STATUS.ERR` (R25, R170). -/
  err : Err
  /-- `DEVADDR.ADDR` (R26). -/
  devaddr : DevAddr
  /-- `DESC_DATA` (R27). -/
  descData : Word
  /-- `WDATA` (R28). -/
  wdata : Word
  /-- `RDATA` (R29). -/
  rdata : Word
  /-- `DT[10..N_DESC-1]`, the programmable entries (R32); the fixed ones are constant (R131, log 10). -/
  prog : List Desc
  /-- The Engine state (R34). -/
  fsm : Fsm
  /-- The command latch (R35). -/
  latch : Latch
  /-- The request slot of the transport channel (R36). -/
  treq : Option Req
  /-- The answer slot of the transport channel (R36). -/
  trsp : Option Rsp
  /-- The transaction history `H`, oldest event first (R37). -/
  hist : List Event
  /-- MODEL's own: the parameters of this instance (R6 to R8, log 6). -/
  cfg : Config
  /-- MODEL's own: the agents' steps still to come, in order (R3, log 1). -/
  turns : List Turn
  /-- MODEL's own: what the last `HostRead` returned (R150, log 5). -/
  hostResult : Option Word
  deriving DecidableEq, Repr

/-- Why a step stops the machine: never. Errors of the block are status codes and it has no trap (R170, R177), so the
type is empty and no step can fault (log 22). -/
inductive Fault where
  deriving DecidableEq, Repr

/-- Why a step is refused. -/
inductive Refusal where
  /-- An instruction without a meaning yet, rejected by name in `exec`'s arm. No arm raises it. Safe. -/
  | notModelled (mnemonic : String)
  /-- The Transport answers where no request waits for one: with an empty request slot (R52), as after a Reset that
  abandoned the request (R190, D22). Raised by a Transport step. Outside the model (93_implementation_defined.md
  section 4). Safe: the run ends (log 4). -/
  | strayAnswer
  /-- The Transport answers with the wrong kind or number of bytes (R52, D21). Raised by a Transport step, and by the
  Engine where a state holds such an answer. Outside the model (93_implementation_defined.md section 5). Safe: the run
  ends (log 4). -/
  | inadmissibleAnswer
  deriving DecidableEq, Repr

/-- The reset values of every piece of state (R191) of the instance `cfg`, with nothing in the history and no turn to
come (log 8, log 9). -/
def State.resetOf (cfg : Config) : State :=
  { cmd := 0x00000000#32
    ovr := false
    rsigned := false
    err := .noError
    devaddr := 0x48#7
    descData := 0x00000000#32
    wdata := 0x00000000#32
    rdata := 0x00000000#32
    prog := List.replicate (cfg.nDesc - nFixed) Desc.empty
    fsm := .idle
    latch := { word := 0#32, dev := 0#7, wdata := 0#32, desc := 0#32 }
    treq := none
    trsp := none
    hist := []
    cfg := cfg
    turns := []
    hostResult := none }

/-- The machine right after reset (R191), in the reference configuration (R6, R7; log 6). -/
def State.reset : State := State.resetOf Config.reference

end Sys2Proof.Machine
end

