-- ==== Sys2Proof/Machine/Operands.lean ====
section
/-! DEFINITION. The pure functions of the field access: masks, extraction, decoding, the fit check, injection (R100 to
R106), the byte order of a transfer (R54, R55), the construction checks (R135) and the descriptor word (R75, R138).
They are on unbounded naturals, as R10 says. -/

namespace Sys2Proof.Machine

open Sys2Proof

/-- The number of bits of the field, `n` in R100 to R106. -/
def Desc.n (d : Desc) : Nat := d.nbits.toNat

/-- The register width in bytes, `w` in R100 to R106. -/
def Desc.w (d : Desc) : Nat := d.width.toNat

/-- The lowest bit of the field, `d.lb` as a natural. -/
def Desc.low (d : Desc) : Nat := d.lb.toNat

/-- `mask(d) = (2^n - 1) * 2^(d.lb)` (R100). -/
def Desc.mask (d : Desc) : Nat := (2 ^ d.n - 1) * 2 ^ d.low

/-- `regmask(w) = 2^(8w) - 1` (R101). -/
def regmask (w : Nat) : Nat := 2 ^ (8 * w) - 1

/-- `NOT_{8w}(m) = regmask(w) - m` (R101, R10). -/
def regNot (w m : Nat) : Nat := regmask w - m

/-- `extract(d, r) = (r AND mask(d)) div 2^(d.lb)` (R102). -/
def Desc.extract (d : Desc) (r : Nat) : Nat := (r &&& d.mask) / 2 ^ d.low

/-- `decode(d, raw)`: two's complement in `n` bits for a signed field, the number itself for an unsigned one (R103). -/
def Desc.decodeRaw (d : Desc) (raw : Nat) : Int :=
  if d.signed && raw.testBit (d.n - 1) then (raw : Int) - 2 ^ d.n else raw

/-- The 32-bit value a READ places in `RDATA` (R104). -/
def Desc.result (d : Desc) (raw : Nat) : Word :=
  if d.signed then sext32 (d.decodeRaw raw) else zext32 raw

/-- `fits(d, v)` (R105). -/
def Desc.fits (d : Desc) (v : Word) : Bool :=
  decide (v.toNat < 2 ^ d.n) || (d.signed && decide (2 ^ 32 - 2 ^ (d.n - 1) ≤ v.toNat))

/-- `inject(d, r, v)` (R106). -/
def Desc.inject (d : Desc) (r : Nat) (v : Word) : Nat :=
  (r &&& regNot d.w d.mask) ||| ((v.toNat % 2 ^ d.n) * 2 ^ d.low)

/-- `assemble(b, w)`: the register value of `w` bytes, most significant first (R54). A missing byte counts as 0, which
no admissible answer shows (log 15). -/
def assemble : List Byte → Nat → Nat
  | _, 0 => 0
  | b, w + 1 => (b.headD 0#8).toNat * 2 ^ (8 * w) + assemble b.tail w

/-- `split(r, w)`: the `w` bytes of a register value, most significant first (R55). -/
def split (r : Nat) : Nat → List Byte
  | 0 => []
  | w + 1 => BitVec.ofNat 8 (r / 2 ^ (8 * w) % 256) :: split r w

/-- `construct_ok(e)`: the four construction checks (R135). -/
def Desc.constructOk (c : Config) (e : Desc) : Bool :=
  decide (1 ≤ e.n) && decide (1 ≤ e.w) && decide (e.w ≤ c.rwMax) && decide (e.low + e.n ≤ 8 * e.w)

/-- The descriptor DEFINE reads from a descriptor word; bits 15:14 are ignored (R75, R134). -/
def Desc.ofWord (v : Word) : Desc :=
  { valid := true
    addr := v.extractLsb' 0 8
    width := v.extractLsb' 8 4
    signed := v.getLsbD 12
    ro := v.getLsbD 13
    lb := v.extractLsb' 16 8
    nbits := v.extractLsb' 24 8 }

/-- `pack(e)`: the descriptor word QUERY writes, most significant field first, bit 14 zero (R75, R138). -/
def Desc.pack (e : Desc) : Word :=
  e.nbits ++ e.lb ++ BitVec.ofBool e.valid ++ 0#1 ++ BitVec.ofBool e.ro ++ BitVec.ofBool e.signed ++ e.width ++ e.addr

end Sys2Proof.Machine
end

