-- ==== Sys2Proof/Machine/Flags.lean ====
section
/-! DEFINITION. The flags of the block: the fields of `STATUS` (R25, R38), their codes (R170) and their place in the
status word (R151). -/

namespace Sys2Proof.Machine

open Sys2Proof

/-- The numeric value of an error code (R170). -/
def Err.code : Err → BitVec 4
  | .noError => 0#4
  | .construction => 1#4
  | .transport => 2#4
  | .invalidArgument => 3#4
  | .unsupported => 4#4
  | .descRange => 5#4
  | .descInvalid => 6#4
  | .descFixed => 7#4
  | .illegalCmd => 8#4

/-- `STATUS.BUSY`: not stored, always `fsm != IDLE` (R25). -/
def State.busy (s : State) : Bool := decide (s.fsm ≠ .idle)

/-- `STATUS` as the Host reads it: `24'b0, ERR, 1'b0, RSIGNED, OVR, BUSY`, most significant first (R151). -/
def State.status (s : State) : Word :=
  0#24 ++ s.err.code ++ 0#1 ++ BitVec.ofBool s.rsigned ++ BitVec.ofBool s.ovr ++ BitVec.ofBool s.busy

end Sys2Proof.Machine
end

