-- ==== Sys2Proof/Machine/Ops.lean ====
section
/-! DEFINITION. The operations the meanings share: the descriptor table, ending a command (`raise`, `complete`), the
transport channel, command acceptance, the host registers and the Reset step. -/

namespace Sys2Proof.Machine

open Sys2Proof

/-! ### The descriptor table -/

/-- A fixed entry of the register map over 2-byte registers (R130). -/
def fixedField (addr : RegAddr) (lb nbits : BitVec 8) (signed ro : Bool) : Desc :=
  { valid := true, addr := addr, width := 2#4, signed := signed, ro := ro, lb := lb, nbits := nbits }

/-- Fixed entry `i` of the register map, in the table order of R130; entry 9's read-only flag is `P_CONV_RO` (R8). -/
def fixedEntry (c : Config) (i : Nat) : Desc :=
  match i with
  | 0 => fixedField 0x01#8 15#8 1#8 false false
  | 1 => fixedField 0x01#8 12#8 3#8 false false
  | 2 => fixedField 0x01#8 9#8 3#8 false false
  | 3 => fixedField 0x01#8 8#8 1#8 false false
  | 4 => fixedField 0x01#8 5#8 3#8 false false
  | 5 => fixedField 0x01#8 4#8 1#8 false false
  | 6 => fixedField 0x01#8 3#8 1#8 false false
  | 7 => fixedField 0x01#8 2#8 1#8 false false
  | 8 => fixedField 0x01#8 0#8 2#8 false false
  | 9 => fixedField 0x00#8 4#8 12#8 true c.convRo
  | _ => Desc.empty

/-- `DT[i]`: a fixed entry below `N_FIXED`, a programmable one above (R32, R131). -/
def State.dt (s : State) (i : Nat) : Desc :=
  if i < nFixed then fixedEntry s.cfg i else s.prog.getD (i - nFixed) Desc.empty

/-- `DT[i] <- e` of a programmable entry, the write of DEFINE and UNDEFINE (R134, R136). -/
def State.setDt (s : State) (i : Nat) (e : Desc) : State :=
  { s with prog := s.prog.set (i - nFixed) e }

/-! ### Ending a command -/

/-- `raise E`: the error is written, the Engine returns to IDLE and the channel is empty; nothing else changes (R13,
R172). This is all the block has of an exception: no trap entry (R177) and no return (R178). -/
def State.raise (s : State) (e : Err) : State :=
  { s with err := e, fsm := .idle, treq := none, trsp := none }

/-- `complete`: the command ends with ERR = 0 and the Engine returns to IDLE (R13). -/
def State.complete (s : State) : State :=
  { s with err := .noError, fsm := .idle }

/-- The result of a successful READ: `RDATA` and `STATUS.RSIGNED` (R107). -/
def State.setResult (s : State) (v : Word) (signed : Bool) : State :=
  { s with rdata := v, rsigned := signed }

/-- The result of a successful QUERY: `DESC_DATA` (R137). -/
def State.setDescData (s : State) (v : Word) : State :=
  { s with descData := v }

/-! ### The transport channel -/

/-- Engine issue: the request slot is filled, the event recorded, and the Engine waits (R52, R107, R108). -/
def State.issue (s : State) (wait : Fsm) (req : Req) : State :=
  { s with treq := some req, hist := s.hist ++ [.issue req], fsm := wait }

/-- The Engine consumes the answer (R52). -/
def State.consume (s : State) : State :=
  { s with trsp := none }

/-- The admissible answers to a request: `Fail`, or `ReadOk` of exactly the bytes asked for, or `WriteOk` (R52). -/
def Req.admits : Req → Rsp → Bool
  | .read _ _ _, .fail => true
  | .read _ _ w, .readOk b => decide (b.length = w)
  | .read _ _ _, .writeOk => false
  | .write _ _ _, .fail => true
  | .write _ _ _, .readOk _ => false
  | .write _ _ _, .writeOk => true

/-- The Transport's answer moves into the answer slot, the request slot empties, and the event is recorded (R52). -/
def State.answer (s : State) (rsp : Rsp) : State :=
  { s with treq := none, trsp := some rsp, hist := s.hist ++ [.answer rsp] }

/-- The Transport's step (R52): it answers the outstanding request. An answer that R52 does not admit, or one where none
is awaited, is outside the model (log 4). -/
def transportStep (rsp : Rsp) (s : State) : Host.Outcome State Fault Refusal :=
  match s.treq, s.trsp with
  | some req, none => if req.admits rsp then .next (s.answer rsp) else .refused .inadmissibleAnswer
  | _, _ => .refused .strayAnswer

/-! ### The command latch -/

/-- `L.op = L.word[3:0]` (R35). -/
def Latch.op (l : Latch) : BitVec 4 := cmdOp l.word

/-- `L.idx = L.word[15:8]` (R35). -/
def Latch.idx (l : Latch) : Nat := (cmdIdx l.word).toNat

/-- Command acceptance: the word and the live operands are latched, and the Engine becomes PENDING (R153). -/
def State.accept (s : State) (v : Word) : State :=
  { s with
    cmd := v
    latch := { word := v, dev := s.devaddr, wdata := s.wdata, desc := s.descData }
    fsm := .pending }

/-! ### The host registers -/

/-- `PARAM`: RW_MAX in bits 3:0, 0 in bits 7:4, N_DESC in bits 15:8, N_FIXED in bits 23:16, revision 0x01 above (R30). -/
def paramWord (c : Config) : Word :=
  0x01#8 ++ BitVec.ofNat 8 nFixed ++ BitVec.ofNat 8 c.nDesc ++ 0#4 ++ BitVec.ofNat 4 c.rwMax

/-- A host register is selected by `off[7:2]`; `off[1:0]` is ignored (R150, R23). -/
def hostSelect (off : BitVec 8) : Nat := (off.extractLsb' 2 6).toNat

/-- The value `HostRead(off)` returns (R151). -/
def State.hostValue (s : State) (off : BitVec 8) : Word :=
  match hostSelect off with
  | 0 => s.cmd
  | 1 => s.status
  | 2 => s.devaddr.setWidth 32
  | 3 => s.descData
  | 4 => s.wdata
  | 5 => s.rdata
  | 6 => paramWord s.cfg
  | _ => 0x00000000#32

/-- `HostWrite(CMD, v)`: accepted while the Engine is IDLE (R153), else dropped with OVR set (R154). -/
def State.writeCmd (s : State) (v : Word) : State :=
  match s.fsm with
  | .idle => s.accept v
  | _ => { s with ovr := true }

/-- `HostWrite(STATUS, v)`: bit 1 set clears OVR; nothing else can be written (R155). -/
def State.writeStatus (s : State) (v : Word) : State :=
  if v.getLsbD 1 then { s with ovr := false } else s

/-- `HostWrite(off, v)` (R152). -/
def State.hostWrite (s : State) (off : BitVec 8) (v : Word) : State :=
  match hostSelect off with
  | 0 => s.writeCmd v
  | 1 => s.writeStatus v
  | 2 => { s with devaddr := v.extractLsb' 0 7 }
  | 3 => { s with descData := v }
  | 4 => { s with wdata := v }
  | _ => s

/-- The Host's step (R150): a read has no side effect on the block (R151). -/
def State.hostStep (s : State) : HostAccess → State
  | .read off => { s with hostResult := some (s.hostValue off) }
  | .write off v => s.hostWrite off v

/-! ### Reset -/

/-- The Reset step, possible in any state: every piece of state takes its reset value, the channel is emptied, and
`Reset` is appended to `H`, which is not cleared (R190, R191). The model's own fields stay (log 17). -/
def State.hwReset (s : State) : State :=
  { State.resetOf s.cfg with
    hist := s.hist ++ [.reset]
    turns := s.turns
    hostResult := s.hostResult }

end Sys2Proof.Machine
end

