-- ==== Sys2Proof/Machine/Descriptor.lean ====
section
/-! DEFINITION. DEFINE (R134), UNDEFINE (R136) and QUERY (R137): the meanings of the descriptor commands. They complete
in the execute step and issue no transaction; in any other Engine state they have no step (R159, log 3). -/

namespace Sys2Proof.Machine

open Sys2Proof

/-- The checks DEFINE and UNDEFINE share: DESC_RANGE, then DESC_FIXED (R134, R136). -/
def State.programmable (s : State) (idx : Nat) (write : State) : State :=
  if s.cfg.nDesc ≤ idx then s.raise .descRange
  else if idx < nFixed then s.raise .descFixed
  else write

/-- DEFINE's execute step: the descriptor of the latched word is checked and stored (R134). -/
def defineExecute (idx : Nat) (s : State) : State :=
  s.programmable idx
    (if (Desc.ofWord s.latch.desc).constructOk s.cfg then (s.setDt idx (Desc.ofWord s.latch.desc)).complete
     else s.raise .construction)

/-- DEFINE i (R134). -/
def execDefine (idx : Nat) (s : State) : Host.Outcome State Fault Refusal :=
  match s.fsm with
  | .pending => .next (defineExecute idx s)
  | _ => .next s

/-- UNDEFINE's execute step: the entry is cleared, valid or not (R136). -/
def undefineExecute (idx : Nat) (s : State) : State :=
  s.programmable idx (s.setDt idx Desc.empty).complete

/-- UNDEFINE i (R136). -/
def execUndefine (idx : Nat) (s : State) : Host.Outcome State Fault Refusal :=
  match s.fsm with
  | .pending => .next (undefineExecute idx s)
  | _ => .next s

/-- QUERY's execute step: the packed entry goes to `DESC_DATA`; an invalid entry is no error (R137). -/
def queryExecute (idx : Nat) (s : State) : State :=
  if s.cfg.nDesc ≤ idx then s.raise .descRange
  else (s.setDescData (s.dt idx).pack).complete

/-- QUERY i (R137). -/
def execQuery (idx : Nat) (s : State) : Host.Outcome State Fault Refusal :=
  match s.fsm with
  | .pending => .next (queryExecute idx s)
  | _ => .next s

end Sys2Proof.Machine
end

