-- ==== Sys2Proof/Machine/FieldAccess.lean ====
section
/-! DEFINITION. READ (R107) and WRITE (R108, R109): the meanings of the two field commands, one Engine step at a time. A
command's Engine steps are told apart by the Engine state (R158, R159): the execute step in PENDING, the answer steps
in RD_WAIT and WR_WAIT. Where the Engine has no step the state stays (R159, log 3). -/

namespace Sys2Proof.Machine

open Sys2Proof

/-- The read transaction of a READ or WRITE through `d` (R107, R108). -/
def State.readReq (s : State) (d : Desc) : Req := .read s.latch.dev d.addr d.w

/-- The write transaction of a WRITE through `d` of the register value `r'` (R108). -/
def State.writeReq (s : State) (d : Desc) (r' : Nat) : Req := .write s.latch.dev d.addr (split r' d.w)

/-- READ's execute step (R107). -/
def readExecute (idx : Nat) (s : State) : State :=
  if s.cfg.nDesc ≤ idx then s.raise .descRange
  else if (s.dt idx).valid = false then s.raise .descInvalid
  else s.issue .rdWait (s.readReq (s.dt idx))

/-- READ's answer step (R107). An answer of the wrong kind is outside the model (log 13). -/
def readAnswer (idx : Nat) (rsp : Rsp) (s : State) : Host.Outcome State Fault Refusal :=
  match rsp with
  | .fail => .next (s.consume.raise .transport)
  | .readOk b =>
    let d := s.dt idx
    .next ((s.consume.setResult (d.result (d.extract (assemble b d.w))) d.signed).complete)
  | .writeOk => .refused .inadmissibleAnswer

/-- READ i (R107). -/
def execRead (idx : Nat) (s : State) : Host.Outcome State Fault Refusal :=
  match s.fsm, s.trsp with
  | .pending, _ => .next (readExecute idx s)
  | .rdWait, some rsp => readAnswer idx rsp s
  | _, _ => .next s

/-- WRITE's execute step: every check comes before the read transaction, and the read is issued even where the mask
covers the register (R108, R109). -/
def writeExecute (idx : Nat) (s : State) : State :=
  if s.cfg.nDesc ≤ idx then s.raise .descRange
  else if (s.dt idx).valid = false then s.raise .descInvalid
  else if (s.dt idx).ro = true then s.raise .unsupported
  else if (s.dt idx).fits s.latch.wdata = false then s.raise .invalidArgument
  else s.issue .rdWait (s.readReq (s.dt idx))

/-- WRITE's read-answer step: the field is injected into the value read, and the write is issued (R108). -/
def writeReadAnswer (idx : Nat) (rsp : Rsp) (s : State) : Host.Outcome State Fault Refusal :=
  match rsp with
  | .fail => .next (s.consume.raise .transport)
  | .readOk b =>
    let d := s.dt idx
    .next (s.consume.issue .wrWait (s.writeReq d (d.inject (assemble b d.w) s.latch.wdata)))
  | .writeOk => .refused .inadmissibleAnswer

/-- WRITE's write-answer step (R108). -/
def writeWriteAnswer (rsp : Rsp) (s : State) : Host.Outcome State Fault Refusal :=
  match rsp with
  | .fail => .next (s.consume.raise .transport)
  | .writeOk => .next s.consume.complete
  | .readOk _ => .refused .inadmissibleAnswer

/-- WRITE i (R108). -/
def execWrite (idx : Nat) (s : State) : Host.Outcome State Fault Refusal :=
  match s.fsm, s.trsp with
  | .pending, _ => .next (writeExecute idx s)
  | .rdWait, some rsp => writeReadAnswer idx rsp s
  | .wrWait, some rsp => writeWriteAnswer rsp s
  | _, _ => .next s

end Sys2Proof.Machine
end

