-- ==== Sys2Proof/Machine/Dispatch.lean ====
section
/-! DEFINITION. The dispatch of a command to its meaning: one Engine step of the command in progress (R158, R159). -/

namespace Sys2Proof.Machine

open Sys2Proof

def exec (i : Instr) (s : State) : Host.Outcome State Fault Refusal :=
  match i with
  | .read idx => Sys2Proof.Machine.execRead idx s
  | .write idx => Sys2Proof.Machine.execWrite idx s
  | .define idx => Sys2Proof.Machine.execDefine idx s
  | .undefine idx => Sys2Proof.Machine.execUndefine idx s
  | .query idx => Sys2Proof.Machine.execQuery idx s

end Sys2Proof.Machine
end

