-- ==== Sys2Proof/Machine/Engine.lean ====
section
/-! DEFINITION. The Engine's step (R158, R159) and the step of whichever agent has its turn (R3). -/

namespace Sys2Proof.Machine

open Sys2Proof

/-- The Engine's execute step: it decodes the latched word and runs the command, or raises ILLEGAL_CMD (R158, R74). -/
def executeStep (s : State) : Host.Outcome State Fault Refusal :=
  match decode s.latch.word with
  | .ok i => exec i s
  | .error _ => .next (s.raise .illegalCmd)

/-- The Engine's answer step, told by `L.op`: READ's in RD_WAIT, WRITE's in RD_WAIT and WR_WAIT; any other pair has no
step, and no run reaches it (R159, log 13). -/
def answerStep (s : State) : Host.Outcome State Fault Refusal :=
  match s.trsp with
  | none => .next s
  | some _ =>
    if s.latch.op = 0x1#4 then exec (.read s.latch.idx) s
    else if s.latch.op = 0x2#4 then exec (.write s.latch.idx) s
    else .next s

/-- The Engine's step. In IDLE, and while it waits for the Transport, it has none and the block stays as it is (R159,
R184, log 3). -/
def engineStep (s : State) : Host.Outcome State Fault Refusal :=
  match s.fsm with
  | .idle => .next s
  | .pending => executeStep s
  | .rdWait => answerStep s
  | .wrWait => answerStep s

/-- One step of the agent whose turn it is (R3). -/
def agentStep (t : Turn) (s : State) : Host.Outcome State Fault Refusal :=
  match t with
  | .host a => .next (s.hostStep a)
  | .engine => engineStep s
  | .transport rsp => transportStep rsp s
  | .reset => .next s.hwReset

/-- The first agent's step of the turns to come; with no turn listed it is the Engine's, whose steps are weakly fair,
while Host and Transport need never act (R160, R53, log 2). -/
def nextTurn (s : State) : Host.Outcome State Fault Refusal :=
  match s.turns with
  | [] => engineStep s
  | t :: ts => agentStep t { s with turns := ts }

/-- The state in which the command word `v` has just been accepted (R153) by a quiescent block and the Engine has the
next turn. -/
def State.withCommand (s : State) (v : Word) : State :=
  { s.accept v with treq := none, trsp := none, turns := .engine :: s.turns }

end Sys2Proof.Machine
end

