-- ==== Sys2Proof/Machine/Step.lean ====
section
/-! DEFINITION. One step of the machine: the step of the agent whose turn it is (R3). -/

namespace Sys2Proof.Machine

open Sys2Proof

/-- One step: the next agent's (R3). -/
def step (s : State) : Host.Outcome State Fault Refusal := nextTurn s

/-- The state whose next step executes the command word of an opcode-table word. The block fetches nothing (R21): a
command is delivered by one host write to `CMD`, and this stands for its acceptance (R153, log 9). -/
def State.withFetchWord (s : State) (nbits w : Nat) : State := s.withCommand (tableWord nbits w)

end Sys2Proof.Machine
end

