-- ==== Sys2Proof/Machine/Schedule.lean ====
section
/-! DEFINITION. Endless schedules of the agents' steps, the fairness of the Engine (R3, R160), and when a command and a run
have ended (R161). A state holds a finite list of turns, as plain data; an endless schedule is no part of it but a way to
run the block, and `step` is that same run wherever the list is long enough
(`Obligations.EndlessRunsAreRunsOfTheMachine`). -/

namespace Sys2Proof.Machine

open Sys2Proof

/-- The Engine has a step: a command was accepted and not yet executed (R158), or the answer it waits for is there
(R159). -/
def State.engineEnabled (s : State) : Prop :=
  s.fsm = .pending ∨ ((s.fsm = .rdWait ∨ s.fsm = .wrWait) ∧ s.trsp ≠ none)

/-- A run of the block without end: `sched n` is the agent of the `n`-th step, with the choice it makes, and `run n` the
state before that step. The Host may poll for ever in it, and no agent need ever act (R3, R53, R162). -/
def EndlessRun (sched : Nat → Turn) (run : Nat → State) : Prop :=
  ∀ n, agentStep (sched n) (run n) = .next (run (n + 1))

/-- The Engine's steps are weakly fair: an Engine step that stays enabled is eventually taken. Nothing is asked of the
Transport, the Host or Reset (R160, R53). -/
def WeaklyFair (sched : Nat → Turn) (run : Nat → State) : Prop :=
  ∀ n, (∀ m ≥ n, (run m).engineEnabled) → ∃ m ≥ n, sched m = .engine

/-! ### The end of a command and of a run (R161) -/

/-- The block is quiescent: IDLE with both slots of the channel empty (R161). -/
def State.quiescent (s : State) : Prop := s.fsm = .idle ∧ s.treq = none ∧ s.trsp = none

/-- The `n`-th step accepts a command: the Host writes `CMD` while the Engine is IDLE (R153). -/
def AcceptedAt (sched : Nat → Turn) (run : Nat → State) (n : Nat) : Prop :=
  (run n).fsm = .idle ∧ ∃ off v, sched n = .host (.write off v) ∧ hostSelect off = 0

/-- The command accepted by the `n`-th step ends before the `m`-th: the Engine is back in IDLE for the first time after
the acceptance, be it by completion, by an error or by a Reset (R161). -/
def CommandEnded (sched : Nat → Turn) (run : Nat → State) (n m : Nat) : Prop :=
  AcceptedAt sched run n ∧ n < m ∧ (run m).fsm = .idle ∧ ∀ k, n < k → k < m → (run k).fsm ≠ .idle

/-- The Host has taken its last step before the `n`-th: no turn of it follows (R161, log 26). -/
def HostDone (sched : Nat → Turn) (n : Nat) : Prop := ∀ m ≥ n, ∀ a, sched m ≠ .host a

/-- The run has ended before the `n`-th step: the Host has taken its last step and the block is quiescent (R161). Nothing
is said of the device's registers, of other masters or of time. -/
def RunEnded (sched : Nat → Turn) (run : Nat → State) (n : Nat) : Prop := HostDone sched n ∧ (run n).quiescent

/-- The run has ended in a state of the machine, whose turns are a list: no turn of the Host is left and the block is
quiescent (R161). -/
def State.runEnded (s : State) : Prop := (∀ a, .host a ∉ s.turns) ∧ s.quiescent

end Sys2Proof.Machine
end

