-- ==== Sys2Proof/Machine/HostProgram.lean ====
section
/-! DEFINITION. The assembler and host-program syntax of the spec: mnemonics (R78), host statements and
pseudo-instructions (R79), field aliases (R80). The block executes no program (R163): a host program is the Host's, and
what it does to the block is the list of host accesses it makes; its run has ended when the Host has made the last of them
and the block is quiescent (R161). -/

namespace Sys2Proof.Machine

open Sys2Proof

/-- The host registers by name (R23). -/
inductive HostReg where
  | cmd
  | status
  | devaddr
  | descData
  | wdata
  | rdata
  | param
  deriving DecidableEq, Repr

/-- The byte offset of a host register (R23). -/
def HostReg.offset : HostReg → BitVec 8
  | .cmd => 0x00#8
  | .status => 0x04#8
  | .devaddr => 0x08#8
  | .descData => 0x0C#8
  | .wdata => 0x10#8
  | .rdata => 0x14#8
  | .param => 0x18#8

/-- The field aliases of the fixed entries (R80). -/
inductive FieldAlias where
  | os
  | mux
  | pga
  | mode
  | dr
  | compMode
  | compPol
  | compLat
  | compQue
  | conv
  deriving DecidableEq, Repr

/-- The descriptor index a field alias stands for (R80). -/
def FieldAlias.index : FieldAlias → Nat
  | .os => 0
  | .mux => 1
  | .pga => 2
  | .mode => 3
  | .dr => 4
  | .compMode => 5
  | .compPol => 6
  | .compLat => 7
  | .compQue => 8
  | .conv => 9

/-- The host statements (R79); `cmd M i` is a `wr` of the assembled word, `HostStmt.cmd`. -/
inductive HostStmt where
  | wr (r : HostReg) (v : Word)
  | rd (r : HostReg)
  | poll
  | wait (ms : Nat)
  deriving DecidableEq, Repr

/-- `cmd M i`: one host write of the command's word to `CMD` (R78, R79). -/
def HostStmt.cmd (i : Instr) : HostStmt := .wr .cmd (encode i)

/-- The pseudo-instructions (R79). DESIGN CHOICE: the `a` of `setdev a`, whose range R79 does not give, is a 7-bit device
address (R9, log 25). -/
inductive Pseudo where
  | fread (i : Nat)
  | fwrite (i : Nat) (v : Word)
  | fdefine (i : Nat) (addr : RegAddr) (width : BitVec 4) (lb nbits : BitVec 8) (s ro : Bool)
  | fundef (i : Nat)
  | fquery (i : Nat)
  | setdev (a : DevAddr)
  | clrovr
  deriving DecidableEq, Repr

/-- The expansion of a pseudo-instruction (R79). -/
def Pseudo.expand : Pseudo → List HostStmt
  | .fread i => [.cmd (.read i), .poll, .rd .rdata]
  | .fwrite i v => [.wr .wdata v, .cmd (.write i), .poll]
  | .fdefine i addr width lb nbits s ro =>
    [.wr .descData (nbits ++ lb ++ 0#1 ++ 0#1 ++ BitVec.ofBool ro ++ BitVec.ofBool s ++ width ++ addr),
      .cmd (.define i), .poll]
  | .fundef i => [.cmd (.undefine i), .poll]
  | .fquery i => [.cmd (.query i), .poll, .rd .descData]
  | .setdev a => [.wr .devaddr (a.setWidth 32)]
  | .clrovr => [.wr .status 0x00000002#32]

/-- One host access as the Host sees it: a write it makes, or a read with the value it got back (R150). -/
inductive Seen where
  | wrote (off : BitVec 8) (v : Word)
  | got (off : BitVec 8) (v : Word)
  deriving DecidableEq, Repr

/-- The host accesses that one `poll` may make: reads of `STATUS` that end at the first one with BUSY = 0 (R79). -/
def pollSees : List Seen → Bool
  | [] => false
  | [.got off v] => decide (off = HostReg.status.offset) && !v.getLsbD 0
  | .got off v :: rest => decide (off = HostReg.status.offset) && v.getLsbD 0 && pollSees rest
  | _ => false

/-- The host accesses one statement may make; `wait` makes none and has no effect on the block (R79, log 23). -/
def HostStmt.sees : HostStmt → List Seen → Bool
  | .wr r v, [.wrote off v'] => decide (off = r.offset) && decide (v' = v)
  | .rd r, [.got off _] => decide (off = r.offset)
  | .poll, l => pollSees l
  | .wait _, [] => true
  | _, _ => false

/-- The host accesses a list of statements may make, one statement after the other (R79). -/
def stmtsSee : List HostStmt → List Seen → Bool
  | [], l => l.isEmpty
  | st :: sts, l => (List.range (l.length + 1)).any fun k => st.sees (l.take k) && stmtsSee sts (l.drop k)

/-- A pseudo-instruction's result: what its last `rd` returns, and the ERR field of its last `poll` read (R79). The
accesses are those of its expansion, the last read of `STATUS` being the poll's. DESIGN CHOICE: the reads of a `poll`,
itself a loop of `rd STATUS`, do not count as the last `rd`, so that `fwrite`, `fdefine` and `fundef` return no value
beside ERR (log 24). -/
def pseudoResult (l : List Seen) : Option Word × Option (BitVec 4) :=
  l.foldl
    (fun acc x => match x with
      | .wrote _ _ => acc
      | .got off v => if off = HostReg.status.offset then (acc.1, some (v.extractLsb' 4 4)) else (some v, acc.2))
    (none, none)

/-- The host access a turn makes at a state, as the Host sees it: none if the turn is another agent's (R150, R151). -/
def Turn.seen (u : Turn) (s : State) : List Seen :=
  match u with
  | .host (.read off) => [.got off (s.hostValue off)]
  | .host (.write off v) => [.wrote off v]
  | .engine => []
  | .transport _ => []
  | .reset => []

/-- The host accesses of a run's first `n` steps, in order. -/
def hostSees (sched : Nat → Turn) (run : Nat → State) : Nat → List Seen
  | 0 => []
  | n + 1 => hostSees sched run n ++ (sched n).seen (run n)

/-- The run of the host program `prog` has ended before the `n`-th step: the Host has made the accesses of all its
statements, has taken its last step, and the block is quiescent (R161, log 26). -/
def ProgramEnded (prog : List HostStmt) (sched : Nat → Turn) (run : Nat → State) (n : Nat) : Prop :=
  stmtsSee prog (hostSees sched run n) = true ∧ RunEnded sched run n

end Sys2Proof.Machine
end

