-- ==== Sys2Proof/Machine/Reference.lean ====
section
/-! DEFINITION. The reference transport (R67): one Transport among those R53 admits, with the device's registers as data
beside the block, and the block run under it. It is no part of the block (R20, R67), and nothing in `step` uses it. -/

namespace Sys2Proof.Machine

open Sys2Proof

/-- The device register space under the reference transport: `V(dev, reg)` by key `dev * 256 + reg`, keys strictly
rising, no entry of value 0, which is what an unlisted pair reads as (R67, 95_test_vectors.md conventions, log 11). -/
structure Memory where
  cells : List (Nat × Word)
  deriving DecidableEq, Repr

/-- The key of a device register. -/
def devKey (dev : DevAddr) (reg : RegAddr) : Nat := dev.toNat * 256 + reg.toNat

/-- The value listed under a key, 0 where none is. -/
def cellsRead : List (Nat × Word) → Nat → Word
  | [], _ => 0#32
  | (k', v) :: rest, k => if k = k' then v else cellsRead rest k

/-- The list with `v` under the key `k`, in the canonical form. -/
def cellsWrite : List (Nat × Word) → Nat → Word → List (Nat × Word)
  | [], k, v => if v = 0#32 then [] else [(k, v)]
  | (k', v') :: rest, k, v =>
    if k < k' then (if v = 0#32 then (k', v') :: rest else (k, v) :: (k', v') :: rest)
    else if k = k' then (if v = 0#32 then rest else (k, v) :: rest)
    else (k', v') :: cellsWrite rest k v

/-- The canonical form of a list whose keys are all at least `lo`: keys strictly rising, no value 0. -/
def cellsWf : Nat → List (Nat × Word) → Bool
  | _, [] => true
  | lo, (k, v) :: rest => decide (lo ≤ k) && decide (v ≠ 0#32) && cellsWf (k + 1) rest

/-- The canonical form of the device register space: every key is that of a 7-bit and an 8-bit address. -/
def Memory.wf (m : Memory) : Bool := cellsWf 0 m.cells && m.cells.all fun c => decide (c.1 < 2 ^ 15)

/-- `V(dev, reg)` (R67). -/
def Memory.read (m : Memory) (dev : DevAddr) (reg : RegAddr) : Word := cellsRead m.cells (devKey dev reg)

/-- `V(dev, reg) <- v` (R67). -/
def Memory.write (m : Memory) (dev : DevAddr) (reg : RegAddr) (v : Word) : Memory :=
  { cells := cellsWrite m.cells (devKey dev reg) v }

/-- The device register space in which every register holds 0. -/
def Memory.zero : Memory := { cells := [] }

/-- The reference transport's answer to a request, and the device registers after it, where no vector says that the
request fails (R67). -/
def Memory.serve (m : Memory) : Req → Rsp × Memory
  | .read dev reg w => (.readOk (split ((m.read dev reg).toNat % 2 ^ (8 * w)) w), m)
  | .write dev reg b => (.writeOk, m.write dev reg (zext32 (assemble b b.length)))

/-- The reference transport's answer where a vector says which requests it fails, `fails`: `Fail` to a request the vector
names, with the device registers left unchanged, and by the rule to every other (R67, 95_test_vectors.md conventions,
log 11). -/
def Memory.serveFailing (fails : List Req) (m : Memory) (req : Req) : Rsp × Memory :=
  if req ∈ fails then (.fail, m) else m.serve req

/-- An outcome of the block beside the device registers `m`. -/
def withMemory (m : Memory) : Host.Outcome State Fault Refusal → Host.Outcome (State × Memory) Fault Refusal
  | .next s => .next (s, m)
  | .fault r => .fault r
  | .refused r => .refused r

/-- One step of the block under the reference transport with the Host silent: the Transport answers an outstanding
request, with `Fail` if it is one of `fails`, else the Engine steps (R67). -/
def refStep (fails : List Req) (x : State × Memory) : Host.Outcome (State × Memory) Fault Refusal :=
  match x.1.treq with
  | some req =>
    withMemory (x.2.serveFailing fails req).2 (agentStep (.transport (x.2.serveFailing fails req).1) x.1)
  | none => withMemory x.2 (agentStep .engine x.1)

/-- `k` steps under the reference transport that fails the requests `fails`. -/
def refRun (fails : List Req) : Nat → State × Memory → Host.Outcome (State × Memory) Fault Refusal
  | 0, x => .next x
  | k + 1, x =>
    match refStep fails x with
    | .next x' => refRun fails k x'
    | .fault r => .fault r
    | .refused r => .refused r

/-- One command under the reference transport that fails the requests `fails`: the Host writes `CMD`, then the Engine and
the Transport step until the command ends, which takes at most five steps (execute, and an answer and an answer step for
each of two transactions). -/
def refCommandFailing (fails : List Req) (v : Word) (x : State × Memory) :
    Host.Outcome (State × Memory) Fault Refusal :=
  refRun fails 5 (x.1.hostStep (.write 0x00#8 v), x.2)

/-- One command under the reference transport that never fails (R67). -/
def refCommand (v : Word) (x : State × Memory) : Host.Outcome (State × Memory) Fault Refusal :=
  refCommandFailing [] v x

end Sys2Proof.Machine
end

