-- ==== Sys2Proof/Safety.lean ====
section
/-! DEFINITION. What holds of every state a run reaches (R33, R34, R36), and what a well-formed history is (R52, R62). -/

namespace Sys2Proof.Machine

open Sys2Proof

/-- The channel holds the request `req`, or an answer R52 admits to it, and never both (R36). -/
def State.awaits (s : State) (req : Req) : Prop :=
  (s.treq = some req ∧ s.trsp = none) ∨ (s.treq = none ∧ ∃ rsp, s.trsp = some rsp ∧ req.admits rsp = true)

/-- READ i's checks hold: the index is in the table and the entry is valid (R107). -/
def State.readable (s : State) (i : Nat) : Prop := i < s.cfg.nDesc ∧ (s.dt i).valid = true

/-- WRITE i's checks hold (R108). -/
def State.writable (s : State) (i : Nat) : Prop :=
  s.readable i ∧ (s.dt i).ro = false ∧ (s.dt i).fits s.latch.wdata = true

/-- The channel agrees with the Engine state: empty in IDLE and PENDING; in RD_WAIT it holds the read transaction of
the latched READ or WRITE, whose checks have passed; in WR_WAIT a write transaction of the latched WRITE (R34, R36,
R107, R108). -/
def State.channelOk (s : State) : Prop :=
  match s.fsm with
  | .idle => s.treq = none ∧ s.trsp = none
  | .pending => s.treq = none ∧ s.trsp = none
  | .rdWait => ∃ i, ((decode s.latch.word = .ok (.read i) ∧ s.readable i)
      ∨ (decode s.latch.word = .ok (.write i) ∧ s.writable i)) ∧ s.awaits (s.readReq (s.dt i))
  | .wrWait => ∃ i r, decode s.latch.word = .ok (.write i) ∧ s.writable i ∧ s.awaits (s.writeReq (s.dt i) r)

/-- A programmable entry is all-zero, or valid and past the construction checks (R32, R33, R134, R136). -/
def Desc.entryOk (c : Config) (e : Desc) : Prop :=
  e = Desc.empty ∨ (e.valid = true ∧ e.constructOk c = true)

/-- The invariant of the block: legal parameters (R6, R7), a table of `N_DESC` entries (R32) whose valid ones are well
formed (R33), and a channel that agrees with the Engine (R34, R36). -/
structure State.Inv (s : State) : Prop where
  cfgLegal : s.cfg.legal = true
  progLength : s.prog.length = s.cfg.nDesc - nFixed
  progOk : ∀ e ∈ s.prog, e.entryOk s.cfg
  channel : s.channelOk

/-- What one event of a history does to the outstanding request: an issue needs none outstanding, an answer must be one
the outstanding request admits, and a Reset abandons whatever is outstanding (R36, R52, R190). -/
def Event.follow (o : Option Req) : Event → Option (Option Req)
  | .issue req => match o with
    | none => some (some req)
    | some _ => none
  | .answer rsp => match o with
    | some req => if req.admits rsp then some none else none
    | none => none
  | .reset => some none

/-- The request outstanding after a history, if the history is one in which transactions are issued and answered one at
a time, in order (R52, R62); none if it is not. -/
def histOutstanding : List Event → Option Req → Option (Option Req)
  | [], o => some o
  | e :: es, o => match e.follow o with
    | some o' => histOutstanding es o'
    | none => none

/-- The history is well formed and what it leaves outstanding is what the request slot holds (R36, R37, R52). -/
def State.histOk (s : State) : Prop := histOutstanding s.hist none = some s.treq

/-- The turn is a host write that selects the register `k` (R150, R152). -/
def Turn.writesReg (u : Turn) (k : Nat) : Prop := ∃ off v, u = .host (.write off v) ∧ off.toNat / 4 = k

/-- How far the Engine is from the end of its command: what every Engine step lowers (R34, R160). -/
def Fsm.phase : Fsm → Nat
  | .idle => 0
  | .wrWait => 1
  | .rdWait => 2
  | .pending => 3

/-- A state some run reaches: from the reset state of a legal instance, under any list of turns of the agents (R3,
R191). -/
inductive Reached : State → Prop where
  | reset (c : Config) (turns : List Turn) : c.legal = true → Reached { State.resetOf c with turns := turns }
  | step (s t : State) : Reached s → step s = .next t → Reached t

end Sys2Proof.Machine
end

