-- ==== Sys2Proof/Certificates/Slice0/Obligations.lean ====
section
/-! DEFINITION. The statements for the provers, in the order of OBLIGATIONS.json. -/

open Sys2Proof Sys2Proof.Machine

/-! ### The command word (R70 to R77) -/

/-- Decoding an encoded command gives it back, for every index the word can hold (30_encoding.md sections 1 and 2). -/
def Obligations.DecodeOfEncodeGivesTheCommandBack : Prop :=
  ∀ i : Instr, i.wellFormed = true → decode (encode i) = .ok i

/-- A word that decodes is the word of the command it decodes to: no two words mean one command. -/
def Obligations.EncodeOfDecodeGivesTheWordBack : Prop :=
  ∀ (w : Word) (i : Instr), decode w = .ok i → i.wellFormed = true ∧ encode i = w

/-- Which words decode to which command, as numbers (30_encoding.md section 3), and which are illegal (R76). -/
def Obligations.DecodeReadsTheStatedWords : Prop :=
  ∀ w : Word,
    (∀ i, decode w = .ok (.read i) ↔ i < 256 ∧ w.toNat = i * 256 + 1) ∧
    (∀ i, decode w = .ok (.write i) ↔ i < 256 ∧ w.toNat = i * 256 + 2) ∧
    (∀ i, decode w = .ok (.define i) ↔ i < 256 ∧ w.toNat = i * 256 + 3) ∧
    (∀ i, decode w = .ok (.undefine i) ↔ i < 256 ∧ w.toNat = i * 256 + 4) ∧
    (∀ i, decode w = .ok (.query i) ↔ i < 256 ∧ w.toNat = i * 256 + 5) ∧
    ((∃ e, decode w = .error e) ↔
      w.toNat / 16 % 16 ≠ 0 ∨ w.toNat / 65536 ≠ 0 ∨ w.toNat % 16 = 0 ∨ 6 ≤ w.toNat % 16)

/-- The example words of 30_encoding.md section 3 and of the vectors DC-1 to DC-11, written out. -/
def Obligations.StatedWordsDecodeAsStated : Prop :=
  decode 0x00000901#32 = .ok (.read 9) ∧ decode 0x00000102#32 = .ok (.write 1) ∧
  decode 0x00000A03#32 = .ok (.define 10) ∧ decode 0x00000F04#32 = .ok (.undefine 15) ∧
  decode 0x0000FF05#32 = .ok (.query 255) ∧
  decode 0x00000000#32 = .error .reservedOp ∧ decode 0x00000006#32 = .error .reservedOp ∧
  decode 0x0000000F#32 = .error .reservedOp ∧ decode 0x00000016#32 = .error .reservedBits ∧
  decode 0x000009F1#32 = .error .reservedBits ∧ decode 0x00010001#32 = .error .reservedBits ∧
  decode 0x80000901#32 = .error .reservedBits

/-- R73: a word with a reserved bit set is illegal whatever its OP, and its command fails with ILLEGAL_CMD. -/
def Obligations.ReservedBitsFailWithIllegalCmd : Prop :=
  ∀ (s : State) (ts : List Turn),
    (s.latch.word.toNat / 16 % 16 ≠ 0 ∨ s.latch.word.toNat / 65536 ≠ 0) →
    decode s.latch.word = .error .reservedBits ∧
    (s.fsm = .pending → s.turns = .engine :: ts →
      step s = .next { s with turns := ts, err := .illegalCmd, fsm := .idle, treq := none, trsp := none })

/-- R74: every word that is no command's word is accepted, latched and shown by `CMD`, and then completes with
ILLEGAL_CMD, code 8, with nothing else touched. -/
def Obligations.EveryOtherWordIsAcceptedAndFails : Prop :=
  ∀ (s : State) (v : Word) (ts : List Turn),
    s.quiescent → (∀ i : Instr, i.wellFormed = true → v ≠ encode i) →
    s.turns = .host (.write 0x00#8 v) :: .engine :: ts →
    ∃ s1, step s = .next s1 ∧ s1.cmd = v ∧ s1.latch.word = v ∧
      step s1 = .next
        { s with
          turns := ts
          cmd := v
          latch := { word := v, dev := s.devaddr, wdata := s.wdata, desc := s.descData }
          err := .illegalCmd } ∧
      Err.illegalCmd.code.toNat = 8

/-! ### Whose step a step is (R3, R158, R159) -/

/-- In PENDING with the Engine's turn, a step is `exec` of the command the latched word decodes to (R158). That a step
with no turn listed is the Engine's is the model's choice (log 2). -/
def Obligations.StepRunsTheLatchedCommand : Prop :=
  ∀ (s : State) (i : Instr), s.fsm = .pending → decode s.latch.word = .ok i →
    (∀ ts, s.turns = .engine :: ts → step s = exec i { s with turns := ts }) ∧
    (s.turns = [] → step s = exec i s)

/-- While the Engine waits and the answer is there, its step is `exec` of the same command (R159). That a step with no
turn listed is the Engine's is the model's choice (log 2). -/
def Obligations.StepRunsTheCommandInProgressOnItsAnswer : Prop :=
  ∀ (s : State) (i : Instr) (ts : List Turn), s.Inv → s.fsm = .rdWait ∨ s.fsm = .wrWait → s.trsp ≠ none →
    decode s.latch.word = .ok i →
    (s.turns = .engine :: ts → step s = exec i { s with turns := ts }) ∧ (s.turns = [] → step s = exec i s)

/-- R34: the Engine state changes only by the transitions the rule lists, each at its cause; BUSY is `fsm != IDLE`. -/
def Obligations.EngineMakesOnlyTheStatedTransitions : Prop :=
  (∀ s : State, s.status.getLsbD 0 = decide (s.fsm ≠ .idle)) ∧ State.reset.fsm = .idle ∧
  ∀ s t : State, step s = .next t → t.fsm ≠ s.fsm →
    (t.fsm = .idle ∧ ∃ ts, s.turns = .reset :: ts) ∨
    (s.fsm = .idle ∧ t.fsm = .pending ∧ ∃ off v ts, s.turns = .host (.write off v) :: ts ∧ off.toNat / 4 = 0) ∨
    ((s.turns = [] ∨ ∃ ts, s.turns = .engine :: ts) ∧
      ((s.fsm = .pending ∧ (t.fsm = .idle ∨ t.fsm = .rdWait)) ∨
        (s.fsm = .rdWait ∧ s.trsp ≠ none ∧ (t.fsm = .idle ∨ t.fsm = .wrWait)) ∨
        (s.fsm = .wrWait ∧ s.trsp ≠ none ∧ t.fsm = .idle)))

/-- A step is refused only where the Transport gives an answer that R52 does not admit: with the invariant, the Engine,
the Host and Reset always have a next state. -/
def Obligations.StepIsRefusedOnlyOnAnInadmissibleAnswer : Prop :=
  ∀ (s : State) (r : Refusal), s.Inv → step s = .refused r →
    ∃ rsp ts, s.turns = .transport rsp :: ts ∧
      ((r = .strayAnswer ∧ s.treq = none) ∨
        (r = .inadmissibleAnswer ∧ ∃ req, s.treq = some req ∧ req.admits rsp = false))

/-! ### The host interface (R150 to R156) -/

/-- R151: a host read changes nothing of the block and returns the value of the table. -/
def Obligations.HostReadReturnsTheStatedValue : Prop :=
  ∀ (s : State) (off : BitVec 8) (ts : List Turn), s.cfg.legal = true → s.turns = .host (.read off) :: ts →
    ∃ v : Word, step s = .next { s with turns := ts, hostResult := some v } ∧
      (off.toNat / 4 = 0 → v = s.cmd) ∧
      (off.toNat / 4 = 1 → v.toNat =
        (if s.fsm = .idle then 0 else 1) + 2 * s.ovr.toNat + 4 * s.rsigned.toNat + 16 * s.err.code.toNat) ∧
      (off.toNat / 4 = 2 → v.toNat = s.devaddr.toNat) ∧
      (off.toNat / 4 = 3 → v = s.descData) ∧
      (off.toNat / 4 = 4 → v = s.wdata) ∧
      (off.toNat / 4 = 5 → v = s.rdata) ∧
      (off.toNat / 4 = 6 → v.toNat = s.cfg.rwMax + s.cfg.nDesc * 2 ^ 8 + 10 * 2 ^ 16 + 1 * 2 ^ 24) ∧
      (7 ≤ off.toNat / 4 → v.toNat = 0)

/-- R152 to R155: what a host write does, at every offset and in every Engine state: acceptance, dropping, clearing OVR,
the three writable registers, and no effect anywhere else. -/
def Obligations.HostWriteDoesWhatTheTableStates : Prop :=
  ∀ (s : State) (off : BitVec 8) (v : Word) (ts : List Turn), s.turns = .host (.write off v) :: ts →
    step s = .next
      (if off.toNat / 4 = 0 then
        (if s.fsm = .idle then
          { s with
            turns := ts
            cmd := v
            latch := { word := v, dev := s.devaddr, wdata := s.wdata, desc := s.descData }
            fsm := .pending }
        else { s with turns := ts, ovr := true })
      else if off.toNat / 4 = 1 then
        (if v.toNat / 2 % 2 = 1 then { s with turns := ts, ovr := false } else { s with turns := ts })
      else if off.toNat / 4 = 2 then { s with turns := ts, devaddr := BitVec.ofNat 7 v.toNat }
      else if off.toNat / 4 = 3 then { s with turns := ts, descData := v }
      else if off.toNat / 4 = 4 then { s with turns := ts, wdata := v }
      else { s with turns := ts })

/-- R38, R156: what a command does depends on the latch, the table, the Engine and the channel alone: two states that
agree on those do the same whatever the flags and the live host registers hold. -/
def Obligations.CommandDependsOnlyOnLatchTableAndAnswers : Prop :=
  ∀ (s s' t : State) (i : Instr),
    s'.cfg = s.cfg → s'.prog = s.prog → s'.fsm = s.fsm → s'.latch = s.latch → s'.treq = s.treq → s'.trsp = s.trsp →
    exec i s = .next t →
    ∃ t', exec i s' = .next t' ∧ t'.cfg = t.cfg ∧ t'.prog = t.prog ∧ t'.fsm = t.fsm ∧ t'.latch = t.latch ∧
      t'.treq = t.treq ∧ t'.trsp = t.trsp ∧
      (∃ evs, t.hist = s.hist ++ evs ∧ t'.hist = s'.hist ++ evs) ∧
      ((t.err = s.err ∧ t'.err = s'.err) ∨ t'.err = t.err) ∧
      (s.fsm ≠ .idle → t.fsm = .idle → t'.err = t.err) ∧
      ((t.rdata = s.rdata ∧ t'.rdata = s'.rdata ∧ t.rsigned = s.rsigned ∧ t'.rsigned = s'.rsigned) ∨
        (t'.rdata = t.rdata ∧ t'.rsigned = t.rsigned)) ∧
      ((t.descData = s.descData ∧ t'.descData = s'.descData) ∨ t'.descData = t.descData)

/-- R25: ERR is written by completions and Reset only; OVR is set by a dropped `CMD` write only and cleared by a `STATUS`
write of bit 1 or Reset only; RSIGNED is written by a successful READ or Reset only. -/
def Obligations.StatusFieldsChangeOnlyAsStated : Prop :=
  ∀ s t : State, step s = .next t →
    (t.err ≠ s.err → (∃ ts, s.turns = .reset :: ts) ∨ (s.fsm ≠ .idle ∧ t.fsm = .idle)) ∧
    (s.ovr = false → t.ovr = true →
      ∃ off v ts, s.turns = .host (.write off v) :: ts ∧ off.toNat / 4 = 0 ∧ s.fsm ≠ .idle) ∧
    (s.ovr = true → t.ovr = false →
      (∃ ts, s.turns = .reset :: ts) ∨
      ∃ off v ts, s.turns = .host (.write off v) :: ts ∧ off.toNat / 4 = 1 ∧ v.toNat / 2 % 2 = 1) ∧
    (t.rsigned ≠ s.rsigned →
      (∃ ts, s.turns = .reset :: ts) ∨
      (s.fsm = .rdWait ∧ t.fsm = .idle ∧ t.err = .noError ∧ ∃ b, s.trsp = some (.readOk b)))

/-- Results change at completion only: a step after which a command is in progress leaves every result of the command
before it as it was, and the table too; `DESC_DATA` changes only by the Host's own write of it (R153, R196). -/
def Obligations.ResultsHoldUntilCompletion : Prop :=
  ∀ s t : State, step s = .next t → t.fsm ≠ .idle →
    t.rdata = s.rdata ∧ t.rsigned = s.rsigned ∧ t.err = s.err ∧ (∀ i, t.dt i = s.dt i) ∧
    (t.descData = s.descData ∨
      ∃ off ts, s.turns = .host (.write off t.descData) :: ts ∧ off.toNat / 4 = 3)

/-! ### The field functions (R54, R55, R100 to R106) -/

/-- R100: the mask's formula, its bits, its bound for a descriptor past the construction checks, and the equivalence of
the two forms of the geometry condition once the field has a bit. -/
def Obligations.MaskIsTheFieldsBits : Prop :=
  ∀ d : Desc,
    d.mask = (2 ^ d.nbits.toNat - 1) * 2 ^ d.lb.toNat ∧
    (∀ j, d.mask.testBit j = decide (d.lb.toNat ≤ j ∧ j < d.lb.toNat + d.nbits.toNat)) ∧
    (∀ c : Config, d.constructOk c = true → d.mask < 2 ^ (8 * d.width.toNat)) ∧
    (1 ≤ d.nbits.toNat →
      (d.mask < 2 ^ (8 * d.width.toNat) ↔ d.lb.toNat + d.nbits.toNat ≤ 8 * d.width.toNat))

/-- R102: extraction masks and shifts, and so gives the bits `lb + n - 1` down to `lb`. -/
def Obligations.ExtractIsTheFieldSlice : Prop :=
  ∀ (c : Config) (d : Desc) (r : Nat), d.constructOk c = true → r < 2 ^ (8 * d.width.toNat) →
    d.extract r = (r &&& d.mask) / 2 ^ d.lb.toNat ∧ d.extract r < 2 ^ d.nbits.toNat ∧
    d.extract r = r / 2 ^ d.lb.toNat % 2 ^ d.nbits.toNat

/-- R103: signed decoding, its range, and the source's own formula, `-(((~raw) & (2^n - 1)) + 1)`. -/
def Obligations.DecodeRawIsTwosComplement : Prop :=
  ∀ (d : Desc) (raw n : Nat), n = d.nbits.toNat → 1 ≤ n → raw < 2 ^ n →
    (d.signed = true → raw.testBit (n - 1) = true →
      d.decodeRaw raw = (raw : Int) - 2 ^ n ∧
      d.decodeRaw raw = -((((2 ^ n - 1) ^^^ raw : Nat) : Int) + 1)) ∧
    (d.signed = true → raw.testBit (n - 1) = false → d.decodeRaw raw = raw) ∧
    (d.signed = false → d.decodeRaw raw = raw) ∧
    (d.signed = true → -2 ^ (n - 1) ≤ d.decodeRaw raw ∧ d.decodeRaw raw ≤ 2 ^ (n - 1) - 1) ∧
    (d.signed = false → 0 ≤ d.decodeRaw raw ∧ d.decodeRaw raw ≤ 2 ^ n - 1)

/-- R104: a READ leaves in `RDATA` and RSIGNED exactly the decoded field: read as signed or unsigned, as RSIGNED says, it
is the source's integer, and for a signed field it is the raw pattern with its top bit copied upward. -/
def Obligations.ReadResultIsExact : Prop :=
  ∀ (s : State) (i : Nat) (b : List Byte), s.cfg.legal = true → (s.dt i).constructOk s.cfg = true →
    s.fsm = .rdWait → s.trsp = some (.readOk b) →
    ∃ (t : State) (raw : Nat),
      exec (.read i) s = .next t ∧ t.fsm = .idle ∧ t.err = .noError ∧
      raw = (s.dt i).extract (assemble b (s.dt i).width.toNat) ∧
      t.rsigned = (s.dt i).signed ∧
      (t.rsigned = true → t.rdata = sext32 ((s.dt i).decodeRaw raw) ∧ t.rdata.toInt = (s.dt i).decodeRaw raw ∧
        ∀ j < 32, t.rdata.getLsbD j = raw.testBit (min j ((s.dt i).nbits.toNat - 1))) ∧
      (t.rsigned = false → t.rdata = zext32 raw ∧ t.rdata.toNat = raw)

/-- R105: the values that fit: `n`-bit patterns, and for a signed field the negative numbers of `n` bits; all for
`n = 32`. -/
def Obligations.FitsIsTheRepresentableRange : Prop :=
  ∀ (d : Desc) (v : Word) (n : Nat), n = d.nbits.toNat → 1 ≤ n → n ≤ 32 →
    (d.fits v = true ↔ v.toNat < 2 ^ n ∨ (d.signed = true ∧ 2 ^ 32 - 2 ^ (n - 1) ≤ v.toNat)) ∧
    (d.fits v = true ↔ v.toNat < 2 ^ n ∨ (d.signed = true ∧ -2 ^ (n - 1) ≤ v.toInt ∧ v.toInt ≤ -1)) ∧
    (n = 32 → d.fits v = true)

/-- R106: injection by the stated formula keeps the register's width and every bit outside the mask, and the field reads
back as the value modulo `2^n`. -/
def Obligations.InjectWritesTheFieldAndNothingElse : Prop :=
  ∀ (c : Config) (d : Desc) (r : Nat) (v : Word), d.constructOk c = true → r < 2 ^ (8 * d.width.toNat) →
    d.fits v = true →
    d.inject r v =
      ((r &&& (2 ^ (8 * d.width.toNat) - 1 - d.mask)) ||| (v.toNat % 2 ^ d.nbits.toNat * 2 ^ d.lb.toNat)) ∧
    d.inject r v < 2 ^ (8 * d.width.toNat) ∧
    (∀ j, d.mask.testBit j = false → (d.inject r v).testBit j = r.testBit j) ∧
    d.extract (d.inject r v) = v.toNat % 2 ^ d.nbits.toNat

/-- R54: a read answer is assembled most significant byte first, and stays below `2^(8w)`. -/
def Obligations.AssembleIsBigEndian : Prop :=
  ∀ (b : List Byte) (w : Nat), b.length = w →
    assemble b w = ∑ i ∈ Finset.range w, (b.getD i 0#8).toNat * 2 ^ (8 * (w - 1 - i)) ∧
    assemble b w < 2 ^ (8 * w)

/-- R55: the bytes of a register value, and that splitting and assembling are inverse both ways. -/
def Obligations.SplitAndAssembleAreInverse : Prop :=
  (∀ r w i : Nat, i < w → (split r w).getD i 0#8 = BitVec.ofNat 8 (r / 2 ^ (8 * (w - 1 - i)) % 256)) ∧
  (∀ r w : Nat, (split r w).length = w) ∧
  (∀ r w : Nat, r < 2 ^ (8 * w) → assemble (split r w) w = r) ∧
  (∀ (b : List Byte) (w : Nat), b.length = w → split (assemble b w) w = b)

/-! ### The descriptor table (R75, R130 to R138) -/

/-- R130: in every state, entries 0 to 9 are the rows of the register map: their masks and their descriptor words. -/
def Obligations.FixedEntriesAreTheRegisterMap : Prop :=
  ∀ s : State,
    ((List.range 10).map fun i => (s.dt i).valid) = List.replicate 10 true ∧
    ((List.range 10).map fun i => (s.dt i).addr.toNat) = [1, 1, 1, 1, 1, 1, 1, 1, 1, 0] ∧
    ((List.range 10).map fun i => (s.dt i).width.toNat) = List.replicate 10 2 ∧
    ((List.range 10).map fun i => (s.dt i).lb.toNat) = [15, 12, 9, 8, 5, 4, 3, 2, 0, 4] ∧
    ((List.range 10).map fun i => (s.dt i).nbits.toNat) = [1, 3, 3, 1, 3, 1, 1, 1, 2, 12] ∧
    ((List.range 10).map fun i => (s.dt i).signed) = List.replicate 9 false ++ [true] ∧
    ((List.range 10).map fun i => (s.dt i).ro) = List.replicate 9 false ++ [s.cfg.convRo] ∧
    ((List.range 10).map fun i => (s.dt i).mask) =
      [0x8000, 0x7000, 0x0E00, 0x0100, 0x00E0, 0x0010, 0x0008, 0x0004, 0x0003, 0xFFF0] ∧
    ((List.range 10).map fun i => (s.dt i).pack) =
      [0x010F8201#32, 0x030C8201#32, 0x03098201#32, 0x01088201#32, 0x03058201#32, 0x01048201#32, 0x01038201#32,
        0x01028201#32, 0x02008201#32, if s.cfg.convRo then 0x0C04B200#32 else 0x0C049200#32]

/-- R132: every fixed entry passes the construction checks in every legal instance; the nine configuration masks are
disjoint and name every bit of the register; no fixed entry names bits 3:0 of the conversion register. -/
def Obligations.FixedMapIsConsistent : Prop :=
  ∀ s : State, s.cfg.legal = true →
    (∀ i < 10, (s.dt i).constructOk s.cfg = true) ∧
    ((List.range 10).map fun i => (s.dt i).lb.toNat + (s.dt i).nbits.toNat) = [16, 15, 12, 9, 8, 5, 4, 3, 2, 16] ∧
    (∀ i < 9, ∀ j < 9, i ≠ j → (s.dt i).mask &&& (s.dt j).mask = 0) ∧
    ((List.range 9).foldl (fun m i => m ||| (s.dt i).mask) 0) = 0xFFFF ∧
    (∀ i < 10, (s.dt i).addr = 0x00#8 → (s.dt i).mask &&& 0xF = 0)

/-- Fixed entries are constant: no step of any agent changes one. -/
def Obligations.NoStepChangesAFixedEntry : Prop :=
  ∀ s t : State, step s = .next t → t.cfg = s.cfg ∧ ∀ i < 10, t.dt i = s.dt i

/-- R138: the descriptor word's value, with bit 14 zero; and DEFINE's reading and QUERY's writing of it agree. -/
def Obligations.PackIsTheStatedLayout : Prop :=
  ∀ e : Desc,
    e.pack.toNat = e.nbits.toNat * 2 ^ 24 + e.lb.toNat * 2 ^ 16 + e.valid.toNat * 2 ^ 15 + e.ro.toNat * 2 ^ 13
      + e.signed.toNat * 2 ^ 12 + e.width.toNat * 2 ^ 8 + e.addr.toNat ∧
    e.pack.getLsbD 14 = false ∧ Desc.ofWord e.pack = { e with valid := true } ∧
    ∀ v : Word, (Desc.ofWord v).pack = (v &&& 0xFFFF3FFF#32) ||| 0x00008000#32

/-- R135: the construction checks, and that with at least one bit the last one is the source's bound on the mask. -/
def Obligations.ConstructionChecksAreTheStatedOnes : Prop :=
  ∀ (c : Config) (e : Desc),
    (e.constructOk c = true ↔
      1 ≤ e.nbits.toNat ∧ 1 ≤ e.width.toNat ∧ e.width.toNat ≤ c.rwMax ∧
      e.lb.toNat + e.nbits.toNat ≤ 8 * e.width.toNat) ∧
    (e.constructOk c = true ↔
      1 ≤ e.nbits.toNat ∧ 1 ≤ e.width.toNat ∧ e.width.toNat ≤ c.rwMax ∧ e.mask < 2 ^ (8 * e.width.toNat))

/-! ### The commands (R107, R108, R134, R136, R137) -/

/-- R107: READ, in every case of its execute step and its answer step, with everything it leaves unchanged. -/
def Obligations.ReadFollowsItsRule : Prop :=
  ∀ (s : State) (i n : Nat), n = (s.dt i).nbits.toNat →
    (i < 256 → (encode (.read i)).toNat = i * 256 + 1) ∧
    (s.fsm = .pending → s.cfg.nDesc ≤ i →
      exec (.read i) s = .next { s with err := .descRange, fsm := .idle, treq := none, trsp := none }) ∧
    (s.fsm = .pending → i < s.cfg.nDesc → (s.dt i).valid = false →
      exec (.read i) s = .next { s with err := .descInvalid, fsm := .idle, treq := none, trsp := none }) ∧
    (s.fsm = .pending → i < s.cfg.nDesc → (s.dt i).valid = true →
      exec (.read i) s = .next
        { s with
          treq := some (.read s.latch.dev (s.dt i).addr (s.dt i).width.toNat)
          hist := s.hist ++ [.issue (.read s.latch.dev (s.dt i).addr (s.dt i).width.toNat)]
          fsm := .rdWait }) ∧
    (s.fsm = .rdWait → s.trsp = some .fail →
      exec (.read i) s = .next { s with err := .transport, fsm := .idle, treq := none, trsp := none }) ∧
    (∀ b raw, s.fsm = .rdWait → s.trsp = some (.readOk b) →
      raw = (assemble b (s.dt i).width.toNat &&& (2 ^ n - 1) * 2 ^ (s.dt i).lb.toNat) / 2 ^ (s.dt i).lb.toNat →
      exec (.read i) s = .next
        { s with
          trsp := none
          rdata :=
            if (s.dt i).signed = true ∧ raw.testBit (n - 1) = true then BitVec.ofInt 32 ((raw : Int) - 2 ^ n)
            else BitVec.ofNat 32 raw
          rsigned := (s.dt i).signed
          err := .noError
          fsm := .idle })

/-- R108: WRITE, in every case of its execute step, its read-answer step and its write-answer step, with everything it
leaves unchanged. -/
def Obligations.WriteFollowsItsRule : Prop :=
  ∀ (s : State) (i : Nat),
    (i < 256 → (encode (.write i)).toNat = i * 256 + 2) ∧
    (s.fsm = .pending → s.cfg.nDesc ≤ i →
      exec (.write i) s = .next { s with err := .descRange, fsm := .idle, treq := none, trsp := none }) ∧
    (s.fsm = .pending → i < s.cfg.nDesc → (s.dt i).valid = false →
      exec (.write i) s = .next { s with err := .descInvalid, fsm := .idle, treq := none, trsp := none }) ∧
    (s.fsm = .pending → i < s.cfg.nDesc → (s.dt i).valid = true → (s.dt i).ro = true →
      exec (.write i) s = .next { s with err := .unsupported, fsm := .idle, treq := none, trsp := none }) ∧
    (s.fsm = .pending → i < s.cfg.nDesc → (s.dt i).valid = true → (s.dt i).ro = false →
      (s.dt i).fits s.latch.wdata = false →
      exec (.write i) s = .next { s with err := .invalidArgument, fsm := .idle, treq := none, trsp := none }) ∧
    (s.fsm = .pending → i < s.cfg.nDesc → (s.dt i).valid = true → (s.dt i).ro = false →
      (s.dt i).fits s.latch.wdata = true →
      exec (.write i) s = .next
        { s with
          treq := some (.read s.latch.dev (s.dt i).addr (s.dt i).width.toNat)
          hist := s.hist ++ [.issue (.read s.latch.dev (s.dt i).addr (s.dt i).width.toNat)]
          fsm := .rdWait }) ∧
    (s.fsm = .rdWait ∨ s.fsm = .wrWait → s.trsp = some .fail →
      exec (.write i) s = .next { s with err := .transport, fsm := .idle, treq := none, trsp := none }) ∧
    (∀ b r', s.fsm = .rdWait → s.trsp = some (.readOk b) →
      r' = (s.dt i).inject (assemble b (s.dt i).width.toNat) s.latch.wdata →
      exec (.write i) s = .next
        { s with
          trsp := none
          treq := some (.write s.latch.dev (s.dt i).addr (split r' (s.dt i).width.toNat))
          hist := s.hist ++ [.issue (.write s.latch.dev (s.dt i).addr (split r' (s.dt i).width.toNat))]
          fsm := .wrWait }) ∧
    (s.fsm = .wrWait → s.trsp = some .writeOk →
      exec (.write i) s = .next { s with trsp := none, err := .noError, fsm := .idle })

/-- R134: DEFINE, in every case, with the stored entry's fields read off the descriptor word as numbers; every other entry
and everything else is unchanged. -/
def Obligations.DefineFollowsItsRule : Prop :=
  ∀ (s : State) (i D : Nat), s.Inv → s.fsm = .pending → D = s.latch.desc.toNat →
    (i < 256 → (encode (.define i)).toNat = i * 256 + 3) ∧
    (s.cfg.nDesc ≤ i → exec (.define i) s = .next { s with err := .descRange, fsm := .idle }) ∧
    (i < 10 → exec (.define i) s = .next { s with err := .descFixed, fsm := .idle }) ∧
    (10 ≤ i → i < s.cfg.nDesc →
      ¬(1 ≤ D / 2 ^ 24 ∧ 1 ≤ D / 2 ^ 8 % 16 ∧ D / 2 ^ 8 % 16 ≤ s.cfg.rwMax ∧
        D / 2 ^ 16 % 256 + D / 2 ^ 24 ≤ 8 * (D / 2 ^ 8 % 16)) →
      exec (.define i) s = .next { s with err := .construction, fsm := .idle }) ∧
    (10 ≤ i → i < s.cfg.nDesc → 1 ≤ D / 2 ^ 24 → 1 ≤ D / 2 ^ 8 % 16 → D / 2 ^ 8 % 16 ≤ s.cfg.rwMax →
      D / 2 ^ 16 % 256 + D / 2 ^ 24 ≤ 8 * (D / 2 ^ 8 % 16) →
      ∃ t, exec (.define i) s = .next t ∧ t = { s with prog := t.prog, err := .noError, fsm := .idle } ∧
        (t.dt i).valid = true ∧ (t.dt i).addr.toNat = D % 256 ∧ (t.dt i).width.toNat = D / 2 ^ 8 % 16 ∧
        (t.dt i).signed = D.testBit 12 ∧ (t.dt i).ro = D.testBit 13 ∧
        (t.dt i).lb.toNat = D / 2 ^ 16 % 256 ∧ (t.dt i).nbits.toNat = D / 2 ^ 24 ∧
        ∀ j, j ≠ i → t.dt j = s.dt j)

/-- R136: UNDEFINE, in every case; every other entry and everything else is unchanged. -/
def Obligations.UndefineFollowsItsRule : Prop :=
  ∀ (s : State) (i : Nat), s.Inv → s.fsm = .pending →
    (i < 256 → (encode (.undefine i)).toNat = i * 256 + 4) ∧
    (s.cfg.nDesc ≤ i → exec (.undefine i) s = .next { s with err := .descRange, fsm := .idle }) ∧
    (i < 10 → exec (.undefine i) s = .next { s with err := .descFixed, fsm := .idle }) ∧
    (10 ≤ i → i < s.cfg.nDesc →
      ∃ t, exec (.undefine i) s = .next t ∧ t = { s with prog := t.prog, err := .noError, fsm := .idle } ∧
        t.dt i =
          { valid := false, addr := 0, width := 0, signed := false, ro := false, lb := 0, nbits := 0 } ∧
        ∀ j, j ≠ i → t.dt j = s.dt j)

/-- R137: QUERY, in every case, with the descriptor word as a number; an invalid entry is no error, and nothing but
`DESC_DATA`, ERR and the Engine state changes. -/
def Obligations.QueryFollowsItsRule : Prop :=
  ∀ (s : State) (i : Nat) (e : Desc), s.Inv → s.fsm = .pending → e = s.dt i →
    (i < 256 → (encode (.query i)).toNat = i * 256 + 5) ∧
    (s.cfg.nDesc ≤ i → exec (.query i) s = .next { s with err := .descRange, fsm := .idle }) ∧
    (i < s.cfg.nDesc → ∃ v : Word,
      exec (.query i) s = .next { s with descData := v, err := .noError, fsm := .idle } ∧
      v.toNat = e.nbits.toNat * 2 ^ 24 + e.lb.toNat * 2 ^ 16 + e.valid.toNat * 2 ^ 15 + e.ro.toNat * 2 ^ 13
        + e.signed.toNat * 2 ^ 12 + e.width.toNat * 2 ^ 8 + e.addr.toNat ∧
      (e.valid = false → v.toNat = 0))

/-- The frame of every command: what no Engine step of it touches, and which command alone writes what. -/
def Obligations.CommandsWriteOnlyTheirOwnState : Prop :=
  ∀ (s t : State) (i : Instr), exec i s = .next t →
    t.cmd = s.cmd ∧ t.ovr = s.ovr ∧ t.devaddr = s.devaddr ∧ t.wdata = s.wdata ∧ t.latch = s.latch ∧ t.cfg = s.cfg ∧
    t.turns = s.turns ∧ t.hostResult = s.hostResult ∧
    (t.rdata ≠ s.rdata ∨ t.rsigned ≠ s.rsigned → ∃ k, i = .read k) ∧
    (t.descData ≠ s.descData → ∃ k, i = .query k) ∧
    (t.prog ≠ s.prog → ∃ k, 10 ≤ k ∧ k < s.cfg.nDesc ∧ (i = .define k ∨ i = .undefine k) ∧
      ∀ j, j ≠ k → t.dt j = s.dt j)

/-- The bus traffic of every command: at most one issue a step; a read request from a READ or WRITE in PENDING; a write
request from a WRITE on its read answer; each of exactly the descriptor's width, at the latched device address and the
descriptor's register address; nothing from the descriptor commands. -/
def Obligations.CommandsIssueOnlyTheirOwnTransactions : Prop :=
  ∀ (s t : State) (i : Instr), exec i s = .next t →
    t.hist = s.hist ∨
    (t.hist = s.hist ++ [.issue (.read s.latch.dev (s.dt i.idx).addr (s.dt i.idx).width.toNat)] ∧
      s.fsm = .pending ∧ t.fsm = .rdWait ∧ (i = .read i.idx ∨ i = .write i.idx)) ∨
    (∃ b rb, t.hist = s.hist ++ [.issue (.write s.latch.dev (s.dt i.idx).addr b)] ∧
      b.length = (s.dt i.idx).width.toNat ∧ s.fsm = .rdWait ∧ t.fsm = .wrWait ∧ i = .write i.idx ∧
      s.trsp = some (.readOk rb))

/-! ### Errors (R170 to R178) -/

/-- The Engine step that ends a command with an error changes nothing but ERR, the Engine state and the channel, whatever
the command and the error. The whole command, from its acceptance, is `Obligations.FailedCommandsArePrecise`. -/
def Obligations.StepThatEndsWithAnErrorChangesNothingElse : Prop :=
  ∀ (s t : State) (i : Instr), exec i s = .next t → s.fsm ≠ .idle → t.fsm = .idle → t.err ≠ .noError →
    t = { s with err := t.err, fsm := .idle, treq := none, trsp := none }

/-- R173: the error reported is the first that applies, in the stated order, with no transaction after a failed check;
and a `Fail` answer ends the command at once with TRANSPORT. -/
def Obligations.FirstApplicableErrorIsReported : Prop :=
  (∀ (s : State) (ts : List Turn) (w op i : Nat), s.Inv → s.fsm = .pending → s.turns = .engine :: ts →
    w = s.latch.word.toNat → op = w % 16 → i = w / 256 % 256 →
    ∃ t, step s = .next t ∧
      (if w / 16 % 16 ≠ 0 ∨ w / 65536 ≠ 0 ∨ op = 0 ∨ 6 ≤ op then
        t = { s with turns := ts, err := .illegalCmd, fsm := .idle }
      else if s.cfg.nDesc ≤ i then t = { s with turns := ts, err := .descRange, fsm := .idle }
      else if (op = 3 ∨ op = 4) ∧ i < 10 then t = { s with turns := ts, err := .descFixed, fsm := .idle }
      else if (op = 1 ∨ op = 2) ∧ (s.dt i).valid = false then
        t = { s with turns := ts, err := .descInvalid, fsm := .idle }
      else if op = 2 ∧ (s.dt i).ro = true then t = { s with turns := ts, err := .unsupported, fsm := .idle }
      else if op = 2 ∧ (s.dt i).fits s.latch.wdata = false then
        t = { s with turns := ts, err := .invalidArgument, fsm := .idle }
      else if op = 3 ∧ (Desc.ofWord s.latch.desc).constructOk s.cfg = false then
        t = { s with turns := ts, err := .construction, fsm := .idle }
      else if op = 1 ∨ op = 2 then t.fsm = .rdWait ∧ t.err = s.err
      else t.fsm = .idle ∧ t.err = .noError ∧ t.hist = s.hist)) ∧
  (∀ (s : State) (ts : List Turn), s.Inv → s.fsm = .rdWait ∨ s.fsm = .wrWait → s.trsp = some .fail →
    s.turns = .engine :: ts → step s = .next { s with turns := ts, trsp := none, err := .transport, fsm := .idle })

/-- The error codes of the table, and which command may write which. -/
def Obligations.CommandsRaiseOnlyTheirOwnErrors : Prop :=
  ([Err.noError, .construction, .transport, .invalidArgument, .unsupported, .descRange, .descInvalid, .descFixed,
      .illegalCmd].map fun e => e.code.toNat) = [0, 1, 2, 3, 4, 5, 6, 7, 8] ∧
  ∀ (s t : State) (i : Instr), exec i s = .next t → t.err ≠ s.err →
    t.err = .noError ∨ t.err = .descRange ∨
    (∃ k, i = .read k ∧ (t.err = .descInvalid ∨ t.err = .transport)) ∨
    (∃ k, i = .write k ∧
      (t.err = .descInvalid ∨ t.err = .unsupported ∨ t.err = .invalidArgument ∨ t.err = .transport)) ∨
    (∃ k, i = .define k ∧ (t.err = .descFixed ∨ t.err = .construction)) ∨
    (∃ k, i = .undefine k ∧ t.err = .descFixed)

/-! ### The transport channel, reset, hang, progress (R36, R52, R160, R181, R190) -/

/-- R52, the Transport's step: an admissible answer to the outstanding request moves into the answer slot, empties the
request slot and is recorded; the admissible answers are the stated ones. What an inadmissible answer does is the
model's choice (log 4): it is refused. -/
def Obligations.TransportAnswersTheOutstandingRequest : Prop :=
  (∀ (s : State) (req : Req) (rsp : Rsp) (ts : List Turn), s.turns = .transport rsp :: ts → s.treq = some req →
    s.trsp = none →
    (req.admits rsp = true → step s = .next
      { s with turns := ts, treq := none, trsp := some rsp, hist := s.hist ++ [.answer rsp] }) ∧
    (req.admits rsp = false → step s = .refused .inadmissibleAnswer)) ∧
  (∀ (dev : DevAddr) (reg : RegAddr) (w : Nat) (rsp : Rsp),
    (Req.read dev reg w).admits rsp = true ↔ rsp = .fail ∨ ∃ b, rsp = .readOk b ∧ b.length = w) ∧
  (∀ (dev : DevAddr) (reg : RegAddr) (b : List Byte) (rsp : Rsp),
    (Req.write dev reg b).admits rsp = true ↔ rsp = .fail ∨ rsp = .writeOk)

/-- R191: the Reset step, from any state, leaves every piece of state at its reset value, the fixed entries as they are,
and the history with `Reset` appended. -/
def Obligations.ResetSetsEveryPieceOfState : Prop :=
  ∀ (s : State) (ts : List Turn), s.turns = .reset :: ts →
    ∃ t, step s = .next t ∧ t.cmd.toNat = 0 ∧ t.status.toNat = 0 ∧ t.devaddr.toNat = 0x48 ∧ t.descData.toNat = 0 ∧
      t.wdata.toNat = 0 ∧ t.rdata.toNat = 0 ∧ t.fsm = .idle ∧ t.err = .noError ∧ t.ovr = false ∧ t.rsigned = false ∧
      t.latch = { word := 0, dev := 0, wdata := 0, desc := 0 } ∧ t.treq = none ∧ t.trsp = none ∧
      t.hist = s.hist ++ [.reset] ∧ paramWord t.cfg = paramWord s.cfg ∧
      (∀ i < 10, t.dt i = s.dt i) ∧ t.prog.length = s.cfg.nDesc - 10 ∧
      ∀ i, 10 ≤ i →
        t.dt i = { valid := false, addr := 0, width := 0, signed := false, ro := false, lb := 0, nbits := 0 }

/-- R181: a Transport that never answers hangs the block: under any turns of Host and Engine, for any number of steps, the
command stays in progress; `CMD` writes are dropped with OVR set; only Reset changes the Engine state. -/
def Obligations.UnansweredTransactionHangsTheBlock : Prop :=
  (∀ (n : Nat) (s : State), s.fsm = .rdWait ∨ s.fsm = .wrWait → s.trsp = none →
    (∀ u ∈ s.turns, u = .engine ∨ ∃ a, u = .host a) →
    ∃ t : State, Host.Core.run Sys2Proof.core n s = .next t ∧ t.fsm = s.fsm ∧ t.treq = s.treq ∧ t.trsp = none ∧
      t.latch = s.latch ∧ t.cmd = s.cmd ∧ t.hist = s.hist ∧ t.status.getLsbD 0 = true) ∧
  (∀ (s : State) (v : Word) (ts : List Turn), s.fsm = .rdWait ∨ s.fsm = .wrWait →
    s.turns = .host (.write 0x00#8 v) :: ts → step s = .next { s with turns := ts, ovr := true }) ∧
  (∀ s t : State, s.fsm = .rdWait ∨ s.fsm = .wrWait → s.trsp = none → step s = .next t → t.fsm ≠ s.fsm →
    t.fsm = .idle ∧ ∃ ts, s.turns = .reset :: ts)

/-- Progress: where the Engine has a step (a command pending, or an answer there) and the turn, listed or left to it
(with no turn listed, the model's choice, log 2), the step is not refused and brings the command nearer its end; no step
is ever retried. -/
def Obligations.EnabledEngineStepMakesProgress : Prop :=
  ∀ s : State, s.Inv → (s.turns = [] ∨ ∃ ts, s.turns = .engine :: ts) → s.fsm = .pending ∨ s.trsp ≠ none →
    ∃ t, step s = .next t ∧ t.fsm.phase < s.fsm.phase ∧ (t.fsm = .idle ∨ t.treq ≠ none)

/-! ### Invariants (R33, R36, R37, R62, R63) -/

/-- The reset state of every legal instance, and `State.reset` itself, satisfy the invariant and have a well-formed
history. -/
def Obligations.ResetStateSatisfiesTheInvariant : Prop :=
  (∀ c : Config, c.legal = true → (State.resetOf c).Inv ∧ (State.resetOf c).histOk) ∧
  State.reset.Inv ∧ State.reset.histOk ∧ State.reset.devaddr.toNat = 0x48 ∧ State.reset.status.toNat = 0

/-- Every step of every agent keeps the invariant. -/
def Obligations.EveryStepKeepsTheInvariant : Prop :=
  ∀ s t : State, s.Inv → step s = .next t → t.Inv

/-- Every step keeps the history one in which transactions are issued and answered one at a time, in order. -/
def Obligations.EveryStepKeepsTheHistoryInOrder : Prop :=
  ∀ s t : State, s.Inv → s.histOk → step s = .next t → t.histOk

/-- R33: in every state a run reaches, under any turns of the agents, every valid entry of the table passes the
construction checks. -/
def Obligations.EveryValidEntryIsWellFormed : Prop :=
  ∀ s : State, Reached s → ∀ i < s.cfg.nDesc, (s.dt i).valid = true →
    1 ≤ (s.dt i).nbits.toNat ∧ 1 ≤ (s.dt i).width.toNat ∧ (s.dt i).width.toNat ≤ s.cfg.rwMax ∧
    (s.dt i).lb.toNat + (s.dt i).nbits.toNat ≤ 8 * (s.dt i).width.toNat

/-- R36: in every state a run reaches, at most one slot of the channel holds something, and only while the Engine waits;
at reset both are empty. -/
def Obligations.ChannelHoldsAtMostOneTransaction : Prop :=
  (∀ s : State, Reached s → (s.treq = none ∨ s.trsp = none) ∧
    (s.treq ≠ none ∨ s.trsp ≠ none → s.fsm = .rdWait ∨ s.fsm = .wrWait)) ∧
  State.reset.treq = none ∧ State.reset.trsp = none

/-- BUSY = 0 is the completion point: in every state a run reaches, a `STATUS` read with BUSY = 0 means the block is
quiescent and every issued transaction was answered, or abandoned by a Reset (R190). -/
def Obligations.IdleMeansEveryTransactionIsAnsweredOrAbandoned : Prop :=
  ∀ s : State, Reached s → s.status.getLsbD 0 = false →
    s.quiescent ∧ histOutstanding s.hist none = some none

/-! ### The reference transport and the round trip (R67, R110) -/

/-- The reference transport answers every request of the block admissibly, by the stated rule, and keeps its device
registers in canonical form. -/
def Obligations.ReferenceTransportServesAsStated : Prop :=
  ∀ (m : Memory) (dev : DevAddr) (reg : RegAddr), m.wf = true →
    (∀ w, ∃ b, m.serve (.read dev reg w) = (.readOk b, m) ∧ b.length = w ∧
      assemble b w = (m.read dev reg).toNat % 2 ^ (8 * w)) ∧
    (∀ b : List Byte, b.length ≤ 4 → ∃ m', m.serve (.write dev reg b) = (.writeOk, m') ∧ m'.wf = true ∧
      (m'.read dev reg).toNat = assemble b b.length ∧
      ∀ dev' reg', dev' ≠ dev ∨ reg' ≠ reg → m'.read dev' reg' = m.read dev' reg')

/-- R110: under the reference transport, a successful WRITE of a fitting value and then a READ of the same descriptor: the
register holds the injected value, every bit outside the mask is as it was, a second descriptor over untouched bits
reads what it read before, every other register is untouched, and `RDATA` is the value written, or its sign-extended
pattern. -/
def Obligations.WriteThenReadRoundTrips : Prop :=
  ∀ (s : State) (m : Memory) (i : Nat) (d : Desc) (v : Word) (V0 : Nat),
    s.Inv → s.fsm = .idle → m.wf = true → i < s.cfg.nDesc → (s.dt i).valid = true → (s.dt i).ro = false →
    d = s.dt i → v = s.wdata → d.fits v = true →
    V0 = (m.read s.devaddr d.addr).toNat % 2 ^ (8 * d.width.toNat) →
    ∃ s1 m1 s2,
      refCommand (encode (.write i)) (s, m) = .next (s1, m1) ∧ s1.quiescent ∧ s1.err = .noError ∧
      refCommand (encode (.read i)) (s1, m1) = .next (s2, m1) ∧ s2.quiescent ∧ s2.err = .noError ∧
      (m1.read s.devaddr d.addr).toNat = d.inject V0 v ∧
      (∀ j, d.mask.testBit j = false → (d.inject V0 v).testBit j = V0.testBit j) ∧
      (∀ e : Desc, e.mask &&& d.mask = 0 → e.extract (d.inject V0 v) = e.extract V0) ∧
      (∀ dev reg, dev ≠ s.devaddr ∨ reg ≠ d.addr → m1.read dev reg = m.read dev reg) ∧
      (d.signed = false → s2.rdata = v) ∧
      (d.signed = true → v.toNat < 2 ^ (d.nbits.toNat - 1) ∨ 2 ^ 32 - 2 ^ (d.nbits.toNat - 1) ≤ v.toNat →
        s2.rdata = v) ∧
      (d.signed = true → 2 ^ (d.nbits.toNat - 1) ≤ v.toNat → v.toNat < 2 ^ d.nbits.toNat →
        s2.rdata.toNat = v.toNat + 2 ^ 32 - 2 ^ d.nbits.toNat)

/-! ### Host programs (R79, R80) -/

/-- The pseudo-instruction `fdefine` stages the descriptor word that DEFINE reads as its arguments, and the field aliases
name the fixed entries in the order of the map. -/
def Obligations.HostProgramSyntaxNamesWhatTheBlockReads : Prop :=
  (∀ (i : Nat) (addr : RegAddr) (width : BitVec 4) (lb nbits : BitVec 8) (sg ro : Bool), ∃ v : Word,
    (Pseudo.fdefine i addr width lb nbits sg ro).expand = [.wr .descData v, .wr .cmd (encode (.define i)), .poll] ∧
    Desc.ofWord v =
      { valid := true, addr := addr, width := width, signed := sg, ro := ro, lb := lb, nbits := nbits }) ∧
  ([FieldAlias.os, .mux, .pga, .mode, .dr, .compMode, .compPol, .compLat, .compQue, .conv].map FieldAlias.index) =
    List.range 10

/-! ### Whole commands and endless runs (R160, R172) -/

/-- R172, of a whole command: a command accepted by the block at rest that ends with an error, with no Reset meanwhile,
leaves the state as it was before its acceptance, but for ERR, OVR, `CMD`, the latch, the history and the registers the
Host itself wrote meanwhile (and the model's own fields, the turns and the last value read); and what `raise` does. -/
def Obligations.FailedCommandsArePrecise : Prop :=
  (∀ (s : State) (e : Err), s.raise e = { s with err := e, fsm := .idle, treq := none, trsp := none }) ∧
  ∀ (n : Nat) (s t : State) (off : BitVec 8) (v : Word) (ts : List Turn),
    s.Inv → s.fsm = .idle → s.turns = .host (.write off v) :: ts → off.toNat / 4 = 0 →
    Host.Core.run Sys2Proof.core (n + 1) s = .next t →
    (∀ k u, 0 < k → k < n + 1 → Host.Core.run Sys2Proof.core k s = .next u → u.fsm ≠ .idle) →
    t.fsm = .idle → t.err ≠ .noError → .reset ∉ ts.take n →
    t = { s with
          cmd := v
          latch := { word := v, dev := s.devaddr, wdata := s.wdata, desc := s.descData }
          err := t.err
          ovr := t.ovr
          hist := t.hist
          devaddr := t.devaddr
          descData := t.descData
          wdata := t.wdata
          turns := t.turns
          hostResult := t.hostResult } ∧
    ((∀ u ∈ ts.take n, ¬u.writesReg 0 ∧ ¬u.writesReg 1) → t.ovr = s.ovr) ∧
    ((∀ u ∈ ts.take n, ¬u.writesReg 2) → t.devaddr = s.devaddr) ∧
    ((∀ u ∈ ts.take n, ¬u.writesReg 3) → t.descData = s.descData) ∧
    ((∀ u ∈ ts.take n, ¬u.writesReg 4) → t.wdata = s.wdata)

/-- R160, under any endless schedule, the Host polling for ever included: while the Engine's steps are weakly fair, a
command in progress whose transactions are all answered ends; one with none to be answered ends so too. -/
def Obligations.FairEndlessRunsEndTheirCommands : Prop :=
  ∀ (sched : Nat → Turn) (run : Nat → State) (n : Nat), EndlessRun sched run → WeaklyFair sched run → (run 0).Inv →
    (run n).fsm ≠ .idle → (∀ m ≥ n, (run m).treq ≠ none → ∃ k ≥ m, (run k).treq = none) →
    ∃ m > n, (run m).fsm = .idle

/-- R160, R53, R162: neither the Transport nor the Host is fair. From a state that waits for an answer, every endless
schedule of Host and Engine turns is a weakly fair run, in which the command never ends. The second clause, an endless run
of Engine turns that leaves the block at rest as it is, is the model's choice (log 3): R159 gives the Engine no step in
IDLE, and the model lets such a turn pass. -/
def Obligations.NeitherTransportNorHostIsFair : Prop :=
  (∀ (s : State) (sched : Nat → Turn), s.fsm = .rdWait ∨ s.fsm = .wrWait → s.trsp = none →
    (∀ n, sched n = .engine ∨ ∃ a, sched n = .host a) →
    ∃ run : Nat → State, run 0 = s ∧ EndlessRun sched run ∧ WeaklyFair sched run ∧
      ∀ n, (run n).fsm = s.fsm ∧ (run n).treq = s.treq ∧ (run n).hist = s.hist ∧ (run n).status.getLsbD 0 = true) ∧
  (∀ s : State, s.quiescent → EndlessRun (fun _ => .engine) (fun _ => s) ∧ WeaklyFair (fun _ => .engine) (fun _ => s))

/-- An endless run is a run of the machine: wherever the schedule's first turns are those the state lists, and the
Engine's where the list is at its end (log 2), the machine's steps are the endless run's. -/
def Obligations.EndlessRunsAreRunsOfTheMachine : Prop :=
  ∀ (sched : Nat → Turn) (run : Nat → State) (n : Nat) (l : List Turn), EndlessRun sched run →
    (∀ k < n, sched k = l.getD k .engine) →
    Host.Core.run Sys2Proof.core n { run 0 with turns := l } = .next { run n with turns := l.drop n }

/-! ### The reference transport where a vector names requests that fail (R67) -/

/-- R67's exception, "unless a vector says so": a request the vector names is answered `Fail`, admissibly and with every
device register kept, and every other request by the rule. That it fails at every occurrence is the model's choice (log
11). A READ whose read fails, a WRITE whose read fails, and a WRITE
whose write fails then end with TRANSPORT, with the stated events and every device register kept (the vectors R-8, W-E8
and W-E9). -/
def Obligations.NamedRequestsFailUnderTheReferenceTransport : Prop :=
  (∀ (fails : List Req) (m : Memory) (req : Req),
    (req ∈ fails → m.serveFailing fails req = (.fail, m) ∧ req.admits .fail = true) ∧
    (req ∉ fails → m.serveFailing fails req = m.serve req)) ∧
  ∀ (s : State) (m : Memory) (i V0 : Nat) (d : Desc) (fails : List Req) (rd wr : Req) (r : Nat),
    s.Inv → s.fsm = .idle → i < s.cfg.nDesc → d = s.dt i → d.valid = true →
    V0 = (m.read s.devaddr d.addr).toNat % 2 ^ (8 * d.width.toNat) →
    r = d.inject V0 s.wdata →
    rd = .read s.devaddr d.addr d.width.toNat → wr = .write s.devaddr d.addr (split r d.width.toNat) →
    (rd ∈ fails → ∃ t, refCommandFailing fails (encode (.read i)) (s, m) = .next (t, m) ∧ t.quiescent ∧
      t.err = .transport ∧ t.rdata = s.rdata ∧ t.rsigned = s.rsigned ∧
      t.hist = s.hist ++ [.issue rd, .answer .fail]) ∧
    (d.ro = false → d.fits s.wdata = true → rd ∈ fails →
      ∃ t, refCommandFailing fails (encode (.write i)) (s, m) = .next (t, m) ∧ t.quiescent ∧
      t.err = .transport ∧ t.hist = s.hist ++ [.issue rd, .answer .fail]) ∧
    (d.ro = false → d.fits s.wdata = true → rd ∉ fails → wr ∈ fails →
      ∃ t, refCommandFailing fails (encode (.write i)) (s, m) = .next (t, m) ∧ t.quiescent ∧ t.err = .transport ∧
      t.hist = s.hist ++
        [.issue rd, .answer (.readOk (split V0 d.width.toNat)), .issue wr, .answer .fail])

/-! ### The end of a command and of a run (R161) -/

/-- R160 with R161, under any endless schedule with weakly fair Engine steps whose requests are all answered from the step
`n` on: a command the step `n` accepts ends; and once the Host has taken its last step before `n` the run ends, with the run
of every host program whose statements made the accesses so far. That the Host's last step is the last Host turn is log
26. -/
def Obligations.FairAnsweredRunsEnd : Prop :=
  ∀ (sched : Nat → Turn) (run : Nat → State) (n : Nat), EndlessRun sched run → WeaklyFair sched run → (run 0).Inv →
    (∀ m ≥ n, (run m).treq ≠ none → ∃ k ≥ m, (run k).treq = none) →
    (AcceptedAt sched run n → ∃ m, CommandEnded sched run n m) ∧
    (HostDone sched n → ∃ m ≥ n, RunEnded sched run m ∧
      ∀ prog : List HostStmt, stmtsSee prog (hostSees sched run n) = true → ProgramEnded prog sched run m)

/-- A run that has ended stays so, and nothing changes any more unless the platform resets the block. That the Engine's
turns at rest pass and change nothing is the model's choice (log 3). -/
def Obligations.EndedRunsStayEnded : Prop :=
  ∀ (sched : Nat → Turn) (run : Nat → State) (n m : Nat), EndlessRun sched run → RunEnded sched run n → n ≤ m →
    RunEnded sched run m ∧ ((∀ k, n ≤ k → k < m → sched k ≠ .reset) → run m = run n)

/-- A host program that polls after its last `CMD` write, as every pseudo-instruction with a command does (R79), has ended
as soon as the Host has made its last access: a `poll` ends in IDLE, and only a `CMD` write leaves it. What accesses a
statement makes is log 23. -/
def Obligations.ProgramsThatPollLastEndWithTheirLastAccess : Prop :=
  ∀ (sched : Nat → Turn) (run : Nat → State) (n : Nat) (p q : List HostStmt), EndlessRun sched run → (run 0).Inv →
    (∀ v : Word, HostStmt.wr .cmd v ∉ q) → stmtsSee (p ++ .poll :: q) (hostSees sched run n) = true →
    (run n).quiescent ∧ (HostDone sched n → ProgramEnded (p ++ .poll :: q) sched run n)
end

