-- ==== Sys2Proof/Laws/Decode.lean ====
section
/-! SUPPORT. The fields of the command word, its encoding, and a concatenation of bit vectors, as numbers. -/

namespace Sys2Proof

/-- A concatenation of bit vectors as a number (R10). -/
theorem append_toNat {m n : Nat} (x : BitVec m) (y : BitVec n) : (x ++ y).toNat = x.toNat * 2 ^ n + y.toNat := by
  rw [BitVec.toNat_append, Nat.shiftLeft_eq, Nat.mul_comm, ← Nat.two_pow_add_eq_or_of_lt y.isLt]

theorem cmdOp_toNat (w : Word) : (cmdOp w).toNat = w.toNat % 16 := by
  simp [cmdOp, BitVec.extractLsb'_toNat]

theorem cmdRes0_toNat (w : Word) : (cmdRes0 w).toNat = w.toNat / 16 % 16 := by
  simp [cmdRes0, BitVec.extractLsb'_toNat, Nat.shiftRight_eq_div_pow]

theorem cmdIdx_toNat (w : Word) : (cmdIdx w).toNat = w.toNat / 256 % 256 := by
  simp [cmdIdx, BitVec.extractLsb'_toNat, Nat.shiftRight_eq_div_pow]

theorem cmdRes1_toNat (w : Word) : (cmdRes1 w).toNat = w.toNat / 65536 := by
  have := w.isLt
  simp [cmdRes1, BitVec.extractLsb'_toNat, Nat.shiftRight_eq_div_pow]
  omega

/-- The OP value of each command (R71). -/
theorem opcode_toNat (i : Instr) : i.opcode.toNat =
    match i with
    | .read _ => 1
    | .write _ => 2
    | .define _ => 3
    | .undefine _ => 4
    | .query _ => 5 := by
  cases i <;> rfl

/-- The command word as a number (R70). -/
theorem encode_toNat (i : Instr) : (encode i).toNat = i.idx % 256 * 256 + i.opcode.toNat := by
  simp only [encode, append_toNat, BitVec.toNat_ofNat]
  omega

end Sys2Proof
end

