-- ==== Sys2Proof/Laws/Memory.lean ====
section
/-! SUPPORT. The device register space of the reference transport (R67): read after write, and its canonical form. -/

namespace Sys2Proof.Machine

open Sys2Proof

/-- Different device registers have different keys. -/
theorem devKey_inj {d d' : DevAddr} {r r' : RegAddr} (h : devKey d r = devKey d' r') : d = d' ∧ r = r' := by
  unfold devKey at h
  have h1 := r.isLt
  have h2 := r'.isLt
  exact ⟨BitVec.eq_of_toNat_eq (by omega), BitVec.eq_of_toNat_eq (by omega)⟩

theorem devKey_lt (d : DevAddr) (r : RegAddr) : devKey d r < 2 ^ 15 := by
  unfold devKey
  have h1 := r.isLt
  have h2 := d.isLt
  omega

/-- A key below every listed key reads as 0. -/
theorem cellsRead_of_lt {l : List (Nat × Word)} {lo k : Nat} (h : cellsWf lo l = true) (hk : k < lo) :
    cellsRead l k = 0#32 := by
  induction l generalizing lo with
  | nil => rfl
  | cons c rest ih =>
    obtain ⟨k', v⟩ := c
    simp only [cellsWf, Bool.and_eq_true, decide_eq_true_eq] at h
    have : k ≠ k' := by omega
    simp only [cellsRead, this, if_false]
    exact ih h.2 (by omega)

/-- Reading a key after a write gives the value written there, and what was there before anywhere else. -/
theorem cellsRead_cellsWrite {l : List (Nat × Word)} {lo : Nat} (h : cellsWf lo l = true) (k j : Nat) (v : Word) :
    cellsRead (cellsWrite l k v) j = if j = k then v else cellsRead l j := by
  induction l generalizing lo with
  | nil =>
    by_cases hv : v = 0#32 <;> by_cases hj : j = k <;> simp [cellsWrite, cellsRead, hv, hj]
  | cons c rest ih =>
    obtain ⟨k', v'⟩ := c
    simp only [cellsWf, Bool.and_eq_true, decide_eq_true_eq] at h
    have hlow : k < k' → cellsRead rest k = 0#32 := fun hk => cellsRead_of_lt h.2 (by omega)
    have hsame : cellsRead rest k' = 0#32 := cellsRead_of_lt h.2 (by omega)
    unfold cellsWrite
    split
    · rename_i hk
      have hne : k ≠ k' := by omega
      by_cases hv : v = 0#32 <;> by_cases hj : j = k <;> simp [cellsRead, hv, hj, hne, hlow hk]
    · split
      · rename_i hk
        subst hk
        by_cases hv : v = 0#32 <;> by_cases hj : j = k <;> simp [cellsRead, hv, hj, hsame]
      · rename_i hk
        simp only [cellsRead, ih h.2]
        by_cases hj : j = k
        · subst hj
          simp [hk]
        · simp [hj]

/-- A write keeps the canonical form. -/
theorem cellsWrite_wf {l : List (Nat × Word)} {lo : Nat} (h : cellsWf lo l = true) (k : Nat) (v : Word) (hk : lo ≤ k) :
    cellsWf lo (cellsWrite l k v) = true := by
  have weaken : ∀ {l : List (Nat × Word)} {a b : Nat}, a ≤ b → cellsWf b l = true → cellsWf a l = true := by
    intro l a b hab h
    cases l with
    | nil => rfl
    | cons c rest =>
      simp only [cellsWf, Bool.and_eq_true, decide_eq_true_eq] at h ⊢
      exact ⟨⟨by omega, h.1.2⟩, h.2⟩
  induction l generalizing lo with
  | nil => by_cases hv : v = 0#32 <;> simp [cellsWrite, cellsWf, hv, hk]
  | cons c rest ih =>
    obtain ⟨k', v'⟩ := c
    have h' := h
    simp only [cellsWf, Bool.and_eq_true, decide_eq_true_eq] at h'
    unfold cellsWrite
    split
    · split
      · exact h
      · simp only [cellsWf, Bool.and_eq_true, decide_eq_true_eq]
        exact ⟨⟨hk, ‹_›⟩, ⟨by omega, h'.1.2⟩, h'.2⟩
    · split
      · split
        · exact weaken (by omega) h'.2
        · simp only [cellsWf, Bool.and_eq_true, decide_eq_true_eq]
          exact ⟨⟨hk, ‹_›⟩, by have : k = k' := ‹_›; rw [this]; exact h'.2⟩
      · simp only [cellsWf, Bool.and_eq_true, decide_eq_true_eq]
        exact ⟨h'.1, ih h'.2 (by omega)⟩

/-- A write lists no key but its own and those that were listed. -/
theorem cellsWrite_mem {l : List (Nat × Word)} {k : Nat} {v : Word} {c : Nat × Word} (h : c ∈ cellsWrite l k v) :
    c.1 = k ∨ c ∈ l := by
  induction l with
  | nil =>
    unfold cellsWrite at h
    split at h <;> simp_all
  | cons c' rest ih =>
    obtain ⟨k', v'⟩ := c'
    unfold cellsWrite at h
    split at h
    · split at h <;> simp_all
      rcases h with h | h <;> simp_all
    · split at h
      · split at h
        · exact .inr (List.mem_cons_of_mem _ h)
        · rcases List.mem_cons.mp h with h | h
          · exact .inl (by simp [h])
          · exact .inr (List.mem_cons_of_mem _ h)
      · rcases List.mem_cons.mp h with h | h
        · exact .inr (by simp [h])
        · exact (ih h).imp id (List.mem_cons_of_mem _)

/-- Every write of a device register keeps the canonical form. -/
theorem Memory.write_wf {m : Memory} (h : m.wf = true) (dev : DevAddr) (reg : RegAddr) (v : Word) :
    (m.write dev reg v).wf = true := by
  simp only [Memory.wf, Memory.write, Bool.and_eq_true, List.all_eq_true, decide_eq_true_eq] at h ⊢
  refine ⟨cellsWrite_wf h.1 _ _ (by omega), fun c hc => ?_⟩
  rcases cellsWrite_mem hc with h' | h'
  · rw [h']
    exact devKey_lt dev reg
  · exact h.2 c h'

/-- Every answer of the reference transport keeps the canonical form. -/
theorem Memory.serve_wf {m : Memory} (h : m.wf = true) (req : Req) : (m.serve req).2.wf = true := by
  cases req with
  | read dev reg w => exact h
  | write dev reg b => exact Memory.write_wf h dev reg _

/-- With no request named to fail, the reference transport answers by its rule (R67). -/
@[simp] theorem Memory.serveFailing_nil (m : Memory) (req : Req) : m.serveFailing [] req = m.serve req := rfl

/-- Everything the reference transport can answer where some requests fail (R67). -/
theorem Memory.serveFailing_cases (fails : List Req) (m : Memory) (req : Req) :
    (req ∈ fails ∧ m.serveFailing fails req = (.fail, m)) ∨
    (req ∉ fails ∧ m.serveFailing fails req = m.serve req) := by
  unfold Memory.serveFailing
  split
  · exact .inl ⟨‹_›, rfl⟩
  · exact .inr ⟨‹_›, rfl⟩

/-- Failing or not, an answer of the reference transport keeps the canonical form. -/
theorem Memory.serveFailing_wf {m : Memory} (h : m.wf = true) (fails : List Req) (req : Req) :
    (m.serveFailing fails req).2.wf = true := by
  rcases Memory.serveFailing_cases fails m req with ⟨_, e⟩ | ⟨_, e⟩ <;> rw [e]
  · exact h
  · exact Memory.serve_wf h req

theorem Memory.zero_wf : Memory.zero.wf = true := rfl

/-- A register reads as what was written to it, and every other register as before. -/
theorem Memory.read_write {m : Memory} (h : m.wf = true) (dev dev' : DevAddr) (reg reg' : RegAddr) (v : Word) :
    (m.write dev reg v).read dev' reg' = if dev' = dev ∧ reg' = reg then v else m.read dev' reg' := by
  simp only [Memory.wf, Bool.and_eq_true] at h
  simp only [Memory.read, Memory.write, cellsRead_cellsWrite h.1]
  by_cases he : dev' = dev ∧ reg' = reg
  · simp [he.1, he.2]
  · rw [if_neg he, if_neg fun hk => he (devKey_inj hk)]

end Sys2Proof.Machine
end

