-- ==== Sys2Proof/Laws/Operands.lean ====
section
/-! SUPPORT. Small facts on the operands, the parameters, the host registers and a run, each said once. -/

namespace Sys2Proof.Machine

open Sys2Proof

/-- The bounds of a legal instance (R6, R7). -/
theorem legal_bounds {c : Config} (h : c.legal = true) :
    2 ≤ c.rwMax ∧ c.rwMax ≤ 4 ∧ 10 ≤ c.nDesc ∧ c.nDesc ≤ 255 := by
  simp [Config.legal] at h
  omega

/-- The register an offset selects, as a number (R150). -/
theorem hostSelect_eq (off : BitVec 8) : hostSelect off = off.toNat / 4 := by
  have := off.isLt
  simp [hostSelect, BitVec.extractLsb'_toNat, Nat.shiftRight_eq_div_pow]
  omega

/-- The numbers of the descriptor a descriptor word holds (R75). -/
theorem ofWord_numbers (v : Word) :
    (Desc.ofWord v).n = v.toNat / 2 ^ 24 ∧ (Desc.ofWord v).w = v.toNat / 2 ^ 8 % 16 ∧
    (Desc.ofWord v).low = v.toNat / 2 ^ 16 % 256 := by
  have := v.isLt
  simp [Desc.ofWord, Desc.n, Desc.w, Desc.low, BitVec.extractLsb'_toNat, Nat.shiftRight_eq_div_pow]
  omega

/-- Bit 1 of a `STATUS` write, as a number (R155). -/
theorem bit1_iff (v : Word) : v.getLsbD 1 = true ↔ v.toNat / 2 % 2 = 1 := by
  rw [BitVec.getLsbD]
  simp [Nat.testBit_eq_decide_div_mod_eq]

/-- A run's first step (Host/Core.lean). -/
theorem run_succ (M : Host.Core) (n : Nat) (s t : M.State) (h : M.step s = .next t) : M.run (n + 1) s = M.run n t := by
  rw [Host.Core.run, h]

/-- A run that goes on for `n + 1` steps makes its first step and goes on for `n` (Host/Core.lean). -/
theorem run_first (M : Host.Core) {n : Nat} {s t : M.State} (h : M.run (n + 1) s = .next t) :
    ∃ s1, M.step s = .next s1 ∧ M.run n s1 = .next t := by
  rw [Host.Core.run] at h
  split at h
  · exact ⟨_, ‹_›, h⟩
  · cases h
  · cases h

/-- A run's last step (Host/Core.lean). -/
theorem run_last (M : Host.Core) (n : Nat) (s t : M.State) (h : M.run n s = .next t) : M.run (n + 1) s = M.step t := by
  induction n generalizing s with
  | zero =>
    cases h
    rw [Host.Core.run]
    cases M.step t <;> rfl
  | succ n ih =>
    obtain ⟨s1, h1, h2⟩ := run_first M h
    rw [run_succ M (n + 1) s s1 h1]
    exact ih s1 h2

/-- While the Engine waits for an answer it has no step and the block stays as it is (R159, R184). -/
theorem engineStep_waiting {s : State} (hf : s.fsm = .rdWait ∨ s.fsm = .wrWait) (hr : s.trsp = none) :
    engineStep s = .next s := by
  rcases hf with hf | hf <;> simp [engineStep, hf, answerStep, hr]

end Sys2Proof.Machine
end

