-- ==== Sys2Proof/Laws/State.lean ====
section
/-! SUPPORT. The small lemmas of the named updates of the state: one per field and update, so that no proof unfolds an
update. -/

namespace Sys2Proof.Machine

open Sys2Proof

/-! ### Fields after `raise E` (R13, R172) -/

section

variable (s : State) (e : Err)

@[simp] theorem State.raise_cmd : (s.raise e).cmd = s.cmd := (rfl)
@[simp] theorem State.raise_ovr : (s.raise e).ovr = s.ovr := (rfl)
@[simp] theorem State.raise_rsigned : (s.raise e).rsigned = s.rsigned := (rfl)
@[simp] theorem State.raise_err : (s.raise e).err = e := (rfl)
@[simp] theorem State.raise_devaddr : (s.raise e).devaddr = s.devaddr := (rfl)
@[simp] theorem State.raise_descData : (s.raise e).descData = s.descData := (rfl)
@[simp] theorem State.raise_wdata : (s.raise e).wdata = s.wdata := (rfl)
@[simp] theorem State.raise_rdata : (s.raise e).rdata = s.rdata := (rfl)
@[simp] theorem State.raise_prog : (s.raise e).prog = s.prog := (rfl)
@[simp] theorem State.raise_fsm : (s.raise e).fsm = .idle := (rfl)
@[simp] theorem State.raise_latch : (s.raise e).latch = s.latch := (rfl)
@[simp] theorem State.raise_treq : (s.raise e).treq = none := (rfl)
@[simp] theorem State.raise_trsp : (s.raise e).trsp = none := (rfl)
@[simp] theorem State.raise_hist : (s.raise e).hist = s.hist := (rfl)
@[simp] theorem State.raise_cfg : (s.raise e).cfg = s.cfg := (rfl)
@[simp] theorem State.raise_turns : (s.raise e).turns = s.turns := (rfl)
@[simp] theorem State.raise_hostResult : (s.raise e).hostResult = s.hostResult := (rfl)
@[simp] theorem State.raise_dt (j : Nat) : (s.raise e).dt j = s.dt j := (rfl)
@[simp] theorem State.raise_readReq (d : Desc) : (s.raise e).readReq d = s.readReq d := (rfl)
@[simp] theorem State.raise_writeReq (d : Desc) (r : Nat) : (s.raise e).writeReq d r = s.writeReq d r := (rfl)

end

/-! ### Fields after `complete` (R13) -/

section

variable (s : State)

@[simp] theorem State.complete_cmd : (s.complete).cmd = s.cmd := (rfl)
@[simp] theorem State.complete_ovr : (s.complete).ovr = s.ovr := (rfl)
@[simp] theorem State.complete_rsigned : (s.complete).rsigned = s.rsigned := (rfl)
@[simp] theorem State.complete_err : (s.complete).err = .noError := (rfl)
@[simp] theorem State.complete_devaddr : (s.complete).devaddr = s.devaddr := (rfl)
@[simp] theorem State.complete_descData : (s.complete).descData = s.descData := (rfl)
@[simp] theorem State.complete_wdata : (s.complete).wdata = s.wdata := (rfl)
@[simp] theorem State.complete_rdata : (s.complete).rdata = s.rdata := (rfl)
@[simp] theorem State.complete_prog : (s.complete).prog = s.prog := (rfl)
@[simp] theorem State.complete_fsm : (s.complete).fsm = .idle := (rfl)
@[simp] theorem State.complete_latch : (s.complete).latch = s.latch := (rfl)
@[simp] theorem State.complete_treq : (s.complete).treq = s.treq := (rfl)
@[simp] theorem State.complete_trsp : (s.complete).trsp = s.trsp := (rfl)
@[simp] theorem State.complete_hist : (s.complete).hist = s.hist := (rfl)
@[simp] theorem State.complete_cfg : (s.complete).cfg = s.cfg := (rfl)
@[simp] theorem State.complete_turns : (s.complete).turns = s.turns := (rfl)
@[simp] theorem State.complete_hostResult : (s.complete).hostResult = s.hostResult := (rfl)
@[simp] theorem State.complete_dt (j : Nat) : (s.complete).dt j = s.dt j := (rfl)
@[simp] theorem State.complete_readReq (d : Desc) : (s.complete).readReq d = s.readReq d := (rfl)
@[simp] theorem State.complete_writeReq (d : Desc) (r : Nat) : (s.complete).writeReq d r = s.writeReq d r := (rfl)

end

/-! ### Fields after the result of a READ (R107) -/

section

variable (s : State) (v : Word) (b : Bool)

@[simp] theorem State.setResult_cmd : (s.setResult v b).cmd = s.cmd := (rfl)
@[simp] theorem State.setResult_ovr : (s.setResult v b).ovr = s.ovr := (rfl)
@[simp] theorem State.setResult_rsigned : (s.setResult v b).rsigned = b := (rfl)
@[simp] theorem State.setResult_err : (s.setResult v b).err = s.err := (rfl)
@[simp] theorem State.setResult_devaddr : (s.setResult v b).devaddr = s.devaddr := (rfl)
@[simp] theorem State.setResult_descData : (s.setResult v b).descData = s.descData := (rfl)
@[simp] theorem State.setResult_wdata : (s.setResult v b).wdata = s.wdata := (rfl)
@[simp] theorem State.setResult_rdata : (s.setResult v b).rdata = v := (rfl)
@[simp] theorem State.setResult_prog : (s.setResult v b).prog = s.prog := (rfl)
@[simp] theorem State.setResult_fsm : (s.setResult v b).fsm = s.fsm := (rfl)
@[simp] theorem State.setResult_latch : (s.setResult v b).latch = s.latch := (rfl)
@[simp] theorem State.setResult_treq : (s.setResult v b).treq = s.treq := (rfl)
@[simp] theorem State.setResult_trsp : (s.setResult v b).trsp = s.trsp := (rfl)
@[simp] theorem State.setResult_hist : (s.setResult v b).hist = s.hist := (rfl)
@[simp] theorem State.setResult_cfg : (s.setResult v b).cfg = s.cfg := (rfl)
@[simp] theorem State.setResult_turns : (s.setResult v b).turns = s.turns := (rfl)
@[simp] theorem State.setResult_hostResult : (s.setResult v b).hostResult = s.hostResult := (rfl)
@[simp] theorem State.setResult_dt (j : Nat) : (s.setResult v b).dt j = s.dt j := (rfl)
@[simp] theorem State.setResult_readReq (d : Desc) : (s.setResult v b).readReq d = s.readReq d := (rfl)
@[simp] theorem State.setResult_writeReq (d : Desc) (r : Nat) : (s.setResult v b).writeReq d r = s.writeReq d r := (rfl)

end

/-! ### Fields after the result of a QUERY (R137) -/

section

variable (s : State) (v : Word)

@[simp] theorem State.setDescData_cmd : (s.setDescData v).cmd = s.cmd := (rfl)
@[simp] theorem State.setDescData_ovr : (s.setDescData v).ovr = s.ovr := (rfl)
@[simp] theorem State.setDescData_rsigned : (s.setDescData v).rsigned = s.rsigned := (rfl)
@[simp] theorem State.setDescData_err : (s.setDescData v).err = s.err := (rfl)
@[simp] theorem State.setDescData_devaddr : (s.setDescData v).devaddr = s.devaddr := (rfl)
@[simp] theorem State.setDescData_descData : (s.setDescData v).descData = v := (rfl)
@[simp] theorem State.setDescData_wdata : (s.setDescData v).wdata = s.wdata := (rfl)
@[simp] theorem State.setDescData_rdata : (s.setDescData v).rdata = s.rdata := (rfl)
@[simp] theorem State.setDescData_prog : (s.setDescData v).prog = s.prog := (rfl)
@[simp] theorem State.setDescData_fsm : (s.setDescData v).fsm = s.fsm := (rfl)
@[simp] theorem State.setDescData_latch : (s.setDescData v).latch = s.latch := (rfl)
@[simp] theorem State.setDescData_treq : (s.setDescData v).treq = s.treq := (rfl)
@[simp] theorem State.setDescData_trsp : (s.setDescData v).trsp = s.trsp := (rfl)
@[simp] theorem State.setDescData_hist : (s.setDescData v).hist = s.hist := (rfl)
@[simp] theorem State.setDescData_cfg : (s.setDescData v).cfg = s.cfg := (rfl)
@[simp] theorem State.setDescData_turns : (s.setDescData v).turns = s.turns := (rfl)
@[simp] theorem State.setDescData_hostResult : (s.setDescData v).hostResult = s.hostResult := (rfl)
@[simp] theorem State.setDescData_dt (j : Nat) : (s.setDescData v).dt j = s.dt j := (rfl)
@[simp] theorem State.setDescData_readReq (d : Desc) : (s.setDescData v).readReq d = s.readReq d := (rfl)
@[simp] theorem State.setDescData_writeReq (d : Desc) (r : Nat) : (s.setDescData v).writeReq d r = s.writeReq d r := (rfl)

end

/-! ### Fields after a write of the descriptor table (R134, R136) -/

section

variable (s : State) (i : Nat) (e : Desc)

@[simp] theorem State.setDt_cmd : (s.setDt i e).cmd = s.cmd := (rfl)
@[simp] theorem State.setDt_ovr : (s.setDt i e).ovr = s.ovr := (rfl)
@[simp] theorem State.setDt_rsigned : (s.setDt i e).rsigned = s.rsigned := (rfl)
@[simp] theorem State.setDt_err : (s.setDt i e).err = s.err := (rfl)
@[simp] theorem State.setDt_devaddr : (s.setDt i e).devaddr = s.devaddr := (rfl)
@[simp] theorem State.setDt_descData : (s.setDt i e).descData = s.descData := (rfl)
@[simp] theorem State.setDt_wdata : (s.setDt i e).wdata = s.wdata := (rfl)
@[simp] theorem State.setDt_rdata : (s.setDt i e).rdata = s.rdata := (rfl)
@[simp] theorem State.setDt_prog : (s.setDt i e).prog = s.prog.set (i - nFixed) e := (rfl)
@[simp] theorem State.setDt_fsm : (s.setDt i e).fsm = s.fsm := (rfl)
@[simp] theorem State.setDt_latch : (s.setDt i e).latch = s.latch := (rfl)
@[simp] theorem State.setDt_treq : (s.setDt i e).treq = s.treq := (rfl)
@[simp] theorem State.setDt_trsp : (s.setDt i e).trsp = s.trsp := (rfl)
@[simp] theorem State.setDt_hist : (s.setDt i e).hist = s.hist := (rfl)
@[simp] theorem State.setDt_cfg : (s.setDt i e).cfg = s.cfg := (rfl)
@[simp] theorem State.setDt_turns : (s.setDt i e).turns = s.turns := (rfl)
@[simp] theorem State.setDt_hostResult : (s.setDt i e).hostResult = s.hostResult := (rfl)
@[simp] theorem State.setDt_readReq (d : Desc) : (s.setDt i e).readReq d = s.readReq d := (rfl)
@[simp] theorem State.setDt_writeReq (d : Desc) (r : Nat) : (s.setDt i e).writeReq d r = s.writeReq d r := (rfl)

end

/-! ### Fields after Engine issue (R52) -/

section

variable (s : State) (f : Fsm) (req : Req)

@[simp] theorem State.issue_cmd : (s.issue f req).cmd = s.cmd := (rfl)
@[simp] theorem State.issue_ovr : (s.issue f req).ovr = s.ovr := (rfl)
@[simp] theorem State.issue_rsigned : (s.issue f req).rsigned = s.rsigned := (rfl)
@[simp] theorem State.issue_err : (s.issue f req).err = s.err := (rfl)
@[simp] theorem State.issue_devaddr : (s.issue f req).devaddr = s.devaddr := (rfl)
@[simp] theorem State.issue_descData : (s.issue f req).descData = s.descData := (rfl)
@[simp] theorem State.issue_wdata : (s.issue f req).wdata = s.wdata := (rfl)
@[simp] theorem State.issue_rdata : (s.issue f req).rdata = s.rdata := (rfl)
@[simp] theorem State.issue_prog : (s.issue f req).prog = s.prog := (rfl)
@[simp] theorem State.issue_fsm : (s.issue f req).fsm = f := (rfl)
@[simp] theorem State.issue_latch : (s.issue f req).latch = s.latch := (rfl)
@[simp] theorem State.issue_treq : (s.issue f req).treq = some req := (rfl)
@[simp] theorem State.issue_trsp : (s.issue f req).trsp = s.trsp := (rfl)
@[simp] theorem State.issue_hist : (s.issue f req).hist = s.hist ++ [.issue req] := (rfl)
@[simp] theorem State.issue_cfg : (s.issue f req).cfg = s.cfg := (rfl)
@[simp] theorem State.issue_turns : (s.issue f req).turns = s.turns := (rfl)
@[simp] theorem State.issue_hostResult : (s.issue f req).hostResult = s.hostResult := (rfl)
@[simp] theorem State.issue_dt (j : Nat) : (s.issue f req).dt j = s.dt j := (rfl)
@[simp] theorem State.issue_readReq (d : Desc) : (s.issue f req).readReq d = s.readReq d := (rfl)
@[simp] theorem State.issue_writeReq (d : Desc) (r : Nat) : (s.issue f req).writeReq d r = s.writeReq d r := (rfl)

end

/-! ### Fields after consuming an answer (R52) -/

section

variable (s : State)

@[simp] theorem State.consume_cmd : (s.consume).cmd = s.cmd := (rfl)
@[simp] theorem State.consume_ovr : (s.consume).ovr = s.ovr := (rfl)
@[simp] theorem State.consume_rsigned : (s.consume).rsigned = s.rsigned := (rfl)
@[simp] theorem State.consume_err : (s.consume).err = s.err := (rfl)
@[simp] theorem State.consume_devaddr : (s.consume).devaddr = s.devaddr := (rfl)
@[simp] theorem State.consume_descData : (s.consume).descData = s.descData := (rfl)
@[simp] theorem State.consume_wdata : (s.consume).wdata = s.wdata := (rfl)
@[simp] theorem State.consume_rdata : (s.consume).rdata = s.rdata := (rfl)
@[simp] theorem State.consume_prog : (s.consume).prog = s.prog := (rfl)
@[simp] theorem State.consume_fsm : (s.consume).fsm = s.fsm := (rfl)
@[simp] theorem State.consume_latch : (s.consume).latch = s.latch := (rfl)
@[simp] theorem State.consume_treq : (s.consume).treq = s.treq := (rfl)
@[simp] theorem State.consume_trsp : (s.consume).trsp = none := (rfl)
@[simp] theorem State.consume_hist : (s.consume).hist = s.hist := (rfl)
@[simp] theorem State.consume_cfg : (s.consume).cfg = s.cfg := (rfl)
@[simp] theorem State.consume_turns : (s.consume).turns = s.turns := (rfl)
@[simp] theorem State.consume_hostResult : (s.consume).hostResult = s.hostResult := (rfl)
@[simp] theorem State.consume_dt (j : Nat) : (s.consume).dt j = s.dt j := (rfl)
@[simp] theorem State.consume_readReq (d : Desc) : (s.consume).readReq d = s.readReq d := (rfl)
@[simp] theorem State.consume_writeReq (d : Desc) (r : Nat) : (s.consume).writeReq d r = s.writeReq d r := (rfl)

end

/-! ### Fields after the Transport answer (R52) -/

section

variable (s : State) (rsp : Rsp)

@[simp] theorem State.answer_cmd : (s.answer rsp).cmd = s.cmd := (rfl)
@[simp] theorem State.answer_ovr : (s.answer rsp).ovr = s.ovr := (rfl)
@[simp] theorem State.answer_rsigned : (s.answer rsp).rsigned = s.rsigned := (rfl)
@[simp] theorem State.answer_err : (s.answer rsp).err = s.err := (rfl)
@[simp] theorem State.answer_devaddr : (s.answer rsp).devaddr = s.devaddr := (rfl)
@[simp] theorem State.answer_descData : (s.answer rsp).descData = s.descData := (rfl)
@[simp] theorem State.answer_wdata : (s.answer rsp).wdata = s.wdata := (rfl)
@[simp] theorem State.answer_rdata : (s.answer rsp).rdata = s.rdata := (rfl)
@[simp] theorem State.answer_prog : (s.answer rsp).prog = s.prog := (rfl)
@[simp] theorem State.answer_fsm : (s.answer rsp).fsm = s.fsm := (rfl)
@[simp] theorem State.answer_latch : (s.answer rsp).latch = s.latch := (rfl)
@[simp] theorem State.answer_treq : (s.answer rsp).treq = none := (rfl)
@[simp] theorem State.answer_trsp : (s.answer rsp).trsp = some rsp := (rfl)
@[simp] theorem State.answer_hist : (s.answer rsp).hist = s.hist ++ [.answer rsp] := (rfl)
@[simp] theorem State.answer_cfg : (s.answer rsp).cfg = s.cfg := (rfl)
@[simp] theorem State.answer_turns : (s.answer rsp).turns = s.turns := (rfl)
@[simp] theorem State.answer_hostResult : (s.answer rsp).hostResult = s.hostResult := (rfl)
@[simp] theorem State.answer_dt (j : Nat) : (s.answer rsp).dt j = s.dt j := (rfl)
@[simp] theorem State.answer_readReq (d : Desc) : (s.answer rsp).readReq d = s.readReq d := (rfl)
@[simp] theorem State.answer_writeReq (d : Desc) (r : Nat) : (s.answer rsp).writeReq d r = s.writeReq d r := (rfl)

end

/-! ### Fields after command acceptance (R153) -/

section

variable (s : State) (v : Word)

@[simp] theorem State.accept_cmd : (s.accept v).cmd = v := (rfl)
@[simp] theorem State.accept_ovr : (s.accept v).ovr = s.ovr := (rfl)
@[simp] theorem State.accept_rsigned : (s.accept v).rsigned = s.rsigned := (rfl)
@[simp] theorem State.accept_err : (s.accept v).err = s.err := (rfl)
@[simp] theorem State.accept_devaddr : (s.accept v).devaddr = s.devaddr := (rfl)
@[simp] theorem State.accept_descData : (s.accept v).descData = s.descData := (rfl)
@[simp] theorem State.accept_wdata : (s.accept v).wdata = s.wdata := (rfl)
@[simp] theorem State.accept_rdata : (s.accept v).rdata = s.rdata := (rfl)
@[simp] theorem State.accept_prog : (s.accept v).prog = s.prog := (rfl)
@[simp] theorem State.accept_fsm : (s.accept v).fsm = .pending := (rfl)
@[simp] theorem State.accept_latch : (s.accept v).latch = { word := v, dev := s.devaddr, wdata := s.wdata, desc := s.descData } := (rfl)
@[simp] theorem State.accept_treq : (s.accept v).treq = s.treq := (rfl)
@[simp] theorem State.accept_trsp : (s.accept v).trsp = s.trsp := (rfl)
@[simp] theorem State.accept_hist : (s.accept v).hist = s.hist := (rfl)
@[simp] theorem State.accept_cfg : (s.accept v).cfg = s.cfg := (rfl)
@[simp] theorem State.accept_turns : (s.accept v).turns = s.turns := (rfl)
@[simp] theorem State.accept_hostResult : (s.accept v).hostResult = s.hostResult := (rfl)
@[simp] theorem State.accept_dt (j : Nat) : (s.accept v).dt j = s.dt j := (rfl)

end

/-! ### Fields after the Reset step (R190, R191) -/

section

variable (s : State)

@[simp] theorem State.hwReset_cmd : (s.hwReset).cmd = 0#32 := (rfl)
@[simp] theorem State.hwReset_ovr : (s.hwReset).ovr = false := (rfl)
@[simp] theorem State.hwReset_rsigned : (s.hwReset).rsigned = false := (rfl)
@[simp] theorem State.hwReset_err : (s.hwReset).err = .noError := (rfl)
@[simp] theorem State.hwReset_devaddr : (s.hwReset).devaddr = 0x48#7 := (rfl)
@[simp] theorem State.hwReset_descData : (s.hwReset).descData = 0#32 := (rfl)
@[simp] theorem State.hwReset_wdata : (s.hwReset).wdata = 0#32 := (rfl)
@[simp] theorem State.hwReset_rdata : (s.hwReset).rdata = 0#32 := (rfl)
@[simp] theorem State.hwReset_prog : (s.hwReset).prog = List.replicate (s.cfg.nDesc - nFixed) Desc.empty := (rfl)
@[simp] theorem State.hwReset_fsm : (s.hwReset).fsm = .idle := (rfl)
@[simp] theorem State.hwReset_latch : (s.hwReset).latch = { word := 0#32, dev := 0#7, wdata := 0#32, desc := 0#32 } := (rfl)
@[simp] theorem State.hwReset_treq : (s.hwReset).treq = none := (rfl)
@[simp] theorem State.hwReset_trsp : (s.hwReset).trsp = none := (rfl)
@[simp] theorem State.hwReset_hist : (s.hwReset).hist = s.hist ++ [.reset] := (rfl)
@[simp] theorem State.hwReset_cfg : (s.hwReset).cfg = s.cfg := (rfl)
@[simp] theorem State.hwReset_turns : (s.hwReset).turns = s.turns := (rfl)
@[simp] theorem State.hwReset_hostResult : (s.hwReset).hostResult = s.hostResult := (rfl)

end

end Sys2Proof.Machine
end

