-- ==== Sys2Proof/Laws/Ops.lean ====
section
/-! SUPPORT. What each shared operation and each step can do, said once: if it answers a next state, which one. -/

namespace Sys2Proof.Machine

open Sys2Proof

/-! ### The descriptor table -/

theorem State.dt_fixed (s : State) {i : Nat} (h : i < nFixed) : s.dt i = fixedEntry s.cfg i := by
  simp [State.dt, h]

theorem State.dt_prog (s : State) {i : Nat} (h : nFixed ≤ i) : s.dt i = s.prog.getD (i - nFixed) Desc.empty := by
  simp [State.dt, Nat.not_lt.mpr h]

/-- The table read depends on the parameters and the programmable entries alone. -/
theorem State.dt_congr {s t : State} (hc : t.cfg = s.cfg) (hp : t.prog = s.prog) (i : Nat) : t.dt i = s.dt i := by
  simp [State.dt, hc, hp]

/-- A write of a programmable entry is read back (R134). -/
theorem State.setDt_dt_same (s : State) {i : Nat} (e : Desc) (h : nFixed ≤ i) (hl : i - nFixed < s.prog.length) :
    (s.setDt i e).dt i = e := by
  simp [State.dt_prog _ h, hl]

/-- A write of a programmable entry leaves every other entry (R134, R136). -/
theorem State.setDt_dt_other (s : State) {i j : Nat} (e : Desc) (h : nFixed ≤ i) (hj : j ≠ i) :
    (s.setDt i e).dt j = s.dt j := by
  by_cases hf : j < nFixed
  · simp [State.dt_fixed _ hf]
  · have hf' := Nat.not_lt.mp hf
    have : i - nFixed ≠ j - nFixed := by omega
    simp [State.dt_prog _ hf', this]

/-! ### The commands -/

/-- Everything the checks of DEFINE and UNDEFINE can do (R134, R136). -/
theorem State.programmable_cases (s : State) (idx : Nat) (w : State) :
    (s.cfg.nDesc ≤ idx ∧ s.programmable idx w = s.raise .descRange) ∨
    (idx < s.cfg.nDesc ∧ idx < nFixed ∧ s.programmable idx w = s.raise .descFixed) ∨
    (idx < s.cfg.nDesc ∧ nFixed ≤ idx ∧ s.programmable idx w = w) := by
  unfold State.programmable
  split
  · exact .inl ⟨‹_›, rfl⟩
  · split
    · exact .inr (.inl ⟨by omega, ‹_›, rfl⟩)
    · exact .inr (.inr ⟨by omega, by omega, rfl⟩)

/-- Everything READ's execute step can do (R107). -/
theorem readExecute_cases (idx : Nat) (s : State) :
    (s.cfg.nDesc ≤ idx ∧ readExecute idx s = s.raise .descRange) ∨
    (idx < s.cfg.nDesc ∧ (s.dt idx).valid = false ∧ readExecute idx s = s.raise .descInvalid) ∨
    (idx < s.cfg.nDesc ∧ (s.dt idx).valid = true ∧
      readExecute idx s = s.issue .rdWait (s.readReq (s.dt idx))) := by
  unfold readExecute
  split
  · exact .inl ⟨‹_›, rfl⟩
  · split
    · exact .inr (.inl ⟨by omega, ‹_›, rfl⟩)
    · exact .inr (.inr ⟨by omega, by simpa using ‹¬ _ = false›, rfl⟩)

/-- Everything WRITE's execute step can do (R108). -/
theorem writeExecute_cases (idx : Nat) (s : State) :
    (∃ e, (e = .descRange ∨ e = .descInvalid ∨ e = .unsupported ∨ e = .invalidArgument) ∧
      writeExecute idx s = s.raise e) ∨
    (idx < s.cfg.nDesc ∧ (s.dt idx).valid = true ∧ (s.dt idx).ro = false ∧ (s.dt idx).fits s.latch.wdata = true ∧
      writeExecute idx s = s.issue .rdWait (s.readReq (s.dt idx))) := by
  unfold writeExecute
  split
  · exact .inl ⟨_, by simp, rfl⟩
  · split
    · exact .inl ⟨_, by simp, rfl⟩
    · split
      · exact .inl ⟨_, by simp, rfl⟩
      · split
        · exact .inl ⟨_, by simp, rfl⟩
        · exact .inr ⟨by omega, by simp_all, by simp_all, by simp_all, rfl⟩

/-- Everything DEFINE's execute step can do (R134). -/
theorem defineExecute_cases (idx : Nat) (s : State) :
    (∃ e, (e = .descRange ∨ e = .descFixed ∨ e = .construction) ∧ defineExecute idx s = s.raise e) ∨
    (idx < s.cfg.nDesc ∧ nFixed ≤ idx ∧ (Desc.ofWord s.latch.desc).constructOk s.cfg = true ∧
      defineExecute idx s = (s.setDt idx (Desc.ofWord s.latch.desc)).complete) := by
  unfold defineExecute
  rcases s.programmable_cases idx
      (if (Desc.ofWord s.latch.desc).constructOk s.cfg then (s.setDt idx (Desc.ofWord s.latch.desc)).complete
       else s.raise .construction) with ⟨_, h⟩ | ⟨_, _, h⟩ | ⟨h1, h2, h⟩
  · exact .inl ⟨_, by simp, h⟩
  · exact .inl ⟨_, by simp, h⟩
  · rw [h]
    split
    · exact .inr ⟨h1, h2, ‹_›, rfl⟩
    · exact .inl ⟨_, by simp, rfl⟩

/-- Everything UNDEFINE's execute step can do (R136). -/
theorem undefineExecute_cases (idx : Nat) (s : State) :
    (∃ e, (e = .descRange ∨ e = .descFixed) ∧ undefineExecute idx s = s.raise e) ∨
    (idx < s.cfg.nDesc ∧ nFixed ≤ idx ∧ undefineExecute idx s = (s.setDt idx Desc.empty).complete) := by
  unfold undefineExecute
  rcases s.programmable_cases idx (s.setDt idx Desc.empty).complete with ⟨_, h⟩ | ⟨_, _, h⟩ | ⟨h1, h2, h⟩
  · exact .inl ⟨_, by simp, h⟩
  · exact .inl ⟨_, by simp, h⟩
  · exact .inr ⟨h1, h2, h⟩

/-- Everything QUERY's execute step can do (R137). -/
theorem queryExecute_cases (idx : Nat) (s : State) :
    (s.cfg.nDesc ≤ idx ∧ queryExecute idx s = s.raise .descRange) ∨
    (idx < s.cfg.nDesc ∧ queryExecute idx s = (s.setDescData (s.dt idx).pack).complete) := by
  unfold queryExecute
  split
  · exact .inl ⟨‹_›, rfl⟩
  · exact .inr ⟨by omega, rfl⟩

/-- If READ answers a next state, which one (R107). -/
theorem execRead_next {idx : Nat} {s t : State} (h : execRead idx s = .next t) :
    (s.fsm = .pending ∧ t = readExecute idx s) ∨
    (s.fsm = .rdWait ∧ s.trsp = some .fail ∧ t = s.consume.raise .transport) ∨
    (s.fsm = .rdWait ∧ ∃ b, s.trsp = some (.readOk b) ∧
      t = (s.consume.setResult ((s.dt idx).result ((s.dt idx).extract (assemble b (s.dt idx).w)))
        (s.dt idx).signed).complete) ∨
    (s.fsm ≠ .pending ∧ (s.fsm = .rdWait → s.trsp = none) ∧ t = s) := by
  unfold execRead at h
  split at h
  · exact .inl ⟨‹_›, by simpa using h.symm⟩
  · rename_i rsp hf hr
    cases rsp with
    | fail => exact .inr (.inl ⟨hf, hr, by simpa [readAnswer] using h.symm⟩)
    | readOk b => exact .inr (.inr (.inl ⟨hf, b, hr, by simpa [readAnswer] using h.symm⟩))
    | writeOk => simp [readAnswer] at h
  · rename_i h1 h2
    refine .inr (.inr (.inr ⟨fun hf => h1 hf, fun hf => ?_, by simpa using h.symm⟩))
    cases hr : s.trsp with
    | none => rfl
    | some rsp => exact absurd hr (h2 rsp hf)

/-- If WRITE answers a next state, which one (R108). -/
theorem execWrite_next {idx : Nat} {s t : State} (h : execWrite idx s = .next t) :
    (s.fsm = .pending ∧ t = writeExecute idx s) ∨
    ((s.fsm = .rdWait ∨ s.fsm = .wrWait) ∧ s.trsp = some .fail ∧ t = s.consume.raise .transport) ∨
    (s.fsm = .rdWait ∧ ∃ b, s.trsp = some (.readOk b) ∧
      t = s.consume.issue .wrWait (s.writeReq (s.dt idx)
        ((s.dt idx).inject (assemble b (s.dt idx).w) s.latch.wdata))) ∨
    (s.fsm = .wrWait ∧ s.trsp = some .writeOk ∧ t = s.consume.complete) ∨
    (s.fsm ≠ .pending ∧ (s.fsm = .rdWait ∨ s.fsm = .wrWait → s.trsp = none) ∧ t = s) := by
  unfold execWrite at h
  split at h
  · exact .inl ⟨‹_›, by simpa using h.symm⟩
  · rename_i rsp hf hr
    cases rsp with
    | fail => exact .inr (.inl ⟨.inl hf, hr, by simpa [writeReadAnswer] using h.symm⟩)
    | readOk b => exact .inr (.inr (.inl ⟨hf, b, hr, by simpa [writeReadAnswer] using h.symm⟩))
    | writeOk => simp [writeReadAnswer] at h
  · rename_i rsp hf hr
    cases rsp with
    | fail => exact .inr (.inl ⟨.inr hf, hr, by simpa [writeWriteAnswer] using h.symm⟩)
    | readOk b => simp [writeWriteAnswer] at h
    | writeOk => exact .inr (.inr (.inr (.inl ⟨hf, hr, by simpa [writeWriteAnswer] using h.symm⟩)))
  · rename_i h1 h2 h3
    refine .inr (.inr (.inr (.inr ⟨fun hf => h1 hf, fun hf => ?_, by simpa using h.symm⟩)))
    cases hr : s.trsp with
    | none => rfl
    | some rsp => exact hf.elim (fun hf => absurd hr (h2 rsp hf)) (fun hf => absurd hr (h3 rsp hf))

/-- What a descriptor command does: its execute step in PENDING, nothing in any other Engine state (R134). -/
theorem execDefine_eq (idx : Nat) (s : State) :
    execDefine idx s = .next (if s.fsm = .pending then defineExecute idx s else s) := by
  unfold execDefine
  split <;> simp_all

theorem execUndefine_eq (idx : Nat) (s : State) :
    execUndefine idx s = .next (if s.fsm = .pending then undefineExecute idx s else s) := by
  unfold execUndefine
  split <;> simp_all

theorem execQuery_eq (idx : Nat) (s : State) :
    execQuery idx s = .next (if s.fsm = .pending then queryExecute idx s else s) := by
  unfold execQuery
  split <;> simp_all

/-! ### The Host, the Transport, the Engine -/

/-- Everything a host write can do (R152 to R155). -/
theorem State.hostWrite_cases (s : State) (off : BitVec 8) (v : Word) :
    (hostSelect off = 0 ∧ s.fsm = .idle ∧ s.hostWrite off v = s.accept v) ∨
    (hostSelect off = 0 ∧ s.fsm ≠ .idle ∧ s.hostWrite off v = { s with ovr := true }) ∨
    (hostSelect off = 1 ∧ v.getLsbD 1 = true ∧ s.hostWrite off v = { s with ovr := false }) ∨
    (hostSelect off = 1 ∧ v.getLsbD 1 = false ∧ s.hostWrite off v = s) ∨
    (hostSelect off = 2 ∧ s.hostWrite off v = { s with devaddr := v.extractLsb' 0 7 }) ∨
    (hostSelect off = 3 ∧ s.hostWrite off v = { s with descData := v }) ∨
    (hostSelect off = 4 ∧ s.hostWrite off v = { s with wdata := v }) ∨
    (5 ≤ hostSelect off ∧ s.hostWrite off v = s) := by
  unfold State.hostWrite
  split <;> rename_i hs
  · unfold State.writeCmd
    split <;> simp_all
  · unfold State.writeStatus
    split <;> simp_all
  · simp_all
  · simp_all
  · simp_all
  · refine .inr (.inr (.inr (.inr (.inr (.inr (.inr ⟨?_, rfl⟩))))))
    simp only [imp_false] at *
    omega

/-- If the Transport's step answers a next state, which one and why (R52). -/
theorem transportStep_next {rsp : Rsp} {s t : State} (h : transportStep rsp s = .next t) :
    ∃ req, s.treq = some req ∧ s.trsp = none ∧ req.admits rsp = true ∧ t = s.answer rsp := by
  unfold transportStep at h
  split at h
  · rename_i req hq hr
    split at h
    · exact ⟨req, hq, hr, ‹_›, by simpa using h.symm⟩
    · simp at h
  · simp at h

/-- If the Engine's step answers a next state, which one (R158, R159). -/
theorem engineStep_next {s t : State} (h : engineStep s = .next t) :
    (s.fsm = .idle ∧ t = s) ∨
    (s.fsm = .pending ∧ ∃ i, decode s.latch.word = .ok i ∧ exec i s = .next t) ∨
    (s.fsm = .pending ∧ (∃ e, decode s.latch.word = .error e) ∧ t = s.raise .illegalCmd) ∨
    ((s.fsm = .rdWait ∨ s.fsm = .wrWait) ∧ s.trsp = none ∧ t = s) ∨
    ((s.fsm = .rdWait ∨ s.fsm = .wrWait) ∧ s.trsp ≠ none ∧ s.latch.op = 1#4 ∧
      exec (.read s.latch.idx) s = .next t) ∨
    ((s.fsm = .rdWait ∨ s.fsm = .wrWait) ∧ s.trsp ≠ none ∧ s.latch.op = 2#4 ∧
      exec (.write s.latch.idx) s = .next t) ∨
    ((s.fsm = .rdWait ∨ s.fsm = .wrWait) ∧ s.latch.op ≠ 1#4 ∧ s.latch.op ≠ 2#4 ∧ t = s) := by
  have answer : ∀ {s t : State}, s.fsm = .rdWait ∨ s.fsm = .wrWait → answerStep s = .next t →
      (s.trsp = none ∧ t = s) ∨
      (s.trsp ≠ none ∧ s.latch.op = 1#4 ∧ exec (.read s.latch.idx) s = .next t) ∨
      (s.trsp ≠ none ∧ s.latch.op = 2#4 ∧ exec (.write s.latch.idx) s = .next t) ∨
      (s.latch.op ≠ 1#4 ∧ s.latch.op ≠ 2#4 ∧ t = s) := by
    intro s t _ h
    unfold answerStep at h
    split at h
    · exact .inl ⟨‹_›, by simpa using h.symm⟩
    · rename_i hr
      have hr' : s.trsp ≠ none := by simp [hr]
      split at h
      · exact .inr (.inl ⟨hr', ‹_›, h⟩)
      · split at h
        · exact .inr (.inr (.inl ⟨hr', ‹_›, h⟩))
        · exact .inr (.inr (.inr ⟨‹_›, ‹_›, by simpa using h.symm⟩))
  unfold engineStep at h
  split at h <;> rename_i hf
  · exact .inl ⟨hf, by simpa using h.symm⟩
  · unfold executeStep at h
    split at h
    · exact .inr (.inl ⟨hf, _, ‹_›, h⟩)
    · exact .inr (.inr (.inl ⟨hf, ⟨_, ‹_›⟩, by simpa using h.symm⟩))
  · rcases answer (.inl hf) h with ⟨a, b⟩ | ⟨a, b, c⟩ | ⟨a, b, c⟩ | ⟨a, b, c⟩ <;> simp_all
  · rcases answer (.inr hf) h with ⟨a, b⟩ | ⟨a, b, c⟩ | ⟨a, b, c⟩ | ⟨a, b, c⟩ <;> simp_all

/-- Whose step a step is (R3): the next turn's agent, or the Engine where no turn is listed. -/
theorem step_nil {s : State} (h : s.turns = []) : step s = engineStep s := by
  simp [step, nextTurn, h]

theorem step_cons {s : State} {t : Turn} {ts : List Turn} (h : s.turns = t :: ts) :
    step s = agentStep t { s with turns := ts } := by
  simp [step, nextTurn, h]

/-- If a step answers a next state, whose step it was and what it did (R3). -/
theorem step_next {s t : State} (h : step s = .next t) :
    (s.turns = [] ∧ engineStep s = .next t) ∨
    (∃ ts, s.turns = .engine :: ts ∧ engineStep { s with turns := ts } = .next t) ∨
    (∃ a ts, s.turns = .host a :: ts ∧ t = ({ s with turns := ts } : State).hostStep a) ∨
    (∃ rsp ts, s.turns = .transport rsp :: ts ∧ transportStep rsp { s with turns := ts } = .next t) ∨
    (∃ ts, s.turns = .reset :: ts ∧ t = ({ s with turns := ts } : State).hwReset) := by
  cases hs : s.turns with
  | nil => exact .inl ⟨rfl, by rwa [step_nil hs] at h⟩
  | cons u ts =>
    rw [step_cons hs] at h
    cases u with
    | host a => exact .inr (.inr (.inl ⟨a, ts, rfl, by simpa [agentStep] using h.symm⟩))
    | engine => exact .inr (.inl ⟨ts, rfl, h⟩)
    | transport rsp => exact .inr (.inr (.inr (.inl ⟨rsp, ts, rfl, h⟩)))
    | reset => exact .inr (.inr (.inr (.inr ⟨ts, rfl, by simpa [agentStep] using h.symm⟩)))

end Sys2Proof.Machine
end

