-- ==== Sys2Proof/Laws/PerInstr.lean ====
section
/-! SUPPORT. The statements made once per command. EncodeMatchesRow: a command's word has the fixed bits of its row of
spec/opcode_table.json, the row's match under the mask 0xFFFF00FF (30_encoding.md section 3). -/

namespace Sys2Proof.Laws

open Sys2Proof

/-- The row's match: the word with IDX = 0 (30_encoding.md section 3). -/
def rowMatch : Instr → Word
  | .read _ => 0x00000001#32
  | .write _ => 0x00000002#32
  | .define _ => 0x00000003#32
  | .undefine _ => 0x00000004#32
  | .query _ => 0x00000005#32

/-- The fixed bits of the command's word are its row's. -/
def EncodeMatchesRow.Statement (i : Instr) : Prop := encode i &&& 0xFFFF00FF#32 = rowMatch i

/-- A word of RES1, IDX, RES0, OP has the fixed bits of OP alone. -/
theorem fixed_bits (x : BitVec 8) (op : BitVec 4) :
    ((0#16 ++ x ++ 0#4 ++ op : BitVec 32) &&& 0xFFFF00FF#32) = op.setWidth 32 := by
  apply BitVec.eq_of_getLsbD_eq
  intro j hj
  simp only [BitVec.getLsbD_and, BitVec.getLsbD_append, BitVec.getLsbD_setWidth]
  interval_cases j <;> simp

theorem EncodeMatchesRow.read (idx : Nat) : EncodeMatchesRow.Statement (.read idx) := fixed_bits _ 1#4
theorem EncodeMatchesRow.write (idx : Nat) : EncodeMatchesRow.Statement (.write idx) := fixed_bits _ 2#4
theorem EncodeMatchesRow.define (idx : Nat) : EncodeMatchesRow.Statement (.define idx) := fixed_bits _ 3#4
theorem EncodeMatchesRow.undefine (idx : Nat) : EncodeMatchesRow.Statement (.undefine idx) := fixed_bits _ 4#4
theorem EncodeMatchesRow.query (idx : Nat) : EncodeMatchesRow.Statement (.query idx) := fixed_bits _ 5#4

end Sys2Proof.Laws
end

