-- ==== Sys2Proof/Laws/Schedule.lean ====
section
/-! SUPPORT. What the ends of a run and of a host program come to, said once (R161): the machine's list of turns as a
schedule, the accesses of a run, and the accesses of programs one after the other. -/

namespace Sys2Proof.Machine

open Sys2Proof

/-- No turn of the Host is left in a list just where the schedule that goes on with the Engine has none left (log 2). -/
theorem hostDone_getD (l : List Turn) (n : Nat) :
    HostDone (fun k => l.getD k .engine) n ↔ ∀ a, .host a ∉ l.drop n := by
  constructor
  · intro h a ha
    obtain ⟨i, hi, he⟩ := List.getElem_of_mem ha
    rw [List.length_drop] at hi
    rw [List.getElem_drop] at he
    refine h (n + i) (by omega) a ?_
    simp only [List.getD_eq_getElem?_getD]
    rw [List.getElem?_eq_getElem (by omega), he]
    rfl
  · intro h m hm a he
    simp only [List.getD_eq_getElem?_getD] at he
    by_cases hl : m < l.length
    · rw [List.getElem?_eq_getElem hl] at he
      refine h a (List.mem_iff_getElem.mpr ⟨m - n, by rw [List.length_drop]; omega, ?_⟩)
      rw [List.getElem_drop]
      simpa [show n + (m - n) = m by omega] using he
    · rw [List.getElem?_eq_none (by omega)] at he
      cases he

/-- A run has ended just where the machine's own state, with the turns still listed, says so (R161). -/
theorem runEnded_iff (l : List Turn) (run : Nat → State) (n : Nat) :
    RunEnded (fun k => l.getD k .engine) run n ↔ State.runEnded { run n with turns := l.drop n } :=
  and_congr (hostDone_getD l n) Iff.rfl

/-- The Host being done stays so. -/
theorem HostDone.mono {sched : Nat → Turn} {n m : Nat} (h : HostDone sched n) (hm : n ≤ m) : HostDone sched m :=
  fun k hk => h k (Nat.le_trans hm hk)

/-- What one more step adds to what the Host has seen. -/
theorem hostSees_succ (sched : Nat → Turn) (run : Nat → State) (n : Nat) :
    hostSees sched run (n + 1) = hostSees sched run n ++ (sched n).seen (run n) := rfl

/-- Only a turn of the Host shows the Host something (R150). -/
theorem Turn.seen_of_not_host {u : Turn} (h : ∀ a, u ≠ .host a) (s : State) : u.seen s = [] := by
  cases u with
  | host a => exact absurd rfl (h a)
  | engine => rfl
  | transport rsp => rfl
  | reset => rfl

/-- The Host sees nothing more once it is done. -/
theorem hostSees_done {sched : Nat → Turn} {run : Nat → State} {n : Nat} (h : HostDone sched n) (j : Nat) :
    hostSees sched run (n + j) = hostSees sched run n := by
  induction j with
  | zero => rfl
  | succ j ih => rw [← Nat.add_assoc, hostSees_succ, Turn.seen_of_not_host (h _ (by omega)), List.append_nil, ih]

/-- The accesses of a program are those of its first statement and then those of the rest (R79). -/
theorem stmtsSee_cons {st : HostStmt} {sts : List HostStmt} {l : List Seen} :
    stmtsSee (st :: sts) l = true ↔ ∃ l1 l2, l = l1 ++ l2 ∧ st.sees l1 = true ∧ stmtsSee sts l2 = true := by
  simp only [stmtsSee, List.any_eq_true, List.mem_range, Bool.and_eq_true]
  constructor
  · rintro ⟨k, _, h1, h2⟩
    exact ⟨_, _, (List.take_append_drop k l).symm, h1, h2⟩
  · rintro ⟨l1, l2, rfl, h1, h2⟩
    exact ⟨l1.length, by simp, by simpa using h1, by simpa using h2⟩

/-- The accesses of two programs one after the other are those of the one and then those of the other (R79). -/
theorem stmtsSee_append {p q : List HostStmt} {l : List Seen} :
    stmtsSee (p ++ q) l = true ↔ ∃ l1 l2, l = l1 ++ l2 ∧ stmtsSee p l1 = true ∧ stmtsSee q l2 = true := by
  induction p generalizing l with
  | nil =>
    constructor
    · intro h
      exact ⟨[], l, rfl, rfl, h⟩
    · rintro ⟨l1, l2, rfl, h1, h2⟩
      have : l1 = [] := by simpa [stmtsSee] using h1
      simpa [this] using h2
  | cons st p ih =>
    rw [List.cons_append, stmtsSee_cons]
    constructor
    · rintro ⟨l1, l2, rfl, h1, h2⟩
      obtain ⟨m1, m2, rfl, h3, h4⟩ := ih.mp h2
      exact ⟨l1 ++ m1, m2, by simp, stmtsSee_cons.mpr ⟨l1, m1, rfl, h1, h3⟩, h4⟩
    · rintro ⟨l1, l2, rfl, h1, h2⟩
      obtain ⟨m1, m2, rfl, h3, h4⟩ := stmtsSee_cons.mp h1
      exact ⟨m1, m2 ++ l2, by simp, h3, ih.mpr ⟨m2, l2, rfl, h4, h2⟩⟩

/-- A `poll` makes reads of `STATUS` and nothing else (R79). -/
theorem pollSees_reads {l : List Seen} (h : pollSees l = true) :
    ∀ x ∈ l, ∃ v, x = .got HostReg.status.offset v := by
  induction l with
  | nil => nofun
  | cons x rest ih =>
    cases x with
    | wrote off v => cases rest <;> simp [pollSees] at h
    | got off v =>
      cases rest with
      | nil =>
        simp only [pollSees, Bool.and_eq_true, decide_eq_true_eq] at h
        simp [h.1]
      | cons y rest =>
        simp only [pollSees, Bool.and_eq_true, decide_eq_true_eq] at h
        rintro z (_ | ⟨_, hz⟩)
        · exact ⟨v, by rw [h.1.1]⟩
        · exact ih h.2 z hz

/-- What a `poll` sees ends with the read of `STATUS` that shows BUSY = 0 (R79). -/
theorem pollSees_last {l : List Seen} (h : pollSees l = true) :
    ∃ l' v, l = l' ++ [.got HostReg.status.offset v] ∧ v.getLsbD 0 = false := by
  induction l with
  | nil => simp [pollSees] at h
  | cons x rest ih =>
    cases x with
    | wrote off v => cases rest <;> simp [pollSees] at h
    | got off v =>
      cases rest with
      | nil =>
        simp only [pollSees, Bool.and_eq_true, decide_eq_true_eq, Bool.not_eq_true'] at h
        exact ⟨[], v, by simp [h.1], h.2⟩
      | cons y rest =>
        simp only [pollSees, Bool.and_eq_true] at h
        obtain ⟨l', w, hl, hw⟩ := ih h.2
        exact ⟨.got off v :: l', w, by simp [hl], hw⟩

end Sys2Proof.Machine
end

