-- ==== Sys2Proof/Tests/Slice0.lean ====
section
/-! SUPPORT. Tests: ill-formed commands refused, words written out from 30_encoding.md, single steps against the vectors
of 95_test_vectors.md, and a witness for the hypotheses of every obligation that has some. -/

namespace Sys2Proof.Tests

open Sys2Proof Sys2Proof.Machine

/-! ### Helpers -/

/-- The next state of an outcome. -/
def nextOf (o : Host.Outcome State Fault Refusal) : Option State :=
  match o with
  | .next s => some s
  | _ => none

/-- The reason of a refused outcome. -/
def refusalOf (o : Host.Outcome State Fault Refusal) : Option Refusal :=
  match o with
  | .refused r => some r
  | _ => none

/-- The reference configuration with `P_CONV_RO = 0`. -/
def cfg0 : Config := { rwMax := 4, nDesc := 16, convRo := false }

/-- After Reset, with DT[15] the read-only descriptor of the vector D-6. -/
def base : State := { State.resetOf cfg0 with prog := List.replicate 5 Desc.empty ++ [Desc.ofWord 0x0108A201#32] }

/-- The command `w` accepted with the operands `wd` and `ds` latched, the Engine to step. -/
def pend (w wd ds : Word) : State :=
  { base with
    cmd := w, fsm := .pending, turns := [.engine]
    latch := { word := w, dev := 0x48#7, wdata := wd, desc := ds } }

/-- The command `w` waiting in RD_WAIT with its request in the channel, `u` to step. -/
def asks (w wd : Word) (req : Req) (u : Turn) : State :=
  { pend w wd 0 with fsm := .rdWait, treq := some req, hist := [.issue req], turns := [u] }

/-- The command `w` waiting in `f` with its answer in the channel. -/
def answered (w wd : Word) (f : Fsm) (rsp : Rsp) : State :=
  { pend w wd 0 with fsm := f, trsp := some rsp }

/-- The block with the Host's access `a` next. -/
def hosting (s : State) (a : HostAccess) : State := { s with turns := [.host a] }

/-- A block as after an overrun and a failed WRITE: `STATUS` = 0x00000032. -/
def overrun : State := { base with ovr := true, err := .invalidArgument }

/-! ### Ill-formed commands are refused -/

theorem test_wellFormed_refuses_index_256 :
    [Instr.read 256, .write 256, .define 256, .undefine 256, .query 256].map Instr.wellFormed =
      [false, false, false, false, false] := by decide

theorem test_wellFormed_admits_0_and_255 :
    [Instr.read 0, .write 0, .define 0, .undefine 0, .query 0, .read 255, .write 255, .define 255, .undefine 255,
      .query 255].all Instr.wellFormed = true := by decide

/-! ### Words written out bit by bit: RES1, IDX, RES0, OP (R70) -/

theorem test_decode_read : decode 0b0000000000000000_00001001_0000_0001#32 = .ok (.read 9) := rfl
theorem test_decode_write : decode 0b0000000000000000_00000001_0000_0010#32 = .ok (.write 1) := rfl
theorem test_decode_define : decode 0b0000000000000000_00001010_0000_0011#32 = .ok (.define 10) := rfl
theorem test_decode_undefine : decode 0b0000000000000000_00001111_0000_0100#32 = .ok (.undefine 15) := rfl
theorem test_decode_query : decode 0b0000000000000000_11111111_0000_0101#32 = .ok (.query 255) := rfl
theorem test_encode_words :
    [Instr.read 9, .write 1, .define 10, .undefine 15, .query 255].map encode =
      [0x00000901#32, 0x00000102#32, 0x00000A03#32, 0x00000F04#32, 0x0000FF05#32] := by decide
theorem test_decodeTableWord_rows :
    [1, 2, 3, 4, 5].map (decodeTableWord 32) =
      [some (.read 0), some (.write 0), some (.define 0), some (.undefine 0), some (.query 0)] := by decide
/-- DC-1 to DC-8. -/
theorem test_illegal_words :
    [0x0, 0x6, 0xF, 0x16, 0x9F1, 0x10001, 0x80000901, 0x1012].map (decodeTableWord 32) =
      List.replicate 8 none := by decide

/-! ### The field functions (PF-1 to PF-51) -/

/-- Field 9, `conv`, with `P_CONV_RO = 0`. -/
def conv : Desc := fixedEntry cfg0 9

/-- Fields 0 to 8. -/
def configFields : List Desc := (List.range 9).map (fixedEntry cfg0)

/-- A descriptor of a width, a lowest bit, a number of bits and a sign. -/
def field (w : BitVec 4) (lb n : BitVec 8) (sg : Bool) : Desc :=
  { valid := true, addr := 0x10#8, width := w, signed := sg, ro := false, lb := lb, nbits := n }

theorem test_PF1_to_PF4_mask :
    [(field 2 12 3 false).mask, conv.mask, (field 4 0 32 false).mask, (field 3 2 20 true).mask] =
      [0x7000, 0xFFF0, 0xFFFFFFFF, 0x003FFFFC] := by decide
theorem test_PF5_PF6_PF7_extract :
    [0x8583, 0xC3E3, 0xFFFF].map (fun r => configFields.map fun d => d.extract r) =
      [[1, 0, 2, 1, 4, 0, 0, 0, 3], [1, 4, 1, 1, 7, 0, 0, 0, 3], [1, 7, 7, 1, 7, 1, 1, 1, 3]] := by decide
theorem test_PF9_to_PF14_conv :
    [0xFFFF, 0x800F, 0x8010, 0x4000, 0x0010, 0x000F].map (fun r => conv.result (conv.extract r)) =
      [0xFFFFFFFF#32, 0xFFFFF800#32, 0xFFFFF801#32, 0x400#32, 1#32, 0#32] := by decide
theorem test_PF15_to_PF19_decode :
    [(field 1 0 1 true).result 1, (field 1 0 1 true).result 0, (field 4 0 32 true).result 0x80000000,
      (field 4 0 32 false).result 0x80000000, (field 1 4 4 true).result ((field 1 4 4 true).extract 0xA5),
      (field 1 4 4 false).result 0xA, (field 2 0 16 true).result 0x8583] =
      [0xFFFFFFFF#32, 0#32, 0x80000000#32, 0x80000000#32, 0xFFFFFFFA#32, 0xA#32, 0xFFFF8583#32] := by decide
theorem test_PF20_to_PF28_fits :
    ([0#32, 7#32, 8#32, 0xFFFFFFFF#32].map (field 2 12 3 false).fits = [true, true, false, false]) ∧
    ([0x800#32, 0xFFF#32, 0xFFFFF800#32, 0x1000#32, 0xFFFFF7FF#32].map conv.fits =
      [true, true, true, false, false]) ∧
    ([1#32, 0xFFFFFFFF#32, 2#32, 0xFFFFFFFE#32].map (field 1 0 1 true).fits = [true, true, false, false]) ∧
    ([0x7FFFFFFF#32, 0xFFFFFFFF#32].map (field 4 0 32 false).fits = [true, true]) := by decide
theorem test_PF29_to_PF46_inject :
    [(field 2 12 3 false).inject 0x8583 4, (field 2 12 3 false).inject 0xFFFF 0, (field 2 15 1 false).inject 0x583 1,
      conv.inject 0x000F 0xFFFFF800, conv.inject 0x1235 0xFFFFFFFF, (field 4 0 32 false).inject 0x12345678 0xDEADBEEF,
      (field 1 4 4 true).inject 0xA5 0xFFFFFFF9, (field 3 2 20 true).inject 0xABCDEF 0xFFFFFFFE] =
      [0xC583, 0x8FFF, 0x8583, 0x800F, 0xFFF5, 0xDEADBEEF, 0x95, 0xBFFFFB] := by decide
theorem test_PF47_to_PF51_bytes :
    assemble [0x85, 0x83] 2 = 0x8583 ∧ assemble [0xAB, 0xCD, 0xEF] 3 = 0xABCDEF ∧
    split 0xC583 2 = [0xC5, 0x83] ∧ split 0x12345678 4 = [0x12, 0x34, 0x56, 0x78] ∧
    split (0x00123456 % 2 ^ (8 * 2)) 2 = [0x34, 0x56] := by decide

/-! ### One step of each command -/

/-- R-3, the answer step: `RDATA` 0xFFFFF800, `STATUS` 0x00000004. -/
theorem test_read_R3 :
    (nextOf (step (answered 0x901 0 .rdWait (.readOk [0x80, 0x00])))).map (fun t => (t.rdata, t.status)) =
      some (0xFFFFF800#32, 0x00000004#32) := by decide
/-- R-9's kind, DESC_INVALID, of entry 14. -/
theorem test_read_invalid_entry :
    (nextOf (step (pend 0xE01 0 0))).map (fun t => (t.status, t.hist)) = some (0x00000060#32, []) := by decide
/-- W-1, the read-answer step: the write of [0xC5, 0x83]. -/
theorem test_write_W1 :
    (nextOf (step (answered 0x102 4 .rdWait (.readOk [0x85, 0x83])))).map (fun t => (t.treq, t.fsm)) =
      some (some (.write 0x48 0x01 [0xC5, 0x83]), .wrWait) := by decide
/-- W-E5: UNSUPPORTED comes before the fit. -/
theorem test_write_WE5 :
    (nextOf (step (pend 0xF02 0x1000 0))).map (fun t => (t.status, t.hist)) = some (0x00000040#32, []) := by decide
/-- DEFINE 10 of Program 3, line 2. -/
theorem test_define_program3 :
    (nextOf (step (pend 0xA03 0 0x14021310))).map (fun t => (t.dt 10, t.err)) =
      some ({ valid := true, addr := 0x10, width := 3, signed := true, ro := false, lb := 2, nbits := 20 }, .noError) := by
  decide
/-- D-C1: CONSTRUCTION, DT[11] still invalid. -/
theorem test_define_DC1 :
    (nextOf (step (pend 0xB03 0 0x05040110))).map (fun t => (t.dt 11, t.status, t.hist)) =
      some (Desc.empty, 0x00000010#32, []) := by decide
/-- U-2: an entry becomes invalid. -/
theorem test_undefine_U2 :
    (nextOf (step (pend 0xF04 0 0))).map (fun t => (t.dt 15, t.status)) = some (Desc.empty, 0#32) := by decide
/-- U-3: DESC_FIXED. -/
theorem test_undefine_U3 :
    (nextOf (step (pend 0x004 0 0))).map (fun t => (t.dt 0).valid && decide (t.status = 0x70#32)) = some true := by decide
/-- D-6's QUERY. -/
theorem test_query_D6 :
    (nextOf (step (pend 0xF05 0 0))).map (fun t => (t.descData, t.status)) = some (0x0108A201#32, 0#32) := by decide
/-- Q-4: DESC_RANGE, the staged word is kept. -/
theorem test_query_Q4 :
    (nextOf (step { pend 0xFF05 0 0 with descData := 0x12345678 })).map (fun t => (t.descData, t.status)) =
      some (0x12345678#32, 0x50#32) := by decide
/-- Q-1 as the first instruction after reset, placed by `withFetchWord`. -/
theorem test_withFetchWord_Q1 :
    (nextOf (step (State.reset.withFetchWord 32 0x105))).map (fun t => t.descData) = some 0x030C8201#32 := by decide

/-! ### The host interface (HI-1 to HI-9) and Reset (RS-4) -/

theorem test_HI1_HI2_HI3_reads :
    [0x00, 0x04, 0x08, 0x0C, 0x10, 0x14, 0x18, 0x1C, 0xFC, 0x19, 0x1B].map base.hostValue =
      [0, 0, 0x48, 0, 0, 0, 0x010A1004, 0, 0, 0x010A1004, 0x010A1004] := by decide
theorem test_HI4_devaddr :
    (nextOf (step (hosting base (.write 0x08 0xFFFFFFCA)))).map (fun t => t.hostValue 0x08) = some 0x4A#32 := by decide
theorem test_HI6_HI7_status_write :
    [0xFFFFFFFD, 0xFFFFFFFF].map (fun v => (nextOf (step (hosting overrun (.write 0x04 v)))).map fun t => t.status) =
      [some 0x32#32, some 0x30#32] := by decide
theorem test_HI9_dropped :
    (nextOf (step (hosting (pend 0x102 4 0) (.write 0x00 0x901)))).map (fun t => (t.cmd, t.latch.word, t.status)) =
      some (0x102#32, 0x102#32, 3#32) := by decide
theorem test_RS4_reset :
    (nextOf (step { overrun with devaddr := 0x49, turns := [.reset] })).map
      (fun t => (t.devaddr, (t.dt 15).valid, t.status, t.hist)) = some (0x48#7, false, 0#32, [.reset]) := by decide
/-- A failed answer ends a WRITE with TRANSPORT (W-E8). -/
theorem test_WE8_fail :
    (nextOf (step (answered 0x102 4 .rdWait .fail))).map (fun t => (t.status, t.treq)) = some (0x20#32, none) := by decide

/-! ### States that satisfy the invariant -/

theorem base_prog : base.prog.length = base.cfg.nDesc - nFixed ∧ ∀ e ∈ base.prog, e.entryOk base.cfg := by
  refine ⟨rfl, fun e he => ?_⟩
  rcases List.mem_append.1 he with h | h
  · exact .inl (List.eq_of_mem_replicate h)
  · rw [List.mem_singleton.1 h]
    exact .inr (by decide)

theorem test_base_Inv : base.Inv := ⟨rfl, base_prog.1, base_prog.2, ⟨rfl, rfl⟩⟩

theorem test_pend_Inv (w wd ds : Word) : (pend w wd ds).Inv := ⟨rfl, base_prog.1, base_prog.2, ⟨rfl, rfl⟩⟩

/-- READ 9 with its request, then its answer, in the channel. -/
theorem test_read_waiting_Inv (u : Turn) :
    (asks 0x901 0 (.read 0x48 0x00 2) u).Inv ∧ (answered 0x901 0 .rdWait (.readOk [0x80, 0x00])).Inv ∧
    (answered 0x901 0 .rdWait .fail).Inv :=
  ⟨⟨rfl, base_prog.1, base_prog.2, 9, .inl ⟨test_decode_read, by show 9 < 16; decide, rfl⟩, .inl ⟨rfl, rfl⟩⟩,
    ⟨rfl, base_prog.1, base_prog.2, 9, .inl ⟨rfl, by decide, rfl⟩, .inr ⟨rfl, _, rfl, rfl⟩⟩,
    ⟨rfl, base_prog.1, base_prog.2, 9, .inl ⟨rfl, by decide, rfl⟩, .inr ⟨rfl, _, rfl, rfl⟩⟩⟩

/-- READ 9 with its answer in the channel and no turn listed. -/
theorem test_read_unlisted_Inv : ({ answered 0x901 0 .rdWait .fail with turns := [] } : State).Inv :=
  ⟨rfl, base_prog.1, base_prog.2, 9, .inl ⟨rfl, by decide, rfl⟩, .inr ⟨rfl, _, rfl, rfl⟩⟩

/-- WRITE 1 with its read's answer, then its write's answer, in the channel. -/
theorem test_write_waiting_Inv :
    (answered 0x102 4 .rdWait (.readOk [0x85, 0x83])).Inv ∧ (answered 0x102 4 .wrWait .writeOk).Inv ∧
    (answered 0x102 4 .wrWait .fail).Inv :=
  ⟨⟨rfl, base_prog.1, base_prog.2, 1, .inr ⟨rfl, ⟨by decide, rfl⟩, rfl, by decide⟩, .inr ⟨rfl, _, rfl, rfl⟩⟩,
    ⟨rfl, base_prog.1, base_prog.2, 1, 0, rfl, ⟨⟨by decide, rfl⟩, rfl, by decide⟩, .inr ⟨rfl, _, rfl, rfl⟩⟩,
    ⟨rfl, base_prog.1, base_prog.2, 1, 0, rfl, ⟨⟨by decide, rfl⟩, rfl, by decide⟩, .inr ⟨rfl, _, rfl, rfl⟩⟩⟩

/-! ### Witnesses: the hypotheses of each obligation, met -/

theorem witness_DecodeOfEncodeGivesTheCommandBack :
    (Instr.read 0).wellFormed = true ∧ (Instr.query 255).wellFormed = true := by decide

theorem witness_EncodeOfDecodeGivesTheWordBack : decode 0x0000FF05#32 = .ok (.query 255) := rfl

/-- The first and the last word of each command, and each way to be illegal at its boundary. -/
theorem witness_DecodeReadsTheStatedWords :
    [0x0001, 0xFF01, 0x0002, 0xFF02, 0x0003, 0xFF03, 0x0004, 0xFF04, 0x0005, 0xFF05].map (decodeTableWord 32) =
      [some (.read 0), some (.read 255), some (.write 0), some (.write 255), some (.define 0), some (.define 255),
        some (.undefine 0), some (.undefine 255), some (.query 0), some (.query 255)] ∧
    [0x11, 0xF1, 0x10001, 0xFFFF0001, 0x0, 0x6, 0xF].map (decodeTableWord 32) = List.replicate 7 none := by decide

theorem witness_ReservedBitsFailWithIllegalCmd :
    ((pend 0x11 0 0).latch.word.toNat / 16 % 16 ≠ 0 ∧ (pend 0x11 0 0).fsm = .pending ∧
      (pend 0x11 0 0).turns = .engine :: []) ∧
    ((pend 0x10001 0 0).latch.word.toNat / 65536 ≠ 0 ∧ (pend 0x80000901 0 0).latch.word.toNat / 65536 ≠ 0) := by decide

/-- A word with OP 6 is no command's word; the block at rest, the Host to write it and the Engine to step. -/
theorem witness_EveryOtherWordIsAcceptedAndFails :
    ({ base with turns := [.host (.write 0x00 6), .engine] } : State).quiescent ∧
    (∀ i : Instr, i.wellFormed = true → 6#32 ≠ encode i) ∧
    ({ base with turns := [.host (.write 0x00 6), .engine] } : State).turns =
      .host (.write 0x00#8 6#32) :: .engine :: [] := by
  refine ⟨⟨rfl, rfl, rfl⟩, fun i _ h => ?_, rfl⟩
  have h1 : (6#32).toNat = 6 := rfl
  have h2 := opcode_toNat i
  rw [h, encode_toNat] at h1
  cases i <;> simp only at h2 <;> omega

theorem witness_StepRunsTheLatchedCommand :
    (pend 0x102 4 0).fsm = .pending ∧ decode (pend 0x102 4 0).latch.word = .ok (.write 1) ∧
    (pend 0x102 4 0).turns = .engine :: [] ∧ ({ pend 0x102 4 0 with turns := [] } : State).turns = [] :=
  ⟨rfl, rfl, rfl, rfl⟩

/-- In RD_WAIT a READ and a WRITE, in WR_WAIT a WRITE, with the Engine's turn listed and with none. -/
theorem witness_StepRunsTheCommandInProgressOnItsAnswer :
    ∃ s1 s2 s3 : State, s1.Inv ∧ s2.Inv ∧ s3.Inv ∧ s1.fsm = .rdWait ∧ s2.fsm = .rdWait ∧ s3.fsm = .wrWait ∧
      s1.trsp ≠ none ∧ s2.trsp ≠ none ∧ s3.trsp ≠ none ∧ decode s1.latch.word = .ok (.read 9) ∧
      decode s2.latch.word = .ok (.write 1) ∧ decode s3.latch.word = .ok (.write 1) ∧ s1.turns = .engine :: [] ∧
      s2.turns = .engine :: [] ∧ s3.turns = .engine :: [] ∧
      ({ answered 0x901 0 .rdWait .fail with turns := [] } : State).Inv ∧
      ({ answered 0x901 0 .rdWait .fail with turns := [] } : State).turns = [] :=
  ⟨_, _, _, (test_read_waiting_Inv .engine).2.1, test_write_waiting_Inv.1, test_write_waiting_Inv.2.1, rfl, rfl, rfl,
    nofun, nofun, nofun, rfl, rfl, rfl, rfl, rfl, rfl, test_read_unlisted_Inv, rfl⟩

/-- Each transition of R34 happens. -/
theorem witness_EngineMakesOnlyTheStatedTransitions :
    ([{ pend 0x102 4 0 with turns := [.reset] }, hosting base (.write 0x03 0x901), pend 0xE01 0 0, pend 0x101 0 0,
      answered 0x901 0 .rdWait .fail, answered 0x102 4 .rdWait (.readOk [0x85, 0x83]),
      answered 0x102 4 .wrWait .writeOk].map fun s => (s.fsm, (nextOf (step s)).map fun t => t.fsm)) =
      [(.pending, some .idle), (.idle, some .pending), (.pending, some .idle), (.pending, some .rdWait),
        (.rdWait, some .idle), (.rdWait, some .wrWait), (.wrWait, some .idle)] := by decide

/-- A stray and an inadmissible answer, each refused. -/
theorem witness_StepIsRefusedOnlyOnAnInadmissibleAnswer :
    ({ base with turns := [.transport .fail] } : State).Inv ∧
    refusalOf (step { base with turns := [.transport .fail] }) = some .strayAnswer ∧
    (asks 0x901 0 (.read 0x48 0x00 2) (.transport .writeOk)).Inv ∧
    refusalOf (step (asks 0x901 0 (.read 0x48 0x00 2) (.transport .writeOk))) = some .inadmissibleAnswer :=
  ⟨⟨rfl, base_prog.1, base_prog.2, ⟨rfl, rfl⟩⟩, by decide, (test_read_waiting_Inv _).1, by decide⟩

/-- The first and last offset of every register, in a legal instance. -/
theorem witness_HostReadReturnsTheStatedValue :
    base.cfg.legal = true ∧ (hosting base (.read 0x18)).turns = .host (.read 0x18#8) :: [] ∧
    ([0x00#8, 0x03, 0x04, 0x07, 0x08, 0x0B, 0x0C, 0x0F, 0x10, 0x13, 0x14, 0x17, 0x18, 0x1B, 0x1C, 0xFF].map
      fun off => off.toNat / 4) = [0, 0, 1, 1, 2, 2, 3, 3, 4, 4, 5, 5, 6, 6, 7, 63] := by decide

theorem witness_HostWriteDoesWhatTheTableStates :
    (hosting base (.write 0x00 0x901)).turns = .host (.write 0x00#8 0x901#32) :: [] ∧
    ([0x00, 0x03, 0x04, 0x07, 0x08, 0x0B, 0x0C, 0x0F, 0x10, 0x13, 0x14, 0xFF].map fun off =>
      (nextOf (step (hosting overrun (.write off 2)))).map fun t => (t.fsm, t.ovr, t.devaddr, t.descData, t.wdata)) =
      [some (.pending, true, 0x48, 0, 0), some (.pending, true, 0x48, 0, 0), some (.idle, false, 0x48, 0, 0),
        some (.idle, false, 0x48, 0, 0), some (.idle, true, 2, 0, 0), some (.idle, true, 2, 0, 0),
        some (.idle, true, 0x48, 2, 0), some (.idle, true, 0x48, 2, 0), some (.idle, true, 0x48, 0, 2),
        some (.idle, true, 0x48, 0, 2), some (.idle, true, 0x48, 0, 0), some (.idle, true, 0x48, 0, 0)] := by decide

/-- Two states that differ in the flags and the live host registers alone (HI-10). -/
theorem witness_CommandDependsOnlyOnLatchTableAndAnswers :
    ∃ s s' t : State, s' = { s with wdata := 7, ovr := true, err := .transport } ∧ s' ≠ s ∧
      exec (.write 1) s = .next t ∧ t.fsm = .rdWait :=
  ⟨pend 0x102 4 0, _, _, rfl, by decide, rfl, rfl⟩

/-- Each of the four changes happens. -/
theorem witness_StatusFieldsChangeOnlyAsStated :
    (nextOf (step (pend 0xE01 0 0))).map (fun t => t.err) = some .descInvalid ∧
    (nextOf (step (hosting (pend 0x102 4 0) (.write 0x00 0)))).map (fun t => t.ovr) = some true ∧
    (nextOf (step (hosting overrun (.write 0x04 2)))).map (fun t => t.ovr) = some false ∧
    (nextOf (step (answered 0x901 0 .rdWait (.readOk [0x80, 0x00])))).map (fun t => t.rsigned) = some true := by decide

/-- A command still in progress after a step of the Engine, and after the Host's write of `DESC_DATA`. -/
theorem witness_ResultsHoldUntilCompletion :
    (nextOf (step (pend 0x101 0 0))).map (fun t => t.fsm) = some .rdWait ∧
    (nextOf (step (hosting (pend 0x101 0 0) (.write 0x0C 5)))).map (fun t => (t.fsm, t.descData)) =
      some (.pending, 5#32) := by decide

theorem witness_MaskIsTheFieldsBits :
    1 ≤ (field 4 31 1 false).nbits.toNat ∧ (field 4 31 1 false).constructOk cfg0 = true ∧
    1 ≤ (field 4 0 32 false).nbits.toNat ∧ (field 4 0 32 false).constructOk cfg0 = true := by decide

theorem witness_ExtractIsTheFieldSlice :
    (field 4 0 32 false).constructOk cfg0 = true ∧ (field 1 4 4 true).constructOk cfg0 = true ∧
    0xFF < 2 ^ (8 * (field 1 4 4 true).width.toNat) := by decide

/-- One bit, twelve bits and 32 bits, with the top bit set and clear. -/
theorem witness_DecodeRawIsTwosComplement :
    (field 1 0 1 true).nbits.toNat = 1 ∧ (1 : Nat).testBit 0 = true ∧ (0 : Nat).testBit 0 = false ∧
    conv.nbits.toNat = 12 ∧ (0x800 : Nat).testBit 11 = true ∧ (0x7FF : Nat).testBit 11 = false ∧
    (field 4 0 32 false).nbits.toNat = 32 ∧ 0xFFFFFFFF < 2 ^ 32 := by decide

/-- A signed and an unsigned READ's answer. -/
theorem witness_ReadResultIsExact :
    cfg0.legal = true ∧ (base.dt 9).constructOk cfg0 = true ∧ (base.dt 1).constructOk cfg0 = true ∧
    (answered 0x901 0 .rdWait (.readOk [0x80, 0x00])).fsm = .rdWait ∧
    (answered 0x901 0 .rdWait (.readOk [0x80, 0x00])).trsp = some (.readOk [0x80, 0x00]) ∧
    (base.dt 9).signed = true ∧ (base.dt 1).signed = false := by decide

theorem witness_FitsIsTheRepresentableRange :
    (field 1 0 1 true).nbits.toNat = 1 ∧ conv.nbits.toNat = 12 ∧ (field 4 0 32 true).nbits.toNat = 32 := by decide

theorem witness_InjectWritesTheFieldAndNothingElse :
    conv.constructOk cfg0 = true ∧ 0xFFFF < 2 ^ (8 * conv.width.toNat) ∧ conv.fits 0xFFFFF800 = true ∧
    conv.mask.testBit 3 = false := by decide

theorem witness_AssembleIsBigEndian : ([0x85#8, 0x83] : List Byte).length = 2 ∧ ([] : List Byte).length = 0 := by decide

theorem witness_SplitAndAssembleAreInverse :
    (0 < 1 ∧ 3 < 4) ∧ 0xFFFF < 2 ^ (8 * 2) ∧ 0 < 2 ^ (8 * 0) ∧ ([0xAB, 0xCD, 0xEF] : List Byte).length = 3 := by decide

theorem witness_FixedMapIsConsistent : base.cfg.legal = true ∧
    ({ rwMax := 2, nDesc := 10, convRo := true } : Config).legal = true ∧
    ({ rwMax := 4, nDesc := 255, convRo := false } : Config).legal = true := by decide

theorem witness_NoStepChangesAFixedEntry :
    (nextOf (step (pend 0xA03 0 0x14021310))).map (fun t => (t.dt 10).valid) = some true := by decide

/-- Each clause of READ: the smallest index out of range, an invalid entry, the first and the last valid one, `Fail`, and
bytes. -/
theorem witness_ReadFollowsItsRule :
    (pend 0x1001 0 0).fsm = .pending ∧ base.cfg.nDesc = 16 ∧ (base.dt 14).valid = false ∧ (base.dt 0).valid = true ∧
    (base.dt 15).valid = true ∧ (answered 0x901 0 .rdWait .fail).trsp = some .fail ∧
    (answered 0x901 0 .rdWait (.readOk [0x80, 0x00])).trsp = some (.readOk [0x80, 0x00]) := by decide

/-- Each clause of WRITE. -/
theorem witness_WriteFollowsItsRule :
    (pend 0x1002 0 0).fsm = .pending ∧ base.cfg.nDesc = 16 ∧ (base.dt 14).valid = false ∧ (base.dt 15).valid = true ∧
    (base.dt 15).ro = true ∧ (base.dt 1).valid = true ∧ (base.dt 1).ro = false ∧
    (base.dt 1).fits (pend 0x102 8 0).latch.wdata = false ∧ (base.dt 1).fits (pend 0x102 7 0).latch.wdata = true ∧
    (answered 0x102 4 .rdWait .fail).fsm = .rdWait ∧ (answered 0x102 4 .wrWait .fail).fsm = .wrWait ∧
    (answered 0x102 4 .rdWait (.readOk [0x85, 0x83])).trsp = some (.readOk [0x85, 0x83]) ∧
    (answered 0x102 4 .wrWait .writeOk).trsp = some .writeOk := by decide

/-- Each clause of DEFINE, at the ends of its range of indices: 16, 9, 10 and 15 with the widest field, and a field one
bit too high. -/
theorem witness_DefineFollowsItsRule :
    (∀ w : Word, (pend w 0 0x20000400).Inv) ∧ base.cfg.nDesc ≤ 16 ∧ 9 < 10 ∧ 10 < base.cfg.nDesc ∧ 15 < base.cfg.nDesc ∧
    (let D := 0x20000400
     1 ≤ D / 2 ^ 24 ∧ 1 ≤ D / 2 ^ 8 % 16 ∧ D / 2 ^ 8 % 16 ≤ base.cfg.rwMax ∧
       D / 2 ^ 16 % 256 + D / 2 ^ 24 ≤ 8 * (D / 2 ^ 8 % 16)) ∧
    (let D := 0x20010400
     ¬(D / 2 ^ 16 % 256 + D / 2 ^ 24 ≤ 8 * (D / 2 ^ 8 % 16))) :=
  ⟨fun w => test_pend_Inv w 0 _, by decide, by decide, by decide, by decide, by decide, by decide⟩

theorem witness_UndefineFollowsItsRule :
    (pend 0xF04 0 0).Inv ∧ (pend 0xF04 0 0).fsm = .pending ∧ (pend 0xF04 0 0).cfg.nDesc ≤ 16 ∧ 9 < 10 ∧
    10 ≤ 15 ∧ 15 < (pend 0xF04 0 0).cfg.nDesc := ⟨test_pend_Inv _ _ _, by decide⟩

/-- A valid and an invalid entry, and the smallest index out of range. -/
theorem witness_QueryFollowsItsRule :
    (pend 0xF05 0 0).Inv ∧ (pend 0xF05 0 0).fsm = .pending ∧ (pend 0xF05 0 0).cfg.nDesc ≤ 16 ∧
    15 < (pend 0xF05 0 0).cfg.nDesc ∧ ((pend 0xF05 0 0).dt 15).valid = true ∧
    ((pend 0xF05 0 0).dt 14).valid = false := ⟨test_pend_Inv _ _ _, by decide⟩

/-- Each of the three kinds of result is written by its command. -/
theorem witness_CommandsWriteOnlyTheirOwnState :
    (nextOf (exec (.read 9) (answered 0x901 0 .rdWait (.readOk [0x80, 0x00])))).map (fun t => t.rdata) =
      some 0xFFFFF800#32 ∧
    (nextOf (exec (.query 15) (pend 0xF05 0 0))).map (fun t => t.descData) = some 0x0108A201#32 ∧
    (nextOf (exec (.undefine 15) (pend 0xF04 0 0))).map (fun t => decide (t.prog = base.prog)) = some false := by decide

theorem witness_CommandsIssueOnlyTheirOwnTransactions :
    (nextOf (exec (.read 9) (pend 0x901 0 0))).map (fun t => t.hist) = some [.issue (.read 0x48 0x00 2)] ∧
    (nextOf (exec (.write 1) (answered 0x102 4 .rdWait (.readOk [0x85, 0x83])))).map (fun t => t.hist) =
      some [.issue (.write 0x48 0x01 [0xC5, 0x83])] ∧
    (nextOf (exec (.query 1) (pend 0x105 0 0))).map (fun t => t.hist) = some [] := by decide

theorem witness_StepThatEndsWithAnErrorChangesNothingElse :
    (nextOf (exec (.write 1) (answered 0x102 4 .wrWait .fail))).map (fun t => (t.fsm, t.err)) =
      some (.idle, .transport) := by decide

/-- A word for each line of the order of the checks, and the second part's states. -/
theorem witness_FirstApplicableErrorIsReported :
    (∀ w wd ds, (pend w wd ds).Inv) ∧ (answered 0x901 0 .rdWait .fail).Inv ∧ (answered 0x102 4 .wrWait .fail).Inv ∧
    ([pend 0x1012 0 0, pend 0x10001 0 0, pend 0x0 0 0, pend 0x6 0 0, pend 0x1003 0 0, pend 0x903 0 0, pend 0x904 0 0,
      pend 0xE02 0xFFFFFFFF 0, pend 0xF02 0x1000 0, pend 0x102 8 0, pend 0xA03 0 0, pend 0x101 0 0, pend 0x105 0 0].map
        fun s => (nextOf (step s)).map fun t => (t.fsm, t.err.code.toNat)) =
      [some (.idle, 8), some (.idle, 8), some (.idle, 8), some (.idle, 8), some (.idle, 5), some (.idle, 7),
        some (.idle, 7), some (.idle, 6), some (.idle, 4), some (.idle, 3), some (.idle, 1), some (.rdWait, 0),
        some (.idle, 0)] :=
  ⟨test_pend_Inv, (test_read_waiting_Inv .engine).2.2, test_write_waiting_Inv.2.2, by decide⟩

/-- Each command writes an error of its own. -/
theorem witness_CommandsRaiseOnlyTheirOwnErrors :
    ([exec (.read 14) (pend 0xE01 0 0), exec (.write 15) (pend 0xF02 0 0), exec (.define 10) (pend 0xA03 0 0),
      exec (.undefine 9) (pend 0x904 0 0), exec (.query 16) (pend 0x1005 0 0)].map fun o =>
        (nextOf o).map fun t => t.err) =
      [some .descInvalid, some .unsupported, some .construction, some .descFixed, some .descRange] := by decide

theorem witness_TransportAnswersTheOutstandingRequest :
    (asks 0x901 0 (.read 0x48 0x00 2) (.transport .fail)).turns = .transport .fail :: [] ∧
    (asks 0x901 0 (.read 0x48 0x00 2) (.transport .fail)).treq = some (.read 0x48 0x00 2) ∧
    (asks 0x901 0 (.read 0x48 0x00 2) (.transport .fail)).trsp = none ∧
    (Req.read 0x48 0x00 2).admits (.readOk [0x80, 0x00]) = true ∧
    (Req.read 0x48 0x00 2).admits (.readOk [0x80]) = false ∧
    (Req.write 0x48 0x01 [0xC5, 0x83]).admits .writeOk = true := by decide

theorem witness_ResetSetsEveryPieceOfState :
    ({ pend 0x102 4 0 with turns := [.reset] } : State).turns = .reset :: [] := rfl

/-- A READ hung in RD_WAIT with a Host and an Engine to step, and a state in WR_WAIT; Reset ends the wait. -/
theorem witness_UnansweredTransactionHangsTheBlock :
    ∃ s s' : State, s.fsm = .rdWait ∧ s'.fsm = .wrWait ∧ s.trsp = none ∧ s'.trsp = none ∧
      (∀ u ∈ s.turns, u = .engine ∨ ∃ a, u = .host a) ∧ s.turns = .host (.write 0x00#8 9#32) :: .engine :: [] ∧
      (nextOf (step { s with turns := [.reset] })).map (fun t => t.fsm) = some .idle := by
  refine ⟨{ asks 0x901 0 (.read 0x48 0x00 2) .engine with turns := [.host (.write 0 9), .engine] },
    { asks 0x102 4 (.write 0x48 0x01 [0xC5, 0x83]) .engine with fsm := .wrWait }, rfl, rfl, rfl, rfl, ?_, rfl, ?_⟩
  · intro u hu
    simp only [List.mem_cons, List.not_mem_nil, or_false] at hu
    rcases hu with rfl | rfl
    · exact .inr ⟨_, rfl⟩
    · exact .inl rfl
  · rfl

theorem witness_EnabledEngineStepMakesProgress :
    ({ pend 0x102 4 0 with turns := [] } : State).Inv ∧ ({ pend 0x102 4 0 with turns := [] } : State).fsm = .pending ∧
    ({ answered 0x901 0 .rdWait .fail with turns := [] } : State).Inv ∧
    ({ answered 0x901 0 .rdWait .fail with turns := [] } : State).trsp ≠ none ∧
    (pend 0x102 4 0).Inv ∧ (pend 0x102 4 0).turns = .engine :: [] ∧
    (answered 0x102 4 .wrWait .fail).Inv ∧ (answered 0x102 4 .wrWait .fail).turns = .engine :: [] ∧
    (answered 0x102 4 .wrWait .fail).trsp ≠ none :=
  ⟨⟨rfl, base_prog.1, base_prog.2, ⟨rfl, rfl⟩⟩, rfl, test_read_unlisted_Inv, nofun, test_pend_Inv _ _ _, rfl,
    test_write_waiting_Inv.2.2, rfl, nofun⟩

theorem witness_ResetStateSatisfiesTheInvariant : cfg0.legal = true := by decide

/-- A state with the invariant whose step goes on, for each agent. -/
theorem witness_EveryStepKeepsTheInvariant :
    (pend 0xA03 0 0x14021310).Inv ∧ (nextOf (step (pend 0xA03 0 0x14021310))).isSome = true ∧
    (asks 0x901 0 (.read 0x48 0x00 2) (.transport .fail)).Inv ∧
    (nextOf (step (asks 0x901 0 (.read 0x48 0x00 2) (.transport .fail)))).isSome = true :=
  ⟨test_pend_Inv _ _ _, by decide, (test_read_waiting_Inv _).1, by decide⟩

theorem witness_EveryStepKeepsTheHistoryInOrder :
    (asks 0x901 0 (.read 0x48 0x00 2) (.transport .fail)).Inv ∧
    (asks 0x901 0 (.read 0x48 0x00 2) (.transport .fail)).histOk ∧
    (nextOf (step (asks 0x901 0 (.read 0x48 0x00 2) (.transport .fail)))).isSome = true :=
  ⟨(test_read_waiting_Inv _).1, rfl, by decide⟩

/-- A reached state, one step after Reset, with a valid entry: a READ accepted. -/
theorem witness_EveryValidEntryIsWellFormed :
    ∃ s : State, Reached s ∧ s.fsm = .pending ∧ 9 < s.cfg.nDesc ∧ (s.dt 9).valid = true :=
  ⟨_, .step _ _ (.reset cfg0 [.host (.write 0x00 0x901)] rfl) rfl, rfl, by decide, rfl⟩

/-- A reached state with a request in the channel, two steps after Reset. -/
theorem witness_ChannelHoldsAtMostOneTransaction : ∃ s : State, Reached s ∧ s.treq ≠ none :=
  ⟨_, .step _ _ (.step _ _ (.reset cfg0 [.host (.write 0x00 0x901), .engine] rfl) rfl) rfl, nofun⟩

theorem witness_IdleMeansEveryTransactionIsAnsweredOrAbandoned : ∃ s : State, Reached s ∧ s.status.getLsbD 0 = false :=
  ⟨_, .reset cfg0 [] rfl, rfl⟩

/-- V(0x48, 0x01) = 0x8583, in canonical form. -/
def v8583 : Memory := { cells := [(0x4801, 0x8583)] }

theorem witness_ReferenceTransportServesAsStated :
    v8583.wf = true ∧ v8583.read 0x48 0x01 = 0x8583 ∧ ([0xC5, 0x83] : List Byte).length ≤ 4 := by decide

/-- R-8's and W-E8's Transport step: `Fail` to the named read, and V kept; a request not named is answered. -/
theorem test_named_read_fails :
    (v8583.serveFailing [.read 0x48 0x01 2] (.read 0x48 0x01 2)) = (.fail, v8583) ∧
    (v8583.serveFailing [.read 0x48 0x00 2] (.read 0x48 0x01 2)).1 = .readOk [0x85, 0x83] := by decide

/-- W-E9's last answer: V keeps 0x8583. -/
theorem test_named_write_fails :
    (v8583.serveFailing [.write 0x48 0x01 [0xD5, 0x83]] (.write 0x48 0x01 [0xD5, 0x83])) = (.fail, v8583) := by decide

/-- W-E8 and W-E9 as premises: WRITE 1 of 5, its read named, or its write alone. -/
theorem witness_NamedRequestsFailUnderTheReferenceTransport :
    ({ base with wdata := 5 } : State).Inv ∧ base.fsm = .idle ∧ 1 < base.cfg.nDesc ∧ (base.dt 1).valid = true ∧
    (base.dt 1).ro = false ∧ (base.dt 1).fits 5 = true ∧
    Req.read base.devaddr (base.dt 1).addr (base.dt 1).width.toNat ∈ [Req.read 0x48 0x01 2] ∧
    Req.read base.devaddr (base.dt 1).addr (base.dt 1).width.toNat ∉ [Req.write 0x48 0x01 [0xD5, 0x83]] ∧
    Req.write base.devaddr (base.dt 1).addr
      (split ((base.dt 1).inject ((v8583.read base.devaddr (base.dt 1).addr).toNat % 2 ^ (8 * 2)) 5) 2) ∈
        [Req.write 0x48 0x01 [0xD5, 0x83]] :=
  ⟨⟨rfl, base_prog.1, base_prog.2, ⟨rfl, rfl⟩⟩, by decide⟩

/-- An unsigned field at its largest value; the signed field at the ends of each of its ranges. -/
theorem witness_WriteThenReadRoundTrips :
    ({ base with wdata := 7 } : State).Inv ∧ base.fsm = .idle ∧ v8583.wf = true ∧ 1 < base.cfg.nDesc ∧
    (base.dt 1).valid = true ∧ (base.dt 1).ro = false ∧ (base.dt 1).fits 7 = true ∧ (base.dt 1).signed = false ∧
    9 < base.cfg.nDesc ∧ (base.dt 9).valid = true ∧ (base.dt 9).ro = false ∧ (base.dt 9).signed = true ∧
    ([0x7FF, 0x800, 0xFFF, 0xFFFFF800, 0xFFFFFFFF].map (base.dt 9).fits) = [true, true, true, true, true] ∧
    (base.dt 2).mask &&& (base.dt 1).mask = 0 :=
  ⟨⟨rfl, base_prog.1, base_prog.2, ⟨rfl, rfl⟩⟩, by decide⟩

/-- A READ of an invalid entry, accepted, with a `CMD` write dropped before the Engine ends it with DESC_INVALID. -/
theorem witness_FailedCommandsArePrecise :
    ∃ s t : State, s.Inv ∧ s.fsm = .idle ∧ s.turns = .host (.write 0x00#8 0xE01#32) :: [.host (.write 0 5), .engine] ∧
      Host.Core.run Sys2Proof.core 3 s = .next t ∧
      (∀ k u, 0 < k → k < 3 → Host.Core.run Sys2Proof.core k s = .next u → u.fsm ≠ .idle) ∧ t.fsm = .idle ∧
      t.err ≠ .noError ∧ .reset ∉ ([.host (.write 0 5), .engine] : List Turn).take 2 ∧
      ∀ u ∈ ([.host (.write 0 5), .engine] : List Turn).take 2, ¬u.writesReg 4 := by
  refine ⟨{ base with turns := [.host (.write 0 0xE01), .host (.write 0 5), .engine] }, _,
    ⟨rfl, base_prog.1, base_prog.2, ⟨rfl, rfl⟩⟩, rfl, rfl, rfl, ?_, rfl, nofun, by decide, ?_⟩
  · intro k u h0 h3 hu
    interval_cases k <;> cases hu <;> decide
  · rintro u hu ⟨off, v, rfl, h⟩
    simp only [List.take_succ_cons, List.take_zero, List.mem_cons, Turn.host.injEq, HostAccess.write.injEq,
      List.not_mem_nil, reduceCtorEq, or_false] at hu
    rw [hu.1] at h
    exact absurd h (by decide)

/-- The Transport answers a READ with `Fail`; from then on the Host polls `STATUS` and the Engine has a turn, for ever. -/
def pollSched : Nat → Turn
  | 0 => .transport .fail
  | n + 1 => if n % 2 = 0 then .host (.read 0x04) else .engine

/-- The run from `s` under a schedule; it rests where a step does not go on. -/
def runFrom (sched : Nat → Turn) (s : State) : Nat → State
  | 0 => s
  | n + 1 => (nextOf (agentStep (sched n) (runFrom sched s n))).getD (runFrom sched s n)

theorem runFrom_next {sched : Nat → Turn} {s t : State} {n : Nat}
    (h : agentStep (sched n) (runFrom sched s n) = .next t) : runFrom sched s (n + 1) = t := by
  simp [runFrom, nextOf, h]

/-- The run of READ 9 under `pollSched`. -/
abbrev pollRun : Nat → State := runFrom pollSched (asks 0x901 0 (.read 0x48 0x00 2) .engine)

theorem pollSched_later (n : Nat) : pollSched (n + 1) = .host (.read 0x04) ∨ pollSched (n + 1) = .engine := by
  by_cases h : n % 2 = 0
  · exact .inl (if_pos h)
  · exact .inr (if_neg h)

theorem pollRun_next {n : Nat} {t : State} (h : agentStep (pollSched n) (pollRun n) = .next t) : pollRun (n + 1) = t :=
  runFrom_next h

/-- At rest a Host's read and the Engine's turn go on, and leave the block at rest. -/
theorem rest_goes_on {s : State} {u : Turn} (hu : u = .host (.read 0x04) ∨ u = .engine) (hf : s.fsm = .idle)
    (hq : s.treq = none) : ∃ t, agentStep u s = .next t ∧ t.fsm = .idle ∧ t.treq = none := by
  rcases hu with rfl | rfl
  · exact ⟨_, rfl, hf, hq⟩
  · exact ⟨s, by simp [agentStep, engineStep, hf], hf, hq⟩

theorem pollRun_rest (n : Nat) : (pollRun (n + 3)).fsm = .idle ∧ (pollRun (n + 3)).treq = none := by
  induction n with
  | zero => exact ⟨rfl, rfl⟩
  | succ n ih =>
    obtain ⟨t, h, hf, hq⟩ := rest_goes_on (pollSched_later (n + 2)) ih.1 ih.2
    rw [pollRun_next h]
    exact ⟨hf, hq⟩

theorem pollRun_endless : EndlessRun pollSched pollRun := by
  intro n
  match n with
  | 0 => rfl
  | 1 => rfl
  | 2 => rfl
  | n + 3 =>
    obtain ⟨t, h, _⟩ := rest_goes_on (pollSched_later (n + 2)) (pollRun_rest n).1 (pollRun_rest n).2
    rw [h, pollRun_next h]

theorem pollSched_fair : WeaklyFair pollSched pollRun := by
  intro n _
  refine ⟨2 * n + 2, by omega, ?_⟩
  simp [pollSched]

/-- The Host polls for ever; the request is answered, and the command ends. -/
theorem witness_FairEndlessRunsEndTheirCommands :
    EndlessRun pollSched pollRun ∧ WeaklyFair pollSched pollRun ∧ (pollRun 0).Inv ∧ (pollRun 0).fsm ≠ .idle ∧
    (pollRun 0).treq ≠ none ∧ (∀ m ≥ 0, (pollRun m).treq ≠ none → ∃ k ≥ m, (pollRun k).treq = none) :=
  ⟨pollRun_endless, pollSched_fair, (test_read_waiting_Inv .engine).1, nofun, nofun,
    fun m _ _ => ⟨m + 3, by omega, (pollRun_rest m).2⟩⟩

/-- A READ whose request nobody answers, the Host polling every second step; and the block at rest. -/
theorem witness_NeitherTransportNorHostIsFair :
    (asks 0x901 0 (.read 0x48 0x00 2) .engine).fsm = .rdWait ∧ (asks 0x901 0 (.read 0x48 0x00 2) .engine).trsp = none ∧
    (∀ n, pollSched (n + 1) = .engine ∨ ∃ a, pollSched (n + 1) = .host a) ∧ base.quiescent :=
  ⟨rfl, rfl, fun n => (pollSched_later n).symm.imp id fun h => ⟨_, h⟩, rfl, rfl, rfl⟩

/-- The first three turns listed, and one step past the end of the list, where the Engine's turn is next. -/
theorem witness_EndlessRunsAreRunsOfTheMachine :
    EndlessRun pollSched pollRun ∧
    (∀ k < 3, pollSched k = ([.transport .fail, .host (.read 0x04), .engine] : List Turn).getD k .engine) ∧
    (∀ k < 3, pollSched k = ([.transport .fail, .host (.read 0x04)] : List Turn).getD k .engine) :=
  ⟨pollRun_endless, by decide, by decide⟩

/-- `fread conv` with the answer of the vector R-3, every agent's step in its place, and then the Engine's turns alone. -/
def freadSched : Nat → Turn
  | 0 => .host (.write 0x00 0x901)
  | 1 => .engine
  | 2 => .transport (.readOk [0x80, 0x00])
  | 3 => .engine
  | 4 => .host (.read 0x04)
  | 5 => .host (.read 0x14)
  | _ + 6 => .engine

/-- The run of `fread conv` under `freadSched`. -/
abbrev freadRun : Nat → State := runFrom freadSched base

/-- What the Host sees is what `fread conv` may see, and R-3's end state: `STATUS` 0x00000004, `RDATA` 0xFFFFF800. -/
theorem test_fread_sees_the_vectors_end_state :
    hostSees freadSched freadRun 6 =
      [.wrote 0x00 0x901, .got 0x04 0x00000004, .got 0x14 0xFFFFF800] ∧
    stmtsSee (Pseudo.fread 9).expand (hostSees freadSched freadRun 6) = true ∧
    stmtsSee (Pseudo.fread 9).expand (hostSees freadSched freadRun 5) = false := by decide

/-- Past the Host's last step the Engine's turns leave the block as it is. -/
theorem freadRun_next {n : Nat} (h : (freadRun (n + 6)).fsm = .idle) : freadRun (n + 7) = freadRun (n + 6) :=
  runFrom_next (by simp [freadSched, agentStep, engineStep, h])

theorem freadRun_rest (n : Nat) : (freadRun (n + 6)).quiescent := by
  induction n with
  | zero => exact ⟨rfl, rfl, rfl⟩
  | succ n ih => rwa [Nat.add_right_comm n 1 6, freadRun_next ih.1]

theorem freadRun_endless : EndlessRun freadSched freadRun := by
  intro n
  match n with
  | 0 => rfl
  | 1 => rfl
  | 2 => rfl
  | 3 => rfl
  | 4 => rfl
  | 5 => rfl
  | n + 6 =>
    rw [freadRun_next (freadRun_rest n).1]
    simp [freadSched, agentStep, engineStep, (freadRun_rest n).1]

theorem freadSched_done : HostDone freadSched 6 := by
  intro m hm a
  obtain ⟨k, rfl⟩ := Nat.exists_eq_add_of_le' hm
  exact nofun

/-- The command is accepted by the step 0 and ends with the step 3, and the run has ended with the Host's step 5. -/
theorem witness_FairAnsweredRunsEnd :
    EndlessRun freadSched freadRun ∧ WeaklyFair freadSched freadRun ∧ (freadRun 0).Inv ∧
    (∀ m ≥ 0, (freadRun m).treq ≠ none → ∃ k ≥ m, (freadRun k).treq = none) ∧ (freadRun 2).treq ≠ none ∧
    CommandEnded freadSched freadRun 0 4 ∧ HostDone freadSched 6 ∧
    stmtsSee (Pseudo.fread 9).expand (hostSees freadSched freadRun 6) = true := by
  refine ⟨freadRun_endless, fun n _ => ⟨n + 6, by omega, rfl⟩, ⟨rfl, base_prog.1, base_prog.2, ⟨rfl, rfl⟩⟩,
    fun m _ _ => ⟨m + 6, by omega, (freadRun_rest m).2.1⟩, nofun, ⟨⟨rfl, _, _, rfl, rfl⟩, by omega, rfl, ?_⟩,
    freadSched_done, test_fread_sees_the_vectors_end_state.2.1⟩
  intro k h0 h4
  interval_cases k <;> decide

/-- With no Reset in it, as the second clause asks, and none while the command is in progress. -/
theorem witness_EndedRunsStayEnded :
    EndlessRun freadSched freadRun ∧ RunEnded freadSched freadRun 6 ∧ (∀ k, 6 ≤ k → k < 9 → freadSched k ≠ .reset) ∧
    ¬(freadRun 3).quiescent := by
  refine ⟨freadRun_endless, ⟨freadSched_done, freadRun_rest 0⟩, fun k h6 h9 => ?_, fun h => absurd h.1 nofun⟩
  interval_cases k <;> decide

/-- `fread` polls before its last read. -/
theorem witness_ProgramsThatPollLastEndWithTheirLastAccess :
    EndlessRun freadSched freadRun ∧ (freadRun 0).Inv ∧ (∀ v : Word, HostStmt.wr .cmd v ∉ [HostStmt.rd .rdata]) ∧
    (Pseudo.fread 9).expand = [.cmd (.read 9)] ++ .poll :: [.rd .rdata] ∧
    stmtsSee ([.cmd (.read 9)] ++ .poll :: [.rd .rdata]) (hostSees freadSched freadRun 6) = true ∧
    HostDone freadSched 6 :=
  ⟨freadRun_endless, ⟨rfl, base_prog.1, base_prog.2, ⟨rfl, rfl⟩⟩, nofun, rfl,
    test_fread_sees_the_vectors_end_state.2.1, freadSched_done⟩

/-- The value of the canonical form of a write of the value an unlisted register reads as. -/
theorem test_memory_write_zero_removes : v8583.write 0x48 0x01 0 = Memory.zero := by decide

/-- The bit a host program's poll ends on (R79), and what a pseudo-instruction returns. -/
theorem test_poll_ends_at_the_first_idle_status :
    stmtsSee (Pseudo.fread 9).expand
      [.wrote 0x00 0x901, .got 0x04 1, .got 0x04 4, .got 0x14 0xFFFFF801] = true ∧
    pseudoResult [.wrote 0x00 0x901, .got 0x04 1, .got 0x04 4, .got 0x14 0xFFFFF801] =
      (some 0xFFFFF801#32, some 0#4) := by decide

end Sys2Proof.Tests
end

section
/-! PROOFS. The decoder's fields, what one Engine step can do, and the invariant `State.Inv` of every reached state. -/

namespace Sys2Proof.Machine

open Sys2Proof

/-! ### The fields of a word that decodes, and of a valid entry -/

/-- A word that decodes carries the command's OP and IDX (R70, R76). -/
theorem decode_fields {w : Word} {i : Instr} (h : decode w = .ok i) :
    cmdOp w = i.opcode ∧ (cmdIdx w).toNat = i.idx := by
  unfold decode at h
  split at h
  · cases h
  · split at h <;> cases h <;> exact ⟨BitVec.eq_of_toNat_eq ‹_›, rfl⟩

/-- The four construction checks (R135). -/
theorem Desc.constructOk_iff (c : Config) (e : Desc) :
    e.constructOk c = true ↔ 1 ≤ e.n ∧ 1 ≤ e.w ∧ e.w ≤ c.rwMax ∧ e.low + e.n ≤ 8 * e.w := by
  simp [Desc.constructOk, and_assoc]

/-- Every fixed entry passes the construction checks for legal parameters (R130, R131). -/
theorem fixedEntry_constructOk {c : Config} (hc : c.legal = true) {i : Nat} (hi : i < nFixed) :
    (fixedEntry c i).constructOk c = true := by
  have hrw : 2 ≤ c.rwMax := (legal_bounds hc).1
  unfold nFixed at hi
  rw [Desc.constructOk_iff]
  interval_cases i <;> simp [fixedEntry, fixedField, Desc.n, Desc.w, Desc.low] <;> omega

/-! ### What one Engine step can do (R158, R159) -/

/-- The next states of one Engine step, each with its guard. In the waiting states the command is told by `L.op`, as
the Engine tells it (R159). -/
inductive EngineEffect (s : State) : State → Prop where
  /-- The Engine has no step (R159, log 3, log 13). -/
  | rests : s.fsm ≠ .pending → (s.fsm = .rdWait → s.trsp = none ∨ s.latch.op ≠ 1#4 ∧ s.latch.op ≠ 2#4) →
      (s.fsm = .wrWait → s.trsp = none ∨ s.latch.op ≠ 2#4) → EngineEffect s s
  /-- A check of the execute step fails, or the word is illegal (R172, R173). -/
  | rejects (e : Err) : s.fsm = .pending → e ≠ .noError → EngineEffect s (s.raise e)
  /-- DEFINE stores the latched descriptor (R134). -/
  | defines (idx : Nat) : s.fsm = .pending → decode s.latch.word = .ok (.define idx) → idx < s.cfg.nDesc →
      nFixed ≤ idx → (Desc.ofWord s.latch.desc).constructOk s.cfg = true →
      EngineEffect s (s.setDt idx (Desc.ofWord s.latch.desc)).complete
  /-- UNDEFINE clears an entry (R136). -/
  | undefines (idx : Nat) : s.fsm = .pending → decode s.latch.word = .ok (.undefine idx) → idx < s.cfg.nDesc →
      nFixed ≤ idx → EngineEffect s (s.setDt idx Desc.empty).complete
  /-- QUERY copies an entry into `DESC_DATA` (R137). -/
  | queries (idx : Nat) : s.fsm = .pending → decode s.latch.word = .ok (.query idx) → idx < s.cfg.nDesc →
      EngineEffect s (s.setDescData (s.dt idx).pack).complete
  /-- READ or WRITE, its checks passed, issues the read transaction (R107, R108). -/
  | issuesRead (idx : Nat) : s.fsm = .pending →
      (decode s.latch.word = .ok (.read idx) ∧ s.readable idx ∨
        decode s.latch.word = .ok (.write idx) ∧ s.writable idx) →
      EngineEffect s (s.issue .rdWait (s.readReq (s.dt idx)))
  /-- The Transport answered `Fail` (R107, R108). -/
  | fails : s.fsm = .rdWait ∨ s.fsm = .wrWait → s.trsp = some .fail → EngineEffect s (s.consume.raise .transport)
  /-- READ takes the value it read (R107). -/
  | readsValue (b : List Byte) : s.fsm = .rdWait → s.latch.op = 1#4 → s.trsp = some (.readOk b) →
      EngineEffect s
        (s.consume.setResult ((s.dt s.latch.idx).result
          ((s.dt s.latch.idx).extract (assemble b (s.dt s.latch.idx).w))) (s.dt s.latch.idx).signed).complete
  /-- WRITE injects the field into the value it read and issues the write transaction (R108). -/
  | issuesWrite (b : List Byte) : s.fsm = .rdWait → s.latch.op = 2#4 → s.trsp = some (.readOk b) →
      EngineEffect s
        (s.consume.issue .wrWait (s.writeReq (s.dt s.latch.idx)
          ((s.dt s.latch.idx).inject (assemble b (s.dt s.latch.idx).w) s.latch.wdata)))
  /-- WRITE's write was answered (R108). -/
  | writesValue : s.fsm = .wrWait → s.latch.op = 2#4 → s.trsp = some .writeOk → EngineEffect s s.consume.complete

/-- The execute step of any command has one of the stated effects (R158). -/
theorem exec_effect_of_pending {i : Instr} {s t : State} (hf : s.fsm = .pending) (hd : decode s.latch.word = .ok i)
    (h : exec i s = .next t) : EngineEffect s t := by
  cases i with
  | read idx =>
    obtain rfl : readExecute idx s = t := by simpa [exec, execRead, hf] using h
    obtain ⟨_, ht⟩ | ⟨_, _, ht⟩ | ⟨hi, hv, ht⟩ := readExecute_cases idx s <;> rw [ht]
    · exact .rejects _ hf nofun
    · exact .rejects _ hf nofun
    · exact .issuesRead idx hf (.inl ⟨hd, hi, hv⟩)
  | write idx =>
    obtain rfl : writeExecute idx s = t := by simpa [exec, execWrite, hf] using h
    obtain ⟨e, he, ht⟩ | ⟨hi, hv, hro, hfit, ht⟩ := writeExecute_cases idx s <;> rw [ht]
    · exact .rejects e hf (by rintro rfl; simp at he)
    · exact .issuesRead idx hf (.inr ⟨hd, ⟨hi, hv⟩, hro, hfit⟩)
  | define idx =>
    obtain rfl : defineExecute idx s = t := by simpa [exec, execDefine_eq, hf] using h
    obtain ⟨e, he, ht⟩ | ⟨hi, hp, hok, ht⟩ := defineExecute_cases idx s <;> rw [ht]
    · exact .rejects e hf (by rintro rfl; simp at he)
    · exact .defines idx hf hd hi hp hok
  | undefine idx =>
    obtain rfl : undefineExecute idx s = t := by simpa [exec, execUndefine_eq, hf] using h
    obtain ⟨e, he, ht⟩ | ⟨hi, hp, ht⟩ := undefineExecute_cases idx s <;> rw [ht]
    · exact .rejects e hf (by rintro rfl; simp at he)
    · exact .undefines idx hf hd hi hp
  | query idx =>
    obtain rfl : queryExecute idx s = t := by simpa [exec, execQuery_eq, hf] using h
    obtain ⟨_, ht⟩ | ⟨hi, ht⟩ := queryExecute_cases idx s <;> rw [ht]
    · exact .rejects _ hf nofun
    · exact .queries idx hf hd hi

/-- READ's answer step has one of the stated effects (R159). -/
theorem execRead_effect_of_waiting {s t : State} (hf : s.fsm ≠ .pending) (hop : s.latch.op = 1#4)
    (h : execRead s.latch.idx s = .next t) : EngineEffect s t := by
  obtain ⟨hp, _⟩ | ⟨hr, ha, rfl⟩ | ⟨hr, b, ha, rfl⟩ | ⟨_, hn, rfl⟩ := execRead_next h
  · exact absurd hp hf
  · exact .fails (.inl hr) ha
  · exact .readsValue b hr hop ha
  · exact .rests hf (fun hr => .inl (hn hr)) (fun _ => .inr (by simp [hop]))

/-- WRITE's answer steps have one of the stated effects (R159). -/
theorem execWrite_effect_of_waiting {s t : State} (hf : s.fsm ≠ .pending) (hop : s.latch.op = 2#4)
    (h : execWrite s.latch.idx s = .next t) : EngineEffect s t := by
  obtain ⟨hp, _⟩ | ⟨hw, ha, rfl⟩ | ⟨hr, b, ha, rfl⟩ | ⟨hw, ha, rfl⟩ | ⟨_, hn, rfl⟩ := execWrite_next h
  · exact absurd hp hf
  · exact .fails hw ha
  · exact .issuesWrite b hr hop ha
  · exact .writesValue hw hop ha
  · exact .rests hf (fun hr => .inl (hn (.inl hr))) (fun hw => .inl (hn (.inr hw)))

/-- If the Engine's step answers a next state, it is one of the stated effects (R158, R159). -/
theorem engineStep_effect {s t : State} (h : engineStep s = .next t) : EngineEffect s t := by
  have not_pending (hw : s.fsm = .rdWait ∨ s.fsm = .wrWait) : s.fsm ≠ .pending := by
    rcases hw with hw | hw <;> simp [hw]
  obtain ⟨hf, rfl⟩ | ⟨hf, i, hd, he⟩ | ⟨hf, _, rfl⟩ | ⟨hw, hn, rfl⟩ | ⟨hw, _, hop, he⟩ | ⟨hw, _, hop, he⟩ |
    ⟨hw, h1, h2, rfl⟩ := engineStep_next h
  · exact .rests (by simp [hf]) (by simp [hf]) (by simp [hf])
  · exact exec_effect_of_pending hf hd he
  · exact .rejects _ hf nofun
  · exact .rests (not_pending hw) (fun _ => .inl hn) (fun _ => .inl hn)
  · exact execRead_effect_of_waiting (not_pending hw) hop he
  · exact execWrite_effect_of_waiting (not_pending hw) hop he
  · exact .rests (not_pending hw) (fun _ => .inr ⟨h1, h2⟩) (fun _ => .inr h2)

/-! ### The transitions of the Engine state (R34) -/

/-- `STATUS` shows BUSY in bit 0 (R25, R151). -/
theorem State.status_bit_zero (s : State) : s.status.getLsbD 0 = s.busy := by
  simp only [State.status, BitVec.getLsbD_append]
  simp

/-- An Engine step keeps the Engine state or makes one of the transitions that R34 gives the Engine. -/
theorem EngineEffect.fsm_cases {s t : State} (h : EngineEffect s t) :
    t.fsm = s.fsm ∨
    (s.fsm = .pending ∧ (t.fsm = .idle ∨ t.fsm = .rdWait)) ∨
    (s.fsm = .rdWait ∧ s.trsp ≠ none ∧ (t.fsm = .idle ∨ t.fsm = .wrWait)) ∨
    (s.fsm = .wrWait ∧ s.trsp ≠ none ∧ t.fsm = .idle) := by
  cases h with
  | rests => exact .inl rfl
  | rejects _ hf => exact .inr (.inl ⟨hf, .inl rfl⟩)
  | defines _ hf => exact .inr (.inl ⟨hf, .inl rfl⟩)
  | undefines _ hf => exact .inr (.inl ⟨hf, .inl rfl⟩)
  | queries _ hf => exact .inr (.inl ⟨hf, .inl rfl⟩)
  | issuesRead _ hf => exact .inr (.inl ⟨hf, .inr rfl⟩)
  | fails hw ha =>
    have ha' : s.trsp ≠ none := by simp [ha]
    rcases hw with hr | hw
    · exact .inr (.inr (.inl ⟨hr, ha', .inl rfl⟩))
    · exact .inr (.inr (.inr ⟨hw, ha', rfl⟩))
  | readsValue _ hr _ ha => exact .inr (.inr (.inl ⟨hr, by simp [ha], .inl rfl⟩))
  | issuesWrite _ hr _ ha => exact .inr (.inr (.inl ⟨hr, by simp [ha], .inr rfl⟩))
  | writesValue hw _ ha => exact .inr (.inr (.inr ⟨hw, by simp [ha], rfl⟩))

/-- A Host step keeps the Engine state, or is the acceptance of a command (R34, R153). -/
theorem State.hostStep_fsm_cases (s : State) (a : HostAccess) :
    (s.hostStep a).fsm = s.fsm ∨
    (s.fsm = .idle ∧ (s.hostStep a).fsm = .pending ∧ ∃ off v, a = .write off v ∧ off.toNat / 4 = 0) := by
  cases a with
  | read off => exact .inl rfl
  | write off v =>
    simp only [State.hostStep]
    obtain ⟨hs, hf, ht⟩ | ⟨_, _, ht⟩ | ⟨_, _, ht⟩ | ⟨_, _, ht⟩ | ⟨_, ht⟩ | ⟨_, ht⟩ | ⟨_, ht⟩ | ⟨_, ht⟩ :=
      s.hostWrite_cases off v <;> rw [ht]
    · exact .inr ⟨hf, rfl, off, v, rfl, by rw [← hostSelect_eq, hs]⟩
    all_goals exact .inl rfl

/-- Settles O9: the Engine's transitions are those of its effects, the Host's the acceptance of a command, Reset's the
return to IDLE, and the Transport makes none. -/
theorem engineMakesOnlyTheStatedTransitions : Obligations.EngineMakesOnlyTheStatedTransitions := by
  refine ⟨fun s => s.status_bit_zero, rfl, fun s t h hne => ?_⟩
  obtain ⟨hs, he⟩ | ⟨ts, hs, he⟩ | ⟨a, ts, hs, rfl⟩ | ⟨rsp, ts, _, he⟩ | ⟨ts, hs, rfl⟩ := step_next h
  · exact .inr (.inr ⟨.inl hs, (engineStep_effect he).fsm_cases.resolve_left hne⟩)
  · exact .inr (.inr ⟨.inr ⟨ts, hs⟩, (engineStep_effect he).fsm_cases.resolve_left hne⟩)
  · obtain ⟨hf, hp, off, v, rfl, ho⟩ := (State.hostStep_fsm_cases _ a).resolve_left hne
    exact .inr (.inl ⟨hf, hp, off, v, ts, hs, ho⟩)
  · obtain ⟨_, _, _, _, rfl⟩ := transportStep_next he
    exact absurd rfl hne
  · exact .inl ⟨rfl, ts, hs⟩

/-! ### The channel in each Engine state (R36) -/

theorem State.channelOk_of_idle {s : State} (hf : s.fsm = .idle) :
    s.channelOk ↔ s.treq = none ∧ s.trsp = none := by
  simp [State.channelOk, hf]

theorem State.channelOk_of_pending {s : State} (hf : s.fsm = .pending) :
    s.channelOk ↔ s.treq = none ∧ s.trsp = none := by
  simp [State.channelOk, hf]

theorem State.channelOk_of_rdWait {s : State} (hf : s.fsm = .rdWait) :
    s.channelOk ↔ ∃ i, (decode s.latch.word = .ok (.read i) ∧ s.readable i ∨
      decode s.latch.word = .ok (.write i) ∧ s.writable i) ∧ s.awaits (s.readReq (s.dt i)) := by
  simp [State.channelOk, hf]

theorem State.channelOk_of_wrWait {s : State} (hf : s.fsm = .wrWait) :
    s.channelOk ↔ ∃ i r, decode s.latch.word = .ok (.write i) ∧ s.writable i ∧
      s.awaits (s.writeReq (s.dt i) r) := by
  simp [State.channelOk, hf]

/-- A waiting Engine awaits some request: what the channel holds belongs to it (R36). -/
theorem State.channelOk.awaits_of_waiting {s : State} (h : s.channelOk) (hw : s.fsm = .rdWait ∨ s.fsm = .wrWait) :
    ∃ req, s.awaits req := by
  rcases hw with hf | hf
  · obtain ⟨_, _, ha⟩ := (State.channelOk_of_rdWait hf).mp h
    exact ⟨_, ha⟩
  · obtain ⟨_, _, _, _, ha⟩ := (State.channelOk_of_wrWait hf).mp h
    exact ⟨_, ha⟩

/-- The Engine waits, or the channel is empty (R36). -/
theorem State.channelOk.waiting_or_empty {s : State} (h : s.channelOk) :
    (s.fsm = .rdWait ∨ s.fsm = .wrWait) ∨ (s.treq = none ∧ s.trsp = none) := by
  cases hf : s.fsm with
  | idle => exact .inr ((State.channelOk_of_idle hf).mp h)
  | pending => exact .inr ((State.channelOk_of_pending hf).mp h)
  | rdWait => exact .inl (.inl rfl)
  | wrWait => exact .inl (.inr rfl)

/-- At most one slot of the channel is filled (R36). -/
theorem State.channelOk.one_slot_empty {s : State} (h : s.channelOk) : s.treq = none ∨ s.trsp = none := by
  obtain hw | ⟨hq, _⟩ := h.waiting_or_empty
  · obtain ⟨_, ⟨_, hr⟩ | ⟨hq, _⟩⟩ := h.awaits_of_waiting hw
    · exact .inr hr
    · exact .inl hq
  · exact .inl hq

/-- With an answer in the channel, the request slot is empty (R36). -/
theorem State.channelOk.treq_eq_none {s : State} (h : s.channelOk) {rsp : Rsp} (hr : s.trsp = some rsp) :
    s.treq = none :=
  h.one_slot_empty.resolve_right (by simp [hr])

/-- The Transport's answer to the request that is awaited: the channel holds it as an answer (R52). -/
theorem State.awaits.answer {s : State} {req : Req} {rsp : Rsp} (h : s.awaits req) {req' : Req}
    (hq : s.treq = some req') (ha : req'.admits rsp = true) : (s.answer rsp).awaits req := by
  obtain ⟨hq', _⟩ | ⟨hq', _⟩ := h
  · obtain rfl : req' = req := by simpa [hq] using hq'
    exact .inr ⟨rfl, rsp, rfl, ha⟩
  · simp [hq] at hq'

/-- A latched word with WRITE's OP, in RD_WAIT, is a WRITE's whose checks have passed (R35, R108). -/
theorem State.channelOk.write_of_rdWait {s : State} (h : s.channelOk) (hf : s.fsm = .rdWait)
    (hop : s.latch.op = 2#4) : decode s.latch.word = .ok (.write s.latch.idx) ∧ s.writable s.latch.idx := by
  obtain ⟨i, ⟨hd, _⟩ | ⟨hd, hw⟩, _⟩ := (State.channelOk_of_rdWait hf).mp h
  · have : cmdOp s.latch.word = 1#4 := (decode_fields hd).1
    simp [Latch.op, this] at hop
  · obtain rfl : s.latch.idx = i := (decode_fields hd).2
    exact ⟨hd, hw⟩

/-! ### The invariant of every reached state -/

theorem Desc.empty_entryOk (c : Config) : Desc.empty.entryOk c := .inl rfl

/-- Replacing a programmable entry by an all-zero or checked one keeps every entry so (R33). -/
theorem progOk_set {c : Config} {l : List Desc} (h : ∀ e ∈ l, e.entryOk c) (k : Nat) {e : Desc} (he : e.entryOk c) :
    ∀ e' ∈ l.set k e, e'.entryOk c := by
  intro e' hm
  obtain hm | rfl := List.mem_or_eq_of_mem_set hm
  · exact h e' hm
  · exact he

/-- The reset state under legal parameters satisfies the invariant (R191). -/
theorem State.resetOf_inv {c : Config} (hc : c.legal = true) : (State.resetOf c).Inv where
  cfgLegal := hc
  progLength := List.length_replicate
  progOk e he := by
    obtain rfl := List.eq_of_mem_replicate he
    exact Desc.empty_entryOk c
  channel := ⟨rfl, rfl⟩

/-- The invariant says nothing of the turns to come. -/
theorem State.Inv.withTurns {s : State} (h : s.Inv) (ts : List Turn) : ({ s with turns := ts } : State).Inv :=
  ⟨h.cfgLegal, h.progLength, h.progOk, h.channel⟩

/-- A state with the same parameters and table keeps the invariant where its channel agrees with its Engine. -/
theorem State.Inv.of_same_table {s t : State} (h : s.Inv) (hc : t.cfg = s.cfg) (hp : t.prog = s.prog)
    (hch : t.channelOk) : t.Inv :=
  ⟨hc ▸ h.cfgLegal, by rw [hp, hc]; exact h.progLength, by rw [hp, hc]; exact h.progOk, hch⟩

/-- The write of a programmable entry by DEFINE or UNDEFINE keeps the invariant (R134, R136). -/
theorem State.Inv.setDt_complete {s : State} (h : s.Inv) (hf : s.fsm = .pending) (idx : Nat) {e : Desc}
    (he : e.entryOk s.cfg) : (s.setDt idx e).complete.Inv where
  cfgLegal := h.cfgLegal
  progLength := by simpa using h.progLength
  progOk := progOk_set h.progOk _ he
  channel := (State.channelOk_of_pending hf).mp h.channel

/-- An Engine step keeps the invariant. -/
theorem State.Inv.engine {s t : State} (h : s.Inv) (he : EngineEffect s t) : t.Inv := by
  have hch := h.channel
  cases he with
  | rests => exact h
  | rejects e => exact h.of_same_table rfl rfl ⟨rfl, rfl⟩
  | defines idx hf _ _ _ hok => exact h.setDt_complete hf idx (.inr ⟨rfl, hok⟩)
  | undefines idx hf => exact h.setDt_complete hf idx (Desc.empty_entryOk _)
  | queries idx hf => exact h.of_same_table rfl rfl ((State.channelOk_of_pending hf).mp hch)
  | issuesRead idx hf hd =>
    obtain ⟨_, hr⟩ := (State.channelOk_of_pending hf).mp hch
    exact h.of_same_table rfl rfl ⟨idx, hd, .inl ⟨rfl, hr⟩⟩
  | fails => exact h.of_same_table rfl rfl ⟨rfl, rfl⟩
  | readsValue b _ _ ha => exact h.of_same_table rfl rfl ⟨hch.treq_eq_none ha, rfl⟩
  | issuesWrite b hf hop ha =>
    obtain ⟨hd, hw⟩ := hch.write_of_rdWait hf hop
    exact h.of_same_table rfl rfl ⟨s.latch.idx, _, hd, hw, .inl ⟨rfl, rfl⟩⟩
  | writesValue _ _ ha => exact h.of_same_table rfl rfl ⟨hch.treq_eq_none ha, rfl⟩

/-- A Host step keeps the invariant: acceptance finds the channel empty, and no other access touches it. -/
theorem State.Inv.host {s : State} (h : s.Inv) (a : HostAccess) : (s.hostStep a).Inv := by
  cases a with
  | read off => exact h.of_same_table rfl rfl h.channel
  | write off v =>
    simp only [State.hostStep]
    obtain ⟨_, hf, ht⟩ | ⟨_, _, ht⟩ | ⟨_, _, ht⟩ | ⟨_, _, ht⟩ | ⟨_, ht⟩ | ⟨_, ht⟩ | ⟨_, ht⟩ | ⟨_, ht⟩ :=
      s.hostWrite_cases off v <;> rw [ht]
    · exact h.of_same_table rfl rfl ((State.channelOk_of_idle hf).mp h.channel)
    all_goals exact h.of_same_table rfl rfl h.channel

/-- A Transport step keeps the invariant: the answer takes the place of the request it answers (R52). -/
theorem State.Inv.transport {s t : State} {rsp : Rsp} (h : s.Inv) (ht : transportStep rsp s = .next t) : t.Inv := by
  obtain ⟨req, hq, _, ha, rfl⟩ := transportStep_next ht
  obtain (hf | hf) | ⟨hn, _⟩ := h.channel.waiting_or_empty
  · obtain ⟨i, hd, haw⟩ := (State.channelOk_of_rdWait hf).mp h.channel
    exact h.of_same_table rfl rfl ((State.channelOk_of_rdWait (s := s.answer rsp) hf).mpr ⟨i, hd, haw.answer hq ha⟩)
  · obtain ⟨i, r, hd, hw, haw⟩ := (State.channelOk_of_wrWait hf).mp h.channel
    exact h.of_same_table rfl rfl
      ((State.channelOk_of_wrWait (s := s.answer rsp) hf).mpr ⟨i, r, hd, hw, haw.answer hq ha⟩)
  · simp [hq] at hn

/-- A Reset step brings the invariant of the reset state (R190, R191). -/
theorem State.Inv.hwReset {s : State} (h : s.Inv) : s.hwReset.Inv :=
  (State.resetOf_inv h.cfgLegal).of_same_table rfl rfl ⟨rfl, rfl⟩

/-- Every step of every agent keeps the invariant. -/
theorem State.Inv.step {s t : State} (h : s.Inv) (hs : step s = .next t) : t.Inv := by
  obtain ⟨_, he⟩ | ⟨ts, _, he⟩ | ⟨a, ts, _, rfl⟩ | ⟨rsp, ts, _, ht⟩ | ⟨ts, _, rfl⟩ := step_next hs
  · exact h.engine (engineStep_effect he)
  · exact (h.withTurns ts).engine (engineStep_effect he)
  · exact (h.withTurns ts).host a
  · exact (h.withTurns ts).transport ht
  · exact (h.withTurns ts).hwReset

/-- Every state a run reaches satisfies the invariant. -/
theorem Reached.inv {s : State} (h : Reached s) : s.Inv := by
  induction h with
  | reset c turns hc => exact (State.resetOf_inv hc).withTurns turns
  | step s t _ hs ih => exact ih.step hs

/-! ### R33 and R36 in every reached state -/

/-- Under the invariant a valid entry, fixed or programmable, passes the construction checks (R33). -/
theorem State.Inv.dt_constructOk {s : State} (h : s.Inv) {i : Nat} (hv : (s.dt i).valid = true) :
    (s.dt i).constructOk s.cfg = true := by
  by_cases hi : i < nFixed
  · rw [State.dt_fixed s hi]
    exact fixedEntry_constructOk h.cfgLegal hi
  · have hok : (s.dt i).entryOk s.cfg := by
      rw [State.dt_prog s (Nat.not_lt.mp hi), List.getD_eq_getElem?_getD]
      cases hg : s.prog[i - nFixed]? with
      | none => exact Desc.empty_entryOk _
      | some e => exact h.progOk e (List.mem_of_getElem? hg)
    obtain he | ⟨_, hc⟩ := hok
    · simp [he, Desc.empty] at hv
    · exact hc

/-- Settles O46, from the invariant of every reached state. -/
theorem everyValidEntryIsWellFormed : Obligations.EveryValidEntryIsWellFormed := fun s hs _ _ hv =>
  (Desc.constructOk_iff s.cfg _).mp (hs.inv.dt_constructOk hv)

/-- Settles O47, from the invariant of every reached state. -/
theorem channelHoldsAtMostOneTransaction : Obligations.ChannelHoldsAtMostOneTransaction := by
  refine ⟨fun s hs => ⟨hs.inv.channel.one_slot_empty, fun hfilled => ?_⟩, rfl, rfl⟩
  refine hs.inv.channel.waiting_or_empty.resolve_right fun ⟨hq, hr⟩ => ?_
  simp [hq, hr] at hfilled

end Sys2Proof.Machine
end

section
/-! PROOFS. The bytes of a register value: `assemble` and `split`, most significant byte first (R54, R55). -/

namespace Sys2Proof.Machine

open Sys2Proof

/-! ### One byte more -/

@[simp] theorem assemble_zero (b : List Byte) : assemble b 0 = 0 := rfl

theorem assemble_succ (b : List Byte) (w : Nat) :
    assemble b (w + 1) = (b.getD 0 0#8).toNat * 2 ^ (8 * w) + assemble b.tail w := by
  cases b <;> rfl

theorem assemble_cons (x : Byte) (b : List Byte) (w : Nat) :
    assemble (x :: b) (w + 1) = x.toNat * 2 ^ (8 * w) + assemble b w := rfl

theorem split_succ (r w : Nat) :
    split r (w + 1) = BitVec.ofNat 8 (r / 2 ^ (8 * w) % 256) :: split r w := rfl

/-- A byte more is worth a factor of 256. -/
theorem two_pow_bytes_succ (w : Nat) : 2 ^ (8 * (w + 1)) = 2 ^ (8 * w) * 256 := by
  rw [Nat.mul_succ, pow_add, show 2 ^ 8 = 256 from rfl]

/-! ### The value of a list of bytes (R54) -/

/-- The weighted sum of R54, for a list of any length: a missing byte counts 0, in both (log 15). -/
theorem assemble_eq_sum (b : List Byte) (w : Nat) :
    assemble b w = ∑ i ∈ Finset.range w, (b.getD i 0#8).toNat * 2 ^ (8 * (w - 1 - i)) := by
  induction w generalizing b with
  | zero => rfl
  | succ w ih =>
    have byte_tail (i : Nat) : b.tail.getD i 0#8 = b.getD (i + 1) 0#8 := by
      simp [List.getD_eq_getElem?_getD]
    have weight (i : Nat) : w - 1 - i = w - (i + 1) := by omega
    rw [Finset.sum_range_succ', assemble_succ, ih, add_comm]
    simp only [byte_tail, weight, Nat.add_sub_cancel, Nat.sub_zero]

theorem assemble_lt (b : List Byte) (w : Nat) : assemble b w < 2 ^ (8 * w) := by
  induction w generalizing b with
  | zero => simp
  | succ w ih =>
    have lead : ((b.getD 0 0#8).toNat + 1) * 2 ^ (8 * w) ≤ 256 * 2 ^ (8 * w) :=
      Nat.mul_le_mul_right _ (b.getD 0 0#8).isLt
    have rest : assemble b.tail w < 2 ^ (8 * w) := ih b.tail
    rw [assemble_succ, two_pow_bytes_succ]
    linarith

/-- Settles O22, from the sum and the bound, which need no length. -/
theorem assembleIsBigEndian : Obligations.AssembleIsBigEndian := fun b w _ =>
  ⟨assemble_eq_sum b w, assemble_lt b w⟩

/-! ### The bytes of a value (R55) -/

@[simp] theorem split_length (r w : Nat) : (split r w).length = w := by
  induction w with
  | zero => rfl
  | succ w ih => rw [split_succ, List.length_cons, ih]

theorem split_getD {w i : Nat} (r : Nat) (hi : i < w) :
    (split r w).getD i 0#8 = BitVec.ofNat 8 (r / 2 ^ (8 * (w - 1 - i)) % 256) := by
  induction w generalizing i with
  | zero => omega
  | succ w ih =>
    cases i with
    | zero => rfl
    | succ i =>
      have weight : w + 1 - 1 - (i + 1) = w - 1 - i := by omega
      rw [split_succ, List.getD_cons_succ, ih (by omega), weight]

/-- The bytes `split` takes of a value depend on its residue only. -/
theorem split_congr {r r' w : Nat} (h : r ≡ r' [MOD 2 ^ (8 * w)]) : split r w = split r' w := by
  induction w with
  | zero => rfl
  | succ w ih =>
    rw [two_pow_bytes_succ] at h
    have lead : r / 2 ^ (8 * w) % 256 = r' / 2 ^ (8 * w) % 256 := by
      rw [← Nat.mod_mul_right_div_self, h, Nat.mod_mul_right_div_self]
    rw [split_succ, split_succ, lead, ih (h.of_mul_right 256)]

/-! ### The two undo each other (R54, R55) -/

/-- Splitting keeps the low `w` bytes of any value, in range or not. -/
theorem assemble_split (r w : Nat) : assemble (split r w) w = r % 2 ^ (8 * w) := by
  induction w with
  | zero => simp [Nat.mod_one]
  | succ w ih =>
    rw [split_succ, assemble_cons, ih, BitVec.toNat_ofNat, Nat.mod_mod, two_pow_bytes_succ, Nat.mod_mul,
      mul_comm, add_comm]

theorem split_assemble (b : List Byte) : split (assemble b b.length) b.length = b := by
  induction b with
  | nil => rfl
  | cons x b ih =>
    have lead : (x.toNat * 2 ^ (8 * b.length) + assemble b b.length) / 2 ^ (8 * b.length) = x.toNat := by
      rw [mul_comm, Nat.mul_add_div (by positivity), Nat.div_eq_of_lt (assemble_lt b b.length), add_zero]
    have rest : x.toNat * 2 ^ (8 * b.length) + assemble b b.length ≡ assemble b b.length
        [MOD 2 ^ (8 * b.length)] := Nat.mul_add_mod_self_right ..
    rw [List.length_cons, assemble_cons, split_succ, lead, split_congr rest, ih, Nat.mod_eq_of_lt x.isLt,
      BitVec.ofNat_toNat, BitVec.setWidth_eq]

/-- Settles O23, from the byte formula and the two inverse laws. -/
theorem splitAndAssembleAreInverse : Obligations.SplitAndAssembleAreInverse := by
  refine ⟨fun r _ _ hi => split_getD r hi, split_length, fun r w hr => ?_, ?_⟩
  · rw [assemble_split, Nat.mod_eq_of_lt hr]
  · rintro b _ rfl
    exact split_assemble b

end Sys2Proof.Machine
end

section
/-! PROOFS. Illegal words (R73, R74): which they are, and that the block accepts each and ends it with ILLEGAL_CMD. -/

namespace Sys2Proof.Machine

open Sys2Proof

/-! ### Which words are illegal (R73, R74) -/

/-- The reserved bits of a word, as numbers (R73). -/
theorem reserved_iff (w : Word) :
    cmdRes0 w ≠ 0#4 ∨ cmdRes1 w ≠ 0#16 ↔ w.toNat / 16 % 16 ≠ 0 ∨ w.toNat / 65536 ≠ 0 := by
  simp only [ne_eq, BitVec.toNat_eq, cmdRes0_toNat, cmdRes1_toNat, BitVec.toNat_ofNat, Nat.zero_mod]

theorem decode_of_reserved {w : Word} (h : w.toNat / 16 % 16 ≠ 0 ∨ w.toNat / 65536 ≠ 0) :
    decode w = .error .reservedBits :=
  if_pos ((reserved_iff w).mpr h)

/-- A word that decodes has its reserved bits zero (R73). -/
theorem reserved_zero_of_decode {w : Word} {i : Instr} (h : decode w = .ok i) :
    w.toNat / 16 % 16 = 0 ∧ w.toNat / 65536 = 0 := by
  by_contra hr
  rw [decode_of_reserved (not_and_or.mp hr)] at h
  cases h

/-- The index of a decoded command is an 8-bit field (R70). -/
theorem wellFormed_of_decode {w : Word} {i : Instr} (h : decode w = .ok i) : i.wellFormed = true := by
  obtain ⟨_, hidx⟩ := decode_fields h
  exact decide_eq_true (hidx ▸ (cmdIdx w).isLt)

/-- A word that decodes is the encoding of what it decodes to: its OP and IDX are the command's, its other bits zero. -/
theorem encode_of_decode {w : Word} {i : Instr} (h : decode w = .ok i) : encode i = w := by
  obtain ⟨hop, hidx⟩ := decode_fields h
  obtain ⟨hres0, hres1⟩ := reserved_zero_of_decode h
  apply BitVec.eq_of_toNat_eq
  rw [encode_toNat, ← hop, ← hidx, cmdOp_toNat, cmdIdx_toNat]
  omega

/-- A word that encodes no well-formed command is illegal (R74). -/
theorem decode_error_of_ne_encode {w : Word} (h : ∀ i : Instr, i.wellFormed = true → w ≠ encode i) :
    ∃ e, decode w = .error e := by
  cases hd : decode w with
  | error e => exact ⟨e, rfl⟩
  | ok i => exact absurd (encode_of_decode hd).symm (h i (wellFormed_of_decode hd))

/-! ### What the block does with a word (R74, R153) -/

/-- The Engine's execute step of an illegal word ends its command with ILLEGAL_CMD (R74, R158). -/
theorem step_of_illegal {s : State} {e : DecodeError} {ts : List Turn} (hs : s.turns = .engine :: ts)
    (hf : s.fsm = .pending) (hd : decode s.latch.word = .error e) :
    step s = .next (({ s with turns := ts } : State).raise .illegalCmd) := by
  rw [step_cons hs]
  simp [agentStep, engineStep, hf, executeStep, hd]

/-- A host write to `CMD` while the Engine is IDLE is accepted (R153). -/
theorem step_of_host_cmd {s : State} {v : Word} {ts : List Turn} (hs : s.turns = .host (.write 0x00#8 v) :: ts)
    (hf : s.fsm = .idle) : step s = .next (({ s with turns := ts } : State).accept v) := by
  have hsel : hostSelect 0x00#8 = 0 := rfl
  rw [step_cons hs]
  simp [agentStep, State.hostStep, State.hostWrite, hsel, State.writeCmd, hf]

/-- An illegal command leaves of a quiescent block all but `CMD`, the latch and ERR (R74). -/
theorem State.quiescent.accept_raise {s : State} (hq : s.quiescent) (v : Word) (e : Err) :
    (s.accept v).raise e =
      { s with
        cmd := v
        latch := { word := v, dev := s.devaddr, wdata := s.wdata, desc := s.descData }
        err := e } := by
  obtain ⟨hf, htreq, htrsp⟩ := hq
  simp [State.raise, State.accept, hf, htreq, htrsp]

/-- Settles O5: a reserved bit makes the word illegal, and an illegal word's execute step raises ILLEGAL_CMD. -/
theorem reservedBitsFailWithIllegalCmd : Obligations.ReservedBitsFailWithIllegalCmd := fun _ _ hr =>
  have hd := decode_of_reserved hr
  ⟨hd, fun hf hs => step_of_illegal hs hf hd⟩

/-- Settles O6: the Host's step accepts the word, and the Engine's next one ends its command with ILLEGAL_CMD. -/
theorem everyOtherWordIsAcceptedAndFails : Obligations.EveryOtherWordIsAcceptedAndFails := by
  intro s v ts hq hv hs
  obtain ⟨e, hd⟩ := decode_error_of_ne_encode hv
  have ⟨hf, _, _⟩ := hq
  refine ⟨_, step_of_host_cmd hs hf, rfl, rfl, ?_, rfl⟩
  rw [step_of_illegal rfl rfl hd]
  exact congrArg _ (State.quiescent.accept_raise (s := { s with turns := ts }) hq v .illegalCmd)

end Sys2Proof.Machine
end

section
/-! PROOFS. The pure functions of a field access, bit by bit: mask, extraction, signed decoding, the fit check and
injection (R100 to R106). -/

namespace Sys2Proof.Machine

open Sys2Proof

/-! ### The mask (R100) -/

/-- A number below `2^k` has no bit at `k` or above. -/
theorem testBit_eq_false_of_lt {x k j : Nat} (hx : x < 2 ^ k) (hj : k ≤ j) : x.testBit j = false :=
  Nat.testBit_lt_two_pow (Nat.lt_of_lt_of_le hx (Nat.pow_le_pow_right Nat.two_pos hj))

/-- The bits of the mask are the field's. -/
theorem Desc.testBit_mask (d : Desc) (j : Nat) :
    d.mask.testBit j = decide (d.low ≤ j ∧ j < d.low + d.n) := by
  rw [Desc.mask, Nat.testBit_mul_two_pow, Nat.testBit_two_pow_sub_one, ← Bool.decide_and]
  exact decide_eq_decide.mpr (by omega)

/-- A field that ends within `k` bits has its mask below `2^k`. -/
theorem Desc.mask_lt {d : Desc} {k : Nat} (h : d.low + d.n ≤ k) : d.mask < 2 ^ k := by
  refine Nat.lt_pow_two_of_testBit _ fun j hj => ?_
  rw [Desc.testBit_mask]
  exact decide_eq_false (by omega)

/-- For a field with a bit the converse holds too: its top bit is set in the mask. -/
theorem Desc.mask_lt_iff {d : Desc} {k : Nat} (hn : 1 ≤ d.n) : d.mask < 2 ^ k ↔ d.low + d.n ≤ k := by
  refine ⟨fun h => ?_, Desc.mask_lt⟩
  have top : d.mask.testBit (d.low + d.n - 1) = true := by
    rw [Desc.testBit_mask]
    exact decide_eq_true (by omega)
  have := (Nat.pow_lt_pow_iff_right Nat.one_lt_two).mp (Nat.lt_of_le_of_lt (Nat.ge_two_pow_of_testBit top) h)
  omega

/-- The geometry condition of the construction checks (R135). -/
theorem Desc.low_add_n_le {c : Config} {d : Desc} (h : d.constructOk c = true) : d.low + d.n ≤ 8 * d.w := by
  obtain ⟨_, _, _, hgeo⟩ := (Desc.constructOk_iff c d).mp h
  exact hgeo

/-- For legal parameters a register of a descriptor past the construction checks fits a host word (R6, R135). -/
theorem Desc.eight_w_le {c : Config} {d : Desc} (hc : c.legal = true) (h : d.constructOk c = true) :
    8 * d.w ≤ 32 := by
  obtain ⟨_, _, hw, _⟩ := (Desc.constructOk_iff c d).mp h
  obtain ⟨_, hrw, _⟩ := legal_bounds hc
  omega

/-- Settles O16, from the bits of the mask. -/
theorem maskIsTheFieldsBits : Obligations.MaskIsTheFieldsBits := fun d =>
  ⟨rfl, d.testBit_mask, fun _ hok => Desc.mask_lt (Desc.low_add_n_le hok), Desc.mask_lt_iff⟩

/-! ### Extraction (R102) -/

/-- Extraction shifts the field's bits down to bit 0. -/
theorem Desc.testBit_extract (d : Desc) (r j : Nat) :
    (d.extract r).testBit j = (decide (j < d.n) && r.testBit (j + d.low)) := by
  have inField : (d.low ≤ j + d.low ∧ j + d.low < d.low + d.n) ↔ j < d.n := by omega
  rw [Desc.extract, Nat.testBit_div_two_pow, Nat.testBit_and, Desc.testBit_mask, Bool.and_comm,
    decide_eq_decide.mpr inField]

/-- Extraction is the slice of the register, of any register value. -/
theorem Desc.extract_eq (d : Desc) (r : Nat) : d.extract r = r / 2 ^ d.low % 2 ^ d.n := by
  refine Nat.eq_of_testBit_eq fun j => ?_
  rw [Desc.testBit_extract, Nat.testBit_mod_two_pow, Nat.testBit_div_two_pow]

theorem Desc.extract_lt (d : Desc) (r : Nat) : d.extract r < 2 ^ d.n := by
  rw [Desc.extract_eq]
  exact Nat.mod_lt _ (by positivity)

/-- Settles O17: the slice needs neither the construction checks nor the bound on the register value. -/
theorem extractIsTheFieldSlice : Obligations.ExtractIsTheFieldSlice := fun _ d r _ _ =>
  ⟨rfl, d.extract_lt r, d.extract_eq r⟩

/-! ### Signed decoding (R103) -/

theorem Desc.decodeRaw_of_unsigned {d : Desc} (hs : d.signed = false) (raw : Nat) : d.decodeRaw raw = raw := by
  simp [Desc.decodeRaw, hs]

theorem Desc.decodeRaw_of_sign_clear {d : Desc} {raw : Nat} (h : raw.testBit (d.n - 1) = false) :
    d.decodeRaw raw = raw := by
  simp [Desc.decodeRaw, h]

theorem Desc.decodeRaw_of_sign_set {d : Desc} (hs : d.signed = true) {raw : Nat}
    (h : raw.testBit (d.n - 1) = true) : d.decodeRaw raw = (raw : Int) - 2 ^ d.n := by
  simp [Desc.decodeRaw, hs, h]

/-- The sign bit of an `n`-bit pattern as a bit of the number. -/
theorem msb_ofNat {n : Nat} (hn : 1 ≤ n) (raw : Nat) : (BitVec.ofNat n raw).msb = raw.testBit (n - 1) := by
  rw [BitVec.msb_eq_getLsbD_last, BitVec.getLsbD_ofNat, decide_eq_true (by omega), Bool.true_and]

/-- Decoding a signed field reads its `n` bits as the two's complement of an `n`-bit vector. -/
theorem Desc.decodeRaw_of_signed {d : Desc} (hs : d.signed = true) (hn : 1 ≤ d.n) {raw : Nat}
    (hraw : raw < 2 ^ d.n) : d.decodeRaw raw = (BitVec.ofNat d.n raw).toInt := by
  rw [BitVec.toInt_eq_msb_cond, msb_ofNat hn, BitVec.toNat_ofNat, Nat.mod_eq_of_lt hraw]
  cases h : raw.testBit (d.n - 1) with
  | false => exact Desc.decodeRaw_of_sign_clear h
  | true => simpa using Desc.decodeRaw_of_sign_set hs h

/-- The complement of an `n`-bit pattern, as the source writes it (R103). -/
theorem two_pow_sub_one_xor {n raw : Nat} (h : raw < 2 ^ n) : (2 ^ n - 1) ^^^ raw = 2 ^ n - (raw + 1) := by
  refine Nat.eq_of_testBit_eq fun j => ?_
  rw [Nat.testBit_xor, Nat.testBit_two_pow_sub_one, Nat.testBit_two_pow_sub_succ h]
  by_cases hj : j < n
  · simp [hj]
  · simp [hj, testBit_eq_false_of_lt h (Nat.not_lt.mp hj)]

/-- The source's complement formula is the subtraction of `2^n` (R103). -/
theorem neg_complement_succ {n raw : Nat} (h : raw < 2 ^ n) :
    -((((2 ^ n - 1) ^^^ raw : Nat) : Int) + 1) = (raw : Int) - 2 ^ n := by
  rw [two_pow_sub_one_xor h, Nat.cast_sub h]
  push_cast
  ring

/-- Settles O18: a signed field is read as the integer of an `n`-bit vector, whose range is the library's. -/
theorem decodeRawIsTwosComplement : Obligations.DecodeRawIsTwosComplement := by
  rintro d raw _ rfl hn hraw
  refine ⟨fun hs hbit => ?_, fun _ hbit => Desc.decodeRaw_of_sign_clear hbit,
    fun hs => Desc.decodeRaw_of_unsigned hs raw, fun hs => ?_, fun hs => ?_⟩
  · rw [neg_complement_succ hraw]
    exact ⟨Desc.decodeRaw_of_sign_set hs hbit, Desc.decodeRaw_of_sign_set hs hbit⟩
  · rw [Desc.decodeRaw_of_signed hs hn hraw]
    exact ⟨BitVec.le_toInt _, Int.le_sub_one_of_lt BitVec.toInt_lt⟩
  · have bound : (raw : Int) < 2 ^ d.nbits.toNat := by exact_mod_cast hraw
    rw [Desc.decodeRaw_of_unsigned hs]
    omega

/-! ### The value a READ shows (R104) -/

theorem Desc.result_of_unsigned {d : Desc} (hs : d.signed = false) (raw : Nat) : d.result raw = zext32 raw := by
  simp [Desc.result, hs]

/-- For a signed field the result is the sign extension of the field's `n` bits. -/
theorem Desc.result_of_signed {d : Desc} (hs : d.signed = true) (hn : 1 ≤ d.n) {raw : Nat} (hraw : raw < 2 ^ d.n) :
    d.result raw = (BitVec.ofNat d.n raw).signExtend 32 := by
  rw [Desc.result, if_pos hs, Desc.decodeRaw_of_signed hs hn hraw]
  rfl

theorem zext32_toNat {raw : Nat} (h : raw < 2 ^ 32) : (zext32 raw).toNat = raw :=
  (BitVec.toNat_ofNat ..).trans (Nat.mod_eq_of_lt h)

/-- The result of a signed field is its integer (R104). -/
theorem Desc.result_toInt {d : Desc} (hs : d.signed = true) (hn : 1 ≤ d.n) (hn32 : d.n ≤ 32) {raw : Nat}
    (hraw : raw < 2 ^ d.n) : (d.result raw).toInt = d.decodeRaw raw := by
  rw [Desc.result_of_signed hs hn hraw, BitVec.toInt_signExtend_of_le hn32, Desc.decodeRaw_of_signed hs hn hraw]

/-- The result of a signed field is its pattern with the top bit copied upward (R104). -/
theorem Desc.result_getLsbD {d : Desc} (hs : d.signed = true) (hn : 1 ≤ d.n) {raw : Nat} (hraw : raw < 2 ^ d.n)
    {j : Nat} (hj : j < 32) : (d.result raw).getLsbD j = raw.testBit (min j (d.n - 1)) := by
  rw [Desc.result_of_signed hs hn hraw, BitVec.getLsbD_signExtend, msb_ofNat hn, decide_eq_true hj, Bool.true_and]
  split
  · next hlt => rw [BitVec.getLsbD_ofNat, decide_eq_true hlt, Bool.true_and, min_eq_left (by omega)]
  · rw [min_eq_right (by omega)]

/-! ### The fit check (R105) -/

theorem Desc.fits_iff (d : Desc) (v : Word) :
    d.fits v = true ↔ v.toNat < 2 ^ d.n ∨ (d.signed = true ∧ 2 ^ 32 - 2 ^ (d.n - 1) ≤ v.toNat) := by
  simp [Desc.fits]

/-- The upper range of the fit check is that of the negative `n`-bit numbers (R105). -/
theorem high_iff_toInt_negative {n : Nat} (hn : 1 ≤ n) (hn32 : n ≤ 32) (v : Word) :
    2 ^ 32 - 2 ^ (n - 1) ≤ v.toNat ↔ -2 ^ (n - 1) ≤ v.toInt ∧ v.toInt ≤ -1 := by
  have half : 2 ^ (n - 1) ≤ 2 ^ 31 := Nat.pow_le_pow_right (by omega) (by omega)
  have cast : ((2 ^ (n - 1) : Nat) : Int) = 2 ^ (n - 1) := by push_cast; rfl
  have := v.isLt
  rw [BitVec.toInt_eq_toNat_cond, ← cast]
  split <;> omega

/-- Settles O20: both readings are the fit check, and a field of 32 bits has a pattern for every word. -/
theorem fitsIsTheRepresentableRange : Obligations.FitsIsTheRepresentableRange := by
  rintro d v n rfl hn hn32
  refine ⟨d.fits_iff v, ?_, fun h32 => (d.fits_iff v).mpr (.inl ?_)⟩
  · rw [d.fits_iff, ← high_iff_toInt_negative hn hn32]
    exact Iff.rfl
  · rw [show d.n = 32 from h32]
    exact v.isLt

/-! ### Injection (R106) -/

/-- The complement of the mask keeps the register's bits outside the field (R101). -/
theorem testBit_regNot {w m : Nat} (hm : m < 2 ^ (8 * w)) (j : Nat) :
    (regNot w m).testBit j = (decide (j < 8 * w) && !m.testBit j) := by
  rw [regNot, regmask, Nat.sub_sub, Nat.add_comm, Nat.testBit_two_pow_sub_succ hm]

/-- The injected term has the value's bits in the field and none outside it. -/
theorem Desc.testBit_shifted (d : Desc) (x j : Nat) :
    (x % 2 ^ d.n * 2 ^ d.low).testBit j = (d.mask.testBit j && x.testBit (j - d.low)) := by
  have inField : (d.low ≤ j ∧ j - d.low < d.n) ↔ (d.low ≤ j ∧ j < d.low + d.n) := by omega
  rw [Nat.testBit_mul_two_pow, Nat.testBit_mod_two_pow, ← Bool.and_assoc, ← Bool.decide_and,
    decide_eq_decide.mpr inField, Desc.testBit_mask]

/-- Injection bit by bit: the value in the field, the register everywhere else. -/
theorem Desc.testBit_inject {d : Desc} (hgeo : d.low + d.n ≤ 8 * d.w) {r : Nat} (hr : r < 2 ^ (8 * d.w)) (v : Word)
    (j : Nat) :
    (d.inject r v).testBit j = if d.mask.testBit j then v.toNat.testBit (j - d.low) else r.testBit j := by
  rw [Desc.inject, Nat.testBit_or, Nat.testBit_and, testBit_regNot (Desc.mask_lt hgeo), Desc.testBit_shifted]
  cases d.mask.testBit j with
  | true => simp
  | false =>
    by_cases hj : j < 8 * d.w
    · simp [hj]
    · simp [hj, testBit_eq_false_of_lt hr (Nat.not_lt.mp hj)]

/-- Injection keeps every bit outside the mask. -/
theorem Desc.testBit_inject_of_outside {d : Desc} (hgeo : d.low + d.n ≤ 8 * d.w) {r : Nat} (hr : r < 2 ^ (8 * d.w))
    (v : Word) {j : Nat} (hj : d.mask.testBit j = false) : (d.inject r v).testBit j = r.testBit j := by
  simp [Desc.testBit_inject hgeo hr, hj]

theorem Desc.inject_lt {d : Desc} (hgeo : d.low + d.n ≤ 8 * d.w) {r : Nat} (hr : r < 2 ^ (8 * d.w)) (v : Word) :
    d.inject r v < 2 ^ (8 * d.w) := by
  refine Nat.lt_pow_two_of_testBit _ fun j hj => ?_
  have outside : d.mask.testBit j = false := testBit_eq_false_of_lt (Desc.mask_lt hgeo) hj
  rw [Desc.testBit_inject_of_outside hgeo hr v outside, testBit_eq_false_of_lt hr hj]

/-- The injected field reads back as the value modulo `2^n`. -/
theorem Desc.extract_inject {d : Desc} (hgeo : d.low + d.n ≤ 8 * d.w) {r : Nat} (hr : r < 2 ^ (8 * d.w)) (v : Word) :
    d.extract (d.inject r v) = v.toNat % 2 ^ d.n := by
  refine Nat.eq_of_testBit_eq fun j => ?_
  rw [Desc.testBit_extract, Nat.testBit_mod_two_pow]
  by_cases hj : j < d.n
  · have inField : d.mask.testBit (j + d.low) = true := by
      rw [Desc.testBit_mask]
      exact decide_eq_true (by omega)
    rw [Desc.testBit_inject hgeo hr, if_pos inField, Nat.add_sub_cancel]
  · simp [hj]

/-- A field that shares no bit with the injected one reads as before (R110). -/
theorem Desc.extract_inject_of_disjoint {d e : Desc} (hgeo : d.low + d.n ≤ 8 * d.w) {r : Nat}
    (hr : r < 2 ^ (8 * d.w)) (v : Word) (he : e.mask &&& d.mask = 0) : e.extract (d.inject r v) = e.extract r := by
  have same : d.inject r v &&& e.mask = r &&& e.mask := by
    refine Nat.eq_of_testBit_eq fun j => ?_
    have apart : (e.mask.testBit j && d.mask.testBit j) = false := by
      rw [← Nat.testBit_and, he, Nat.zero_testBit]
    rw [Nat.testBit_and, Nat.testBit_and]
    cases hm : e.mask.testBit j with
    | false => simp
    | true => rw [Desc.testBit_inject_of_outside hgeo hr v (by simpa [hm] using apart)]
  rw [Desc.extract, Desc.extract, same]

/-- Settles O21, from the bits of the injected register; that `v` fits is not needed. -/
theorem injectWritesTheFieldAndNothingElse : Obligations.InjectWritesTheFieldAndNothingElse := by
  intro c d r v hok hr _
  have hgeo := Desc.low_add_n_le hok
  exact ⟨rfl, Desc.inject_lt hgeo hr v, fun _ => Desc.testBit_inject_of_outside hgeo hr v,
    Desc.extract_inject hgeo hr v⟩

end Sys2Proof.Machine
end

section
/-! PROOFS. The Engine steps of READ and WRITE, case by case (R104, R107, R108). -/

namespace Sys2Proof.Machine

open Sys2Proof

/-! ### The execute steps (R107, R108, R158) -/

theorem exec_read_of_pending {s : State} (hf : s.fsm = .pending) (i : Nat) :
    exec (.read i) s = .next (readExecute i s) := by
  simp [exec, execRead, hf]

theorem exec_write_of_pending {s : State} (hf : s.fsm = .pending) (i : Nat) :
    exec (.write i) s = .next (writeExecute i s) := by
  simp [exec, execWrite, hf]

section

variable {s : State} {i : Nat}

theorem readExecute_of_range (h : s.cfg.nDesc ≤ i) : readExecute i s = s.raise .descRange :=
  if_pos h

theorem readExecute_of_invalid (hi : i < s.cfg.nDesc) (hv : (s.dt i).valid = false) :
    readExecute i s = s.raise .descInvalid := by
  simp [readExecute, Nat.not_le.mpr hi, hv]

theorem readExecute_of_readable (h : s.readable i) :
    readExecute i s = s.issue .rdWait (s.readReq (s.dt i)) := by
  obtain ⟨hi, hv⟩ := h
  simp [readExecute, Nat.not_le.mpr hi, hv]

theorem writeExecute_of_range (h : s.cfg.nDesc ≤ i) : writeExecute i s = s.raise .descRange :=
  if_pos h

theorem writeExecute_of_invalid (hi : i < s.cfg.nDesc) (hv : (s.dt i).valid = false) :
    writeExecute i s = s.raise .descInvalid := by
  simp [writeExecute, Nat.not_le.mpr hi, hv]

theorem writeExecute_of_readOnly (h : s.readable i) (hro : (s.dt i).ro = true) :
    writeExecute i s = s.raise .unsupported := by
  obtain ⟨hi, hv⟩ := h
  simp [writeExecute, Nat.not_le.mpr hi, hv, hro]

theorem writeExecute_of_unfitting (h : s.readable i) (hro : (s.dt i).ro = false)
    (hfit : (s.dt i).fits s.latch.wdata = false) : writeExecute i s = s.raise .invalidArgument := by
  obtain ⟨hi, hv⟩ := h
  simp [writeExecute, Nat.not_le.mpr hi, hv, hro, hfit]

theorem writeExecute_of_writable (h : s.writable i) :
    writeExecute i s = s.issue .rdWait (s.readReq (s.dt i)) := by
  obtain ⟨⟨hi, hv⟩, hro, hfit⟩ := h
  simp [writeExecute, Nat.not_le.mpr hi, hv, hro, hfit]

end

/-! ### The answer steps (R107, R108, R159) -/

section

variable {s : State}

theorem exec_read_of_fail (hf : s.fsm = .rdWait) (ha : s.trsp = some .fail) (i : Nat) :
    exec (.read i) s = .next (s.consume.raise .transport) := by
  simp [exec, execRead, hf, ha, readAnswer]

theorem exec_read_of_readOk {b : List Byte} (hf : s.fsm = .rdWait) (ha : s.trsp = some (.readOk b)) (i : Nat) :
    exec (.read i) s = .next
      (s.consume.setResult ((s.dt i).result ((s.dt i).extract (assemble b (s.dt i).w))) (s.dt i).signed).complete := by
  simp [exec, execRead, hf, ha, readAnswer]

theorem exec_write_of_fail (hf : s.fsm = .rdWait ∨ s.fsm = .wrWait) (ha : s.trsp = some .fail) (i : Nat) :
    exec (.write i) s = .next (s.consume.raise .transport) := by
  obtain hf | hf := hf
  · simp [exec, execWrite, hf, ha, writeReadAnswer]
  · simp [exec, execWrite, hf, ha, writeWriteAnswer]

theorem exec_write_of_readOk {b : List Byte} (hf : s.fsm = .rdWait) (ha : s.trsp = some (.readOk b)) (i : Nat) :
    exec (.write i) s = .next
      (s.consume.issue .wrWait (s.writeReq (s.dt i)
        ((s.dt i).inject (assemble b (s.dt i).w) s.latch.wdata))) := by
  simp [exec, execWrite, hf, ha, writeReadAnswer]

theorem exec_write_of_writeOk (hf : s.fsm = .wrWait) (ha : s.trsp = some .writeOk) (i : Nat) :
    exec (.write i) s = .next s.consume.complete := by
  simp [exec, execWrite, hf, ha, writeWriteAnswer]

end

/-! ### The rules of the two commands -/

/-- Settles O19: the answer step leaves `Desc.result` of the extracted field, which is exact in 32 bits. -/
theorem readResultIsExact : Obligations.ReadResultIsExact := by
  intro s i b hc hok hf ha
  obtain ⟨hn, _⟩ := (Desc.constructOk_iff _ _).mp hok
  have hn32 : (s.dt i).n ≤ 32 := by
    have := Desc.low_add_n_le hok
    have := Desc.eight_w_le hc hok
    omega
  have hraw := (s.dt i).extract_lt (assemble b (s.dt i).w)
  refine ⟨_, _, exec_read_of_readOk hf ha i, rfl, rfl, rfl, rfl, fun hs => ?_, fun hs => ?_⟩
  · exact ⟨if_pos hs, Desc.result_toInt hs hn hn32 hraw, fun _ hj => Desc.result_getLsbD hs hn hraw hj⟩
  · have value := Desc.result_of_unsigned hs ((s.dt i).extract (assemble b (s.dt i).w))
    refine ⟨value, ?_⟩
    rw [State.complete_rdata, State.setResult_rdata, value]
    exact zext32_toNat (Nat.lt_of_lt_of_le hraw (Nat.pow_le_pow_right Nat.two_pos hn32))

/-- The value a READ shows, by the sign bit of the field (R103, R104). -/
theorem Desc.result_eq (d : Desc) (raw : Nat) :
    d.result raw =
      if d.signed = true ∧ raw.testBit (d.n - 1) = true then BitVec.ofInt 32 ((raw : Int) - 2 ^ d.n)
      else BitVec.ofNat 32 raw := by
  by_cases hs : d.signed = true
  · rw [Desc.result, if_pos hs, sext32]
    cases hbit : raw.testBit (d.n - 1) with
    | true => simp [Desc.decodeRaw_of_sign_set hs hbit, hs]
    | false => simp [Desc.decodeRaw_of_sign_clear hbit, BitVec.ofInt_natCast]
  · simp [Desc.result, hs, zext32]

/-- The command word of a command whose index fits its field, as a number (R70, R72). -/
theorem encode_toNat_of_lt {i : Instr} (hi : i.idx < 256) : (encode i).toNat = i.idx * 256 + i.opcode.toNat := by
  rw [encode_toNat, Nat.mod_eq_of_lt hi]

/-- Settles O29: each clause is one case of the execute step or of the answer step. -/
theorem readFollowsItsRule : Obligations.ReadFollowsItsRule := by
  rintro s i n rfl
  refine ⟨fun hi => encode_toNat_of_lt hi, fun hf h => ?_, fun hf hi hv => ?_, fun hf hi hv => ?_,
    fun hf ha => exec_read_of_fail hf ha i, ?_⟩
  · rw [exec_read_of_pending hf, readExecute_of_range h]
    rfl
  · rw [exec_read_of_pending hf, readExecute_of_invalid hi hv]
    rfl
  · rw [exec_read_of_pending hf, readExecute_of_readable ⟨hi, hv⟩]
    rfl
  · rintro b raw hf ha rfl
    rw [exec_read_of_readOk hf ha, Desc.result_eq]
    rfl

/-- Settles O30: each clause is one case of the execute step or of the two answer steps. -/
theorem writeFollowsItsRule : Obligations.WriteFollowsItsRule := by
  intro s i
  refine ⟨fun hi => encode_toNat_of_lt hi, fun hf h => ?_, fun hf hi hv => ?_, fun hf hi hv hro => ?_,
    fun hf hi hv hro hfit => ?_, fun hf hi hv hro hfit => ?_, fun hf ha => exec_write_of_fail hf ha i, ?_,
    fun hf ha => exec_write_of_writeOk hf ha i⟩
  · rw [exec_write_of_pending hf, writeExecute_of_range h]
    rfl
  · rw [exec_write_of_pending hf, writeExecute_of_invalid hi hv]
    rfl
  · rw [exec_write_of_pending hf, writeExecute_of_readOnly ⟨hi, hv⟩ hro]
    rfl
  · rw [exec_write_of_pending hf, writeExecute_of_unfitting ⟨hi, hv⟩ hro hfit]
    rfl
  · rw [exec_write_of_pending hf, writeExecute_of_writable ⟨⟨hi, hv⟩, hro, hfit⟩]
    rfl
  · rintro b r' hf ha rfl
    exact exec_write_of_readOk hf ha i

end Sys2Proof.Machine
end

section
/-! PROOFS. READ and WRITE as whole commands under the reference transport, and the round trip of a field (R67,
R110). -/

namespace Sys2Proof.Machine

open Sys2Proof

/-! ### The command word is decoded as it was encoded (R70, R78) -/

theorem decode_encode {i : Instr} (hi : i.wellFormed = true) : decode (encode i) = .ok i := by
  have hidx : i.idx < 256 := of_decide_eq_true hi
  have hword := encode_toNat_of_lt hidx
  have hop16 : i.opcode.toNat < 16 := i.opcode.isLt
  have hres : ¬(cmdRes0 (encode i) ≠ 0#4 ∨ cmdRes1 (encode i) ≠ 0#16) := by
    rw [reserved_iff]
    omega
  have hop : (cmdOp (encode i)).toNat = i.opcode.toNat := by
    rw [cmdOp_toNat]
    omega
  have hfield : (cmdIdx (encode i)).toNat = i.idx := by
    rw [cmdIdx_toNat]
    omega
  rw [decode, if_neg hres, hop, hfield]
  cases i <;> rfl

/-- The index of an entry of the table fits the command word, for legal parameters (R7, R72). -/
theorem lt_256_of_lt_nDesc {c : Config} (hc : c.legal = true) {i : Nat} (hi : i < c.nDesc) : i < 256 := by
  obtain ⟨_, _, _, hmax⟩ := legal_bounds hc
  omega

/-! ### One step under the reference transport (R67) -/

/-- Every answer of the reference transport is one R52 admits to its request. -/
theorem Memory.admits_serveFailing (m : Memory) (fails : List Req) (req : Req) :
    req.admits (m.serveFailing fails req).1 = true := by
  obtain ⟨_, h⟩ | ⟨_, h⟩ := m.serveFailing_cases fails req <;> rw [h]
  · cases req <;> rfl
  · cases req with
    | read dev reg w => simp [Memory.serve, Req.admits]
    | write dev reg b => rfl

/-- With a request outstanding and no answer yet, the Transport answers it. -/
theorem refRun_of_request (fails : List Req) (k : Nat) {s : State} (m : Memory) {req : Req}
    (hq : s.treq = some req) (hr : s.trsp = none) :
    refRun fails (k + 1) (s, m) =
      refRun fails k (s.answer (m.serveFailing fails req).1, (m.serveFailing fails req).2) := by
  simp [refRun, refStep, hq, agentStep, transportStep, hr, m.admits_serveFailing, withMemory]

/-- With no request outstanding the Engine steps, and the device registers stay. -/
theorem refRun_of_engine (fails : List Req) (k : Nat) {s t : State} (m : Memory) (hq : s.treq = none)
    (ht : engineStep s = .next t) : refRun fails (k + 1) (s, m) = refRun fails k (t, m) := by
  simp [refRun, refStep, hq, agentStep, ht, withMemory]

/-- A block at rest stays as it is, for any number of steps. -/
theorem refRun_of_quiescent (fails : List Req) (k : Nat) {s : State} (m : Memory) (h : s.quiescent) :
    refRun fails k (s, m) = .next (s, m) := by
  have ⟨hf, hq, _⟩ := h
  induction k with
  | zero => rfl
  | succ k ih => rw [refRun_of_engine fails k m hq (t := s) (by simp [engineStep, hf]), ih]

/-- A command starts with its acceptance, where the block is at rest (R153). -/
theorem refCommandFailing_eq (fails : List Req) {s : State} (m : Memory) (hf : s.fsm = .idle) (v : Word) :
    refCommandFailing fails v (s, m) = refRun fails 5 (s.accept v, m) := by
  have hsel : hostSelect 0x00#8 = 0 := rfl
  simp [refCommandFailing, State.hostStep, State.hostWrite, hsel, State.writeCmd, hf]

/-! ### The Engine's step of a READ or WRITE in progress (R158, R159) -/

theorem engineStep_of_pending {s : State} {i : Instr} (hf : s.fsm = .pending) (hd : decode s.latch.word = .ok i) :
    engineStep s = exec i s := by
  simp [engineStep, hf, executeStep, hd]

theorem engineStep_of_read {s : State} {i : Nat} {rsp : Rsp} (hf : s.fsm = .rdWait) (ha : s.trsp = some rsp)
    (hd : decode s.latch.word = .ok (.read i)) : engineStep s = exec (.read i) s := by
  obtain ⟨hop, hidx⟩ := decode_fields hd
  have hop' : s.latch.op = 1#4 := hop
  have hidx' : s.latch.idx = i := hidx
  simp [engineStep, hf, answerStep, ha, hop', hidx']

theorem engineStep_of_write {s : State} {i : Nat} {rsp : Rsp} (hf : s.fsm = .rdWait ∨ s.fsm = .wrWait)
    (ha : s.trsp = some rsp) (hd : decode s.latch.word = .ok (.write i)) : engineStep s = exec (.write i) s := by
  obtain ⟨hop, hidx⟩ := decode_fields hd
  have hop' : s.latch.op = 2#4 := hop
  have hidx' : s.latch.idx = i := hidx
  obtain hf | hf := hf <;> simp [engineStep, hf, answerStep, ha, hop', hidx']

/-! ### Whole commands (R67, R107, R108) -/

/-- What a read request of `w` bytes finds in a device register (R67). -/
def Memory.readBytes (m : Memory) (dev : DevAddr) (reg : RegAddr) (w : Nat) : Nat :=
  (m.read dev reg).toNat % 2 ^ (8 * w)

theorem Memory.readBytes_lt (m : Memory) (dev : DevAddr) (reg : RegAddr) (w : Nat) :
    m.readBytes dev reg w < 2 ^ (8 * w) :=
  Nat.mod_lt _ (by positivity)

/-- The state after a READ through `d` that finds the register value `r` (R107). -/
def State.afterRead (s : State) (word : Word) (d : Desc) (r : Nat) : State :=
  { s with
    cmd := word
    latch := { word := word, dev := s.devaddr, wdata := s.wdata, desc := s.descData }
    rdata := d.result (d.extract r)
    rsigned := d.signed
    err := .noError
    hist := s.hist ++ [.issue (.read s.devaddr d.addr d.w), .answer (.readOk (split r d.w))] }

/-- The state after a WRITE through `d` that finds the register value `r` (R108). -/
def State.afterWrite (s : State) (word : Word) (d : Desc) (r : Nat) : State :=
  { s with
    cmd := word
    latch := { word := word, dev := s.devaddr, wdata := s.wdata, desc := s.descData }
    err := .noError
    hist := s.hist ++ [.issue (.read s.devaddr d.addr d.w), .answer (.readOk (split r d.w)),
      .issue (.write s.devaddr d.addr (split (d.inject r s.wdata) d.w)), .answer .writeOk] }

/-- A register value of `w` bytes, written, is what a read request of `w` bytes finds. -/
theorem Memory.readBytes_write {m : Memory} (hm : m.wf = true) (dev : DevAddr) (reg : RegAddr) {r w : Nat}
    (hr : r < 2 ^ (8 * w)) (hw : 8 * w ≤ 32) : (m.write dev reg (zext32 r)).readBytes dev reg w = r := by
  have hr32 : r < 2 ^ 32 := Nat.lt_of_lt_of_le hr (Nat.pow_le_pow_right Nat.two_pos hw)
  rw [Memory.readBytes, Memory.read_write hm, if_pos ⟨rfl, rfl⟩, zext32_toNat hr32, Nat.mod_eq_of_lt hr]

theorem Memory.serve_write (m : Memory) (dev : DevAddr) (reg : RegAddr) (r w : Nat) :
    m.serve (.write dev reg (split r w)) = (.writeOk, m.write dev reg (zext32 (r % 2 ^ (8 * w)))) := by
  rw [Memory.serve, split_length, assemble_split]

/-- The state in which the read transaction through `d`, of the command `word` accepted in `s`, has found the register
value `r`: what the execute step and the Transport's step leave for the answer step (R107, R108). -/
def State.foundValue (s : State) (word : Word) (d : Desc) (r : Nat) : State :=
  ((s.accept word).issue .rdWait ((s.accept word).readReq d)).answer (.readOk (split r d.w))

/-- The read transaction with which a READ and a WRITE start: the checks of both end in the same issue (R107, R108). -/
theorem refRun_of_read_issue {fails : List Req} {s : State} (m : Memory) (k : Nat) {word : Word} {i : Instr} {d : Desc}
    {r : Nat} (hq : s.quiescent) (hdec : decode word = .ok i)
    (hx : exec i (s.accept word) = .next ((s.accept word).issue .rdWait ((s.accept word).readReq d)))
    (hserved : .read s.devaddr d.addr d.w ∉ fails) (hval : r = m.readBytes s.devaddr d.addr d.w) :
    refRun fails (k + 2) (s.accept word, m) = refRun fails k (s.foundValue word d r, m) := by
  obtain ⟨_, htreq, htrsp⟩ := hq
  have execute := (engineStep_of_pending (s := s.accept word) rfl hdec).trans hx
  have served : m.serveFailing fails ((s.accept word).readReq d) = (.readOk (split r d.w), m) := by
    rw [hval]
    exact if_neg hserved
  rw [refRun_of_engine fails (k + 1) m (by simpa using htreq) execute,
    refRun_of_request fails k m rfl (by simpa using htrsp), served]
  rfl

/-- READ's answer step on the value found (R107). -/
theorem State.quiescent.engineStep_read_foundValue {s : State} {word : Word} {i r : Nat} {d : Desc}
    (hq : s.quiescent) (hdec : decode word = .ok (.read i)) (hd : d = s.dt i) (hr : r < 2 ^ (8 * d.w)) :
    engineStep (s.foundValue word d r) = .next (s.afterRead word d r) := by
  obtain ⟨hf, htreq, htrsp⟩ := hq
  have hdt : (s.foundValue word d r).dt i = d := hd.symm
  rw [engineStep_of_read (s := s.foundValue word d r) rfl rfl hdec, exec_read_of_readOk rfl rfl i, hdt,
    assemble_split, Nat.mod_eq_of_lt hr]
  simp [State.afterRead, State.foundValue, State.complete, State.setResult, State.consume, State.answer, State.issue,
    State.accept, State.readReq, hf, htreq, htrsp]

/-- A READ of a valid entry, run under the reference transport from rest (R67, R107). -/
theorem refCommand_read {s : State} (m : Memory) {i r : Nat} {d : Desc} (hq : s.quiescent) (hi : i < 256)
    (hread : s.readable i) (hd : d = s.dt i) (hval : r = m.readBytes s.devaddr d.addr d.w) :
    refCommand (encode (.read i)) (s, m) = .next (s.afterRead (encode (.read i)) d r, m) := by
  have ⟨hf, _, _⟩ := hq
  have hdec : decode (encode (.read i)) = .ok (.read i) := decode_encode (decide_eq_true hi)
  have execute := (exec_read_of_pending (s := s.accept (encode (.read i))) rfl i).trans
    (congrArg _ (readExecute_of_readable hread))
  have answer := hq.engineStep_read_foundValue hdec hd (hval ▸ m.readBytes_lt ..)
  rw [refCommand, refCommandFailing_eq [] m hf, refRun_of_read_issue m 3 hq hdec (hd ▸ execute) List.not_mem_nil hval,
    refRun_of_engine [] 2 m rfl answer, refRun_of_quiescent [] 2 m (s := s.afterRead (encode (.read i)) d r) hq]

/-- WRITE's read-answer step on the value found (R108). -/
theorem State.engineStep_write_foundValue {s : State} {word : Word} {i r : Nat} {d : Desc}
    (hdec : decode word = .ok (.write i)) (hd : d = s.dt i) (hr : r < 2 ^ (8 * d.w)) :
    engineStep (s.foundValue word d r) = .next ((s.foundValue word d r).consume.issue .wrWait
      (.write s.devaddr d.addr (split (d.inject r s.wdata) d.w))) := by
  have hdt : (s.foundValue word d r).dt i = d := hd.symm
  rw [engineStep_of_write (s := s.foundValue word d r) (.inl rfl) rfl hdec, exec_write_of_readOk rfl rfl i, hdt,
    assemble_split, Nat.mod_eq_of_lt hr]
  rfl

/-- A WRITE whose checks pass, run under the reference transport from rest (R67, R108). -/
theorem refCommand_write {s : State} (m : Memory) {i r : Nat} {d : Desc} (hq : s.quiescent) (hi : i < 256)
    (hwrite : (s.accept (encode (.write i))).writable i) (hd : d = s.dt i)
    (hval : r = m.readBytes s.devaddr d.addr d.w) :
    refCommand (encode (.write i)) (s, m) = .next
      (s.afterWrite (encode (.write i)) d r,
        m.write s.devaddr d.addr (zext32 (d.inject r s.wdata % 2 ^ (8 * d.w)))) := by
  have ⟨hf, htreq, htrsp⟩ := hq
  have hdec : decode (encode (.write i)) = .ok (.write i) := decode_encode (decide_eq_true hi)
  have execute := (exec_write_of_pending (s := s.accept (encode (.write i))) rfl i).trans
    (congrArg _ (writeExecute_of_writable hwrite))
  have readAnswer := State.engineStep_write_foundValue hdec hd (hval ▸ m.readBytes_lt ..)
  have writeAnswer (t : State) (hw : t.fsm = .wrWait) (ha : t.trsp = some .writeOk)
      (hl : t.latch.word = encode (.write i)) : engineStep t = .next t.consume.complete :=
    (engineStep_of_write (.inr hw) ha (hl ▸ hdec)).trans (exec_write_of_writeOk hw ha i)
  rw [refCommand, refCommandFailing_eq [] m hf, refRun_of_read_issue m 3 hq hdec (hd ▸ execute) List.not_mem_nil hval,
    refRun_of_engine [] 2 m rfl readAnswer, refRun_of_request [] 1 m rfl rfl, Memory.serveFailing_nil,
    Memory.serve_write, refRun_of_engine [] 0 _ rfl (writeAnswer _ rfl rfl rfl)]
  simp [refRun, State.afterWrite, State.foundValue, State.complete, State.consume, State.answer, State.issue,
    State.accept, State.readReq, hf, htreq, htrsp]

/-! ### What a READ shows of a written value (R105, R110) -/

/-- The top bit of an `n`-bit pattern tells its upper half. -/
theorem testBit_top {n raw : Nat} (hn : 1 ≤ n) (hraw : raw < 2 ^ n) :
    raw.testBit (n - 1) = decide (2 ^ (n - 1) ≤ raw) := by
  rw [← msb_ofNat hn, BitVec.msb_eq_decide, BitVec.toNat_ofNat, Nat.mod_eq_of_lt hraw]

/-- An unsigned field shows the fitting value that was written. -/
theorem Desc.result_of_fits_unsigned {d : Desc} {v : Word} (hs : d.signed = false) (hfit : d.fits v = true) :
    d.result (v.toNat % 2 ^ d.n) = v := by
  have hlt : v.toNat < 2 ^ d.n := by simpa [Desc.fits_iff, hs] using hfit
  rw [Desc.result_of_unsigned hs, Nat.mod_eq_of_lt hlt, zext32, BitVec.ofNat_toNat, BitVec.setWidth_eq]

/-- The low `n` bits of a word that lies in the range of the signed `n`-bit numbers are that number. -/
theorem toInt_setWidth_of_range {n : Nat} {v : Word} (hn : 1 ≤ n) (hn32 : n ≤ 32) (hlow : -2 ^ (n - 1) ≤ v.toInt)
    (hhigh : v.toInt < 2 ^ (n - 1)) : (v.setWidth n).toInt = v.toInt := by
  rw [← BitVec.signExtend_eq_setWidth_of_le v hn32]
  exact BitVec.toInt_ofInt_eq_self hn hlow hhigh

/-- A signed field shows the value that was written, where that is a signed number of `n` bits. -/
theorem Desc.result_of_signed_range {d : Desc} {v : Word} (hs : d.signed = true) (hn : 1 ≤ d.n) (hn32 : d.n ≤ 32)
    (hv : v.toNat < 2 ^ (d.n - 1) ∨ 2 ^ 32 - 2 ^ (d.n - 1) ≤ v.toNat) : d.result (v.toNat % 2 ^ d.n) = v := by
  have range : -2 ^ (d.n - 1) ≤ v.toInt ∧ v.toInt < 2 ^ (d.n - 1) := by
    have positive : (0 : Int) < 2 ^ (d.n - 1) := by positivity
    obtain hlow | hhigh := hv
    · have half : 2 ^ (d.n - 1) ≤ 2 ^ 31 := Nat.pow_le_pow_right Nat.two_pos (by omega)
      have value : v.toInt = v.toNat := BitVec.toInt_eq_toNat_of_lt (by omega)
      have bound : (v.toNat : Int) < 2 ^ (d.n - 1) := by exact_mod_cast hlow
      omega
    · have := (high_iff_toInt_negative hn hn32 v).mp hhigh
      omega
  have pattern : BitVec.ofNat d.n (v.toNat % 2 ^ d.n) = v.setWidth d.n :=
    BitVec.eq_of_toNat_eq (by simp)
  rw [← BitVec.toInt_inj, Desc.result_of_signed hs hn (Nat.mod_lt _ (by positivity)),
    BitVec.toInt_signExtend_of_le hn32, pattern, toInt_setWidth_of_range hn hn32 range.1 range.2]

/-- A signed field shows the sign-extended pattern of an `n`-bit pattern whose top bit is set. -/
theorem Desc.result_toNat_of_sign_set {d : Desc} {v : Word} (hs : d.signed = true) (hn : 1 ≤ d.n) (hn32 : d.n ≤ 32)
    (hlow : 2 ^ (d.n - 1) ≤ v.toNat) (hhigh : v.toNat < 2 ^ d.n) :
    (d.result (v.toNat % 2 ^ d.n)).toNat = v.toNat + 2 ^ 32 - 2 ^ d.n := by
  have sign : v.toNat.testBit (d.n - 1) = true := by simpa [testBit_top hn hhigh] using hlow
  have size : 2 ^ d.n ≤ 2 ^ 32 := Nat.pow_le_pow_right Nat.two_pos hn32
  have cast : ((2 ^ d.n : Nat) : Int) = 2 ^ d.n := by push_cast; rfl
  rw [Nat.mod_eq_of_lt hhigh, Desc.result_eq, if_pos ⟨hs, sign⟩, BitVec.toNat_ofInt, ← cast]
  omega

/-! ### The round trip (R110) -/

theorem State.quiescent_of_idle {s : State} (h : s.Inv) (hf : s.fsm = .idle) : s.quiescent :=
  ⟨hf, (State.channelOk_of_idle hf).mp h.channel⟩

/-- Settles O50: WRITE leaves the injected value in the register, READ extracts it again, and what it shows of it is
`Desc.result` of the value's low `n` bits. -/
theorem writeThenReadRoundTrips : Obligations.WriteThenReadRoundTrips := by
  rintro s m i d _ V0 hinv hf hm hi hvalid hro hd rfl hfit hV0
  have hq := State.quiescent_of_idle hinv hf
  have hi256 := lt_256_of_lt_nDesc hinv.cfgLegal hi
  have hok : d.constructOk s.cfg = true := hd ▸ hinv.dt_constructOk hvalid
  have hgeo := Desc.low_add_n_le hok
  have hw32 := Desc.eight_w_le hinv.cfgLegal hok
  obtain ⟨hn, _⟩ := (Desc.constructOk_iff _ _).mp hok
  have hn32 : d.n ≤ 32 := by omega
  have hV0lt : V0 < 2 ^ (8 * d.w) := hV0 ▸ m.readBytes_lt ..
  have hlt := Desc.inject_lt hgeo hV0lt s.wdata
  have hlt32 : d.inject V0 s.wdata < 2 ^ 32 := Nat.lt_of_lt_of_le hlt (Nat.pow_le_pow_right Nat.two_pos hw32)
  have readBack := (Memory.readBytes_write hm s.devaddr d.addr hlt hw32).symm
  have write := refCommand_write m hq hi256 (i := i) ⟨⟨hi, hvalid⟩, hro, hd ▸ hfit⟩ hd hV0
  have read := refCommand_read (s := s.afterWrite (encode (.write i)) d V0) _ hq hi256 ⟨hi, hvalid⟩ hd readBack
  rw [Nat.mod_eq_of_lt hlt] at write
  have extracted := Desc.extract_inject hgeo hV0lt s.wdata
  refine ⟨_, _, _, write, hq, rfl, read, hq, rfl, ?_,
    fun _ => Desc.testBit_inject_of_outside hgeo hV0lt s.wdata,
    fun _ => Desc.extract_inject_of_disjoint hgeo hV0lt s.wdata, fun dev reg hne => ?_, ?_⟩
  · rw [Memory.read_write hm, if_pos ⟨rfl, rfl⟩, zext32_toNat hlt32]
  · rw [Memory.read_write hm, if_neg (by tauto)]
  · simp only [State.afterRead, extracted]
    exact ⟨fun hs => Desc.result_of_fits_unsigned hs hfit,
      fun hs hv => Desc.result_of_signed_range hs hn hn32 hv,
      fun hs hlow hhigh => Desc.result_toNat_of_sign_set hs hn hn32 hlow hhigh⟩

end Sys2Proof.Machine
end

section
/-! PROOFS. The register map: the descriptor word, the construction checks, the fixed entries, and the three descriptor
commands case by case (R75, R130 to R138). -/

namespace Sys2Proof.Machine

open Sys2Proof

/-! ### The descriptor word (R75, R138) -/

/-- The descriptor word as a number. -/
theorem Desc.pack_toNat (e : Desc) :
    e.pack.toNat = e.nbits.toNat * 2 ^ 24 + e.lb.toNat * 2 ^ 16 + e.valid.toNat * 2 ^ 15 + e.ro.toNat * 2 ^ 13
      + e.signed.toNat * 2 ^ 12 + e.width.toNat * 2 ^ 8 + e.addr.toNat := by
  simp only [Desc.pack, append_toNat, BitVec.toNat_ofBool, BitVec.toNat_ofNat]
  omega

/-- The one-bit fields of the descriptor word below VALID; bit 14 is reserved. -/
theorem Desc.pack_flags (e : Desc) :
    e.pack.getLsbD 12 = e.signed ∧ e.pack.getLsbD 13 = e.ro ∧ e.pack.getLsbD 14 = false := by
  simp only [Desc.pack, BitVec.getLsbD_append, BitVec.getLsbD_ofBool]
  simp

/-- The register address a descriptor word holds, beside the numbers of `ofWord_numbers`. -/
theorem ofWord_addr_toNat (v : Word) : (Desc.ofWord v).addr.toNat = v.toNat % 256 := by
  simp [Desc.ofWord, BitVec.extractLsb'_toNat]

/-- What DEFINE reads from the word QUERY writes is the entry, valid whatever bit 15 says. -/
theorem Desc.ofWord_pack (e : Desc) : Desc.ofWord e.pack = { e with valid := true } := by
  obtain ⟨hsigned, hro, _⟩ := e.pack_flags
  obtain ⟨hn, hw, hlow⟩ := ofWord_numbers e.pack
  have haddr := ofWord_addr_toNat e.pack
  have hvalid1 := e.valid.toNat_le
  have hro1 := e.ro.toNat_le
  have hsigned1 := e.signed.toNat_le
  have := e.nbits.isLt
  have := e.lb.isLt
  have := e.width.isLt
  have := e.addr.isLt
  rw [e.pack_toNat] at hn hw hlow haddr
  refine (Desc.mk.injEq ..).mpr ⟨rfl, ?_, ?_, hsigned, hro, ?_, ?_⟩ <;> apply BitVec.eq_of_toNat_eq
  · exact haddr.trans (by omega)
  · exact hw.trans (by omega)
  · exact hlow.trans (by omega)
  · exact hn.trans (by omega)

/-- Packing what a word holds keeps every bit but VALID, now 1, and bit 14, now 0. -/
theorem Desc.pack_ofWord (v : Word) : (Desc.ofWord v).pack = (v &&& 0xFFFF3FFF#32) ||| 0x00008000#32 := by
  refine BitVec.eq_of_getLsbD_eq fun j hj => ?_
  simp only [Desc.pack, Desc.ofWord, BitVec.getLsbD_append, BitVec.getLsbD_extractLsb', BitVec.getLsbD_or,
    BitVec.getLsbD_and]
  interval_cases j <;> simp

/-- Settles O27, from the word's value and its reading bit by bit. -/
theorem packIsTheStatedLayout : Obligations.PackIsTheStatedLayout := fun e =>
  ⟨e.pack_toNat, e.pack_flags.right.right, e.ofWord_pack, Desc.pack_ofWord⟩

/-! ### The construction checks (R135) -/

/-- Settles O28: with at least one bit the mask fits the register just where the field does. -/
theorem constructionChecksAreTheStatedOnes : Obligations.ConstructionChecksAreTheStatedOnes := by
  intro c e
  refine ⟨Desc.constructOk_iff c e, (Desc.constructOk_iff c e).trans (and_congr_right fun hn => ?_)⟩
  exact and_congr_right' (and_congr_right' (Desc.mask_lt_iff hn).symm)

/-! ### The fixed entries (R130, R132) -/

/-- A column of the register map is read off the fixed entries alone (R130, R131). -/
theorem State.map_dt_fixed {α : Type} (s : State) (f : Desc → α) :
    ((List.range nFixed).map fun i => f (s.dt i)) = (List.range nFixed).map fun i => f (fixedEntry s.cfg i) :=
  List.map_congr_left fun _ hi => congrArg f (s.dt_fixed (List.mem_range.mp hi))

/-- Settles O24, column by column; P_CONV_RO stands in entry 9's flag and descriptor word alone. -/
theorem fixedEntriesAreTheRegisterMap : Obligations.FixedEntriesAreTheRegisterMap := by
  intro s
  have column {α : Type} (f : Desc → α) := s.map_dt_fixed f
  refine ⟨column (·.valid), column (·.addr.toNat), column (·.width.toNat), column (·.lb.toNat),
    column (·.nbits.toNat), column (·.signed), column (·.ro), (column Desc.mask).trans ?_,
    (column Desc.pack).trans ?_⟩
  · simp [nFixed, List.range_succ, fixedEntry, fixedField, Desc.mask, Desc.n, Desc.low]
  · cases h : s.cfg.convRo <;> simp [nFixed, List.range_succ, fixedEntry, h] <;> decide

/-- A column given as a list gives each of its entries. -/
theorem apply_eq_getD_of_map_range {n : Nat} {f : Nat → Nat} {l : List Nat} (h : (List.range n).map f = l) {i : Nat}
    (hi : i < n) : f i = l.getD i 0 := by
  simp [← h, hi]

/-- Settles O25: the checks hold of every fixed entry, and what the masks have in common is read off their column. -/
theorem fixedMapIsConsistent : Obligations.FixedMapIsConsistent := by
  intro s hc
  obtain ⟨_, haddrs, _, _, _, _, _, hmasks, _⟩ := fixedEntriesAreTheRegisterMap s
  have addr {i : Nat} (hi : i < 10) := apply_eq_getD_of_map_range haddrs hi
  have mask {i : Nat} (hi : i < 10) := apply_eq_getD_of_map_range hmasks hi
  refine ⟨fun i hi => ?_, s.map_dt_fixed fun d => d.lb.toNat + d.nbits.toNat, fun i hi j hj => ?_, ?_,
    fun i hi ha => ?_⟩
  · rw [s.dt_fixed hi]
    exact fixedEntry_constructOk hc hi
  · rw [mask (by omega), mask (by omega)]
    revert i j
    decide
  · refine (List.foldl_ext _ _ 0 fun m i hi => congrArg (m ||| ·) (mask ?_)).trans rfl
    exact (List.mem_range.mp hi).trans (by omega)
  · have hzero := (addr hi).symm.trans (congrArg BitVec.toNat ha)
    rw [mask hi]
    clear ha
    revert i
    decide

/-! ### The execute steps of the descriptor commands (R134, R136, R137) -/

section

variable {s : State} {i : Nat}

theorem exec_define_of_pending (hf : s.fsm = .pending) (i : Nat) :
    exec (.define i) s = .next (defineExecute i s) := by
  simp [exec, execDefine_eq, hf]

theorem exec_undefine_of_pending (hf : s.fsm = .pending) (i : Nat) :
    exec (.undefine i) s = .next (undefineExecute i s) := by
  simp [exec, execUndefine_eq, hf]

theorem exec_query_of_pending (hf : s.fsm = .pending) (i : Nat) :
    exec (.query i) s = .next (queryExecute i s) := by
  simp [exec, execQuery_eq, hf]

theorem State.programmable_of_range (h : s.cfg.nDesc ≤ i) (w : State) : s.programmable i w = s.raise .descRange :=
  if_pos h

theorem State.programmable_of_fixed (hc : s.cfg.legal = true) (h : i < nFixed) (w : State) :
    s.programmable i w = s.raise .descFixed := by
  obtain ⟨_, _, hmin, _⟩ := legal_bounds hc
  have hi : i < s.cfg.nDesc := Nat.lt_of_lt_of_le h hmin
  simp [State.programmable, Nat.not_le.mpr hi, h]

theorem State.programmable_of_prog (hp : nFixed ≤ i) (hi : i < s.cfg.nDesc) (w : State) : s.programmable i w = w := by
  simp [State.programmable, Nat.not_le.mpr hi, Nat.not_lt.mpr hp]

/-- A command that fails in its execute step finds the channel empty, so `raise` leaves it as it is (R36, R172). -/
theorem State.Inv.raise_of_pending (h : s.Inv) (hf : s.fsm = .pending) (e : Err) :
    s.raise e = { s with err := e, fsm := .idle } := by
  obtain ⟨htreq, htrsp⟩ := (State.channelOk_of_pending hf).mp h.channel
  simp [State.raise, htreq, htrsp]

/-- A programmable index of the table has its place in the list of programmable entries (R32). -/
theorem State.Inv.prog_index_lt (h : s.Inv) (hp : nFixed ≤ i) (hi : i < s.cfg.nDesc) :
    i - nFixed < s.prog.length := by
  rw [h.progLength]
  omega

/-- The construction checks of a descriptor word, as numbers (R75, R135). -/
theorem constructOk_ofWord_iff (c : Config) (v : Word) :
    (Desc.ofWord v).constructOk c = true ↔
      1 ≤ v.toNat / 2 ^ 24 ∧ 1 ≤ v.toNat / 2 ^ 8 % 16 ∧ v.toNat / 2 ^ 8 % 16 ≤ c.rwMax ∧
        v.toNat / 2 ^ 16 % 256 + v.toNat / 2 ^ 24 ≤ 8 * (v.toNat / 2 ^ 8 % 16) := by
  obtain ⟨hn, hw, hlow⟩ := ofWord_numbers v
  rw [Desc.constructOk_iff, hn, hw, hlow]

/-- Settles O31: each clause is one case of DEFINE's execute step; the table write is read back by its rules. -/
theorem defineFollowsItsRule : Obligations.DefineFollowsItsRule := by
  rintro s i D hinv hf rfl
  rw [exec_define_of_pending hf, defineExecute]
  refine ⟨fun hi => encode_toNat_of_lt hi, fun h => ?_, fun h => ?_, fun hp hi hbad => ?_,
    fun hp hi hn hw hmax hgeo => ?_⟩
  · rw [State.programmable_of_range h, hinv.raise_of_pending hf]
  · rw [State.programmable_of_fixed hinv.cfgLegal h, hinv.raise_of_pending hf]
  · rw [State.programmable_of_prog hp hi, if_neg (mt (constructOk_ofWord_iff ..).mp hbad), hinv.raise_of_pending hf]
  · rw [State.programmable_of_prog hp hi, if_pos ((constructOk_ofWord_iff ..).mpr ⟨hn, hw, hmax, hgeo⟩)]
    obtain ⟨hnbits, hwidth, hlb⟩ := ofWord_numbers s.latch.desc
    have stored := s.setDt_dt_same (Desc.ofWord s.latch.desc) hp (hinv.prog_index_lt hp hi)
    refine ⟨_, rfl, rfl, ?_⟩
    simp only [State.complete_dt, stored]
    exact ⟨rfl, ofWord_addr_toNat _, hwidth, rfl, rfl, hlb, hnbits, fun _ => s.setDt_dt_other _ hp⟩

/-- Settles O32: each clause is one case of UNDEFINE's execute step. -/
theorem undefineFollowsItsRule : Obligations.UndefineFollowsItsRule := by
  intro s i hinv hf
  rw [exec_undefine_of_pending hf, undefineExecute]
  refine ⟨fun hi => encode_toNat_of_lt hi, fun h => ?_, fun h => ?_, fun hp hi => ?_⟩
  · rw [State.programmable_of_range h, hinv.raise_of_pending hf]
  · rw [State.programmable_of_fixed hinv.cfgLegal h, hinv.raise_of_pending hf]
  · rw [State.programmable_of_prog hp hi]
    exact ⟨_, rfl, rfl, s.setDt_dt_same _ hp (hinv.prog_index_lt hp hi), fun _ => s.setDt_dt_other _ hp⟩

/-! ### QUERY (R137) -/

theorem fixedEntry_valid (c : Config) (hi : i < nFixed) : (fixedEntry c i).valid = true := by
  unfold nFixed at hi
  interval_cases i <;> rfl

/-- Under the invariant an entry that is not valid is the all-zero one (R32, R33). -/
theorem State.Inv.dt_eq_empty (h : s.Inv) (hv : (s.dt i).valid = false) : s.dt i = Desc.empty := by
  by_cases hi : i < nFixed
  · simp [s.dt_fixed hi, fixedEntry_valid s.cfg hi] at hv
  · rw [s.dt_prog (Nat.not_lt.mp hi), List.getD_eq_getElem?_getD] at hv ⊢
    cases hg : s.prog[i - nFixed]? with
    | none => rfl
    | some e =>
      obtain he | ⟨hvalid, _⟩ := h.progOk e (List.mem_of_getElem? hg)
      · exact he
      · simp [hg, hvalid] at hv

theorem queryExecute_of_range (h : s.cfg.nDesc ≤ i) : queryExecute i s = s.raise .descRange :=
  if_pos h

theorem queryExecute_of_lt (h : i < s.cfg.nDesc) :
    queryExecute i s = (s.setDescData (s.dt i).pack).complete :=
  if_neg (Nat.not_le.mpr h)

end

/-- Settles O33: QUERY writes the packed entry, whose value is the stated one. -/
theorem queryFollowsItsRule : Obligations.QueryFollowsItsRule := by
  rintro s i e hinv hf rfl
  rw [exec_query_of_pending hf]
  refine ⟨fun hi => encode_toNat_of_lt hi, fun h => ?_, fun hi => ?_⟩
  · rw [queryExecute_of_range h, hinv.raise_of_pending hf]
  · rw [queryExecute_of_lt hi]
    refine ⟨(s.dt i).pack, rfl, (s.dt i).pack_toNat, fun hv => ?_⟩
    rw [hinv.dt_eq_empty hv]
    rfl

end Sys2Proof.Machine
end

section
/-! PROOFS. The host interface: the step of a host access, the read table register by register, and the write table
(R150 to R155). -/

namespace Sys2Proof.Machine

open Sys2Proof

/-- The step of a listed host access is that access, and never refused (R3, R150). -/
theorem step_of_host {s : State} {a : HostAccess} {ts : List Turn} (hs : s.turns = .host a :: ts) :
    step s = .next (({ s with turns := ts } : State).hostStep a) :=
  step_cons hs

/-! ### The read table (R30, R151) -/

section

variable {s : State} {off : BitVec 8}

theorem State.hostValue_of_cmd (h : hostSelect off = 0) : s.hostValue off = s.cmd := by
  simp [State.hostValue, h]

theorem State.hostValue_of_status (h : hostSelect off = 1) : s.hostValue off = s.status := by
  simp [State.hostValue, h]

theorem State.hostValue_of_devaddr (h : hostSelect off = 2) : s.hostValue off = s.devaddr.setWidth 32 := by
  simp [State.hostValue, h]

theorem State.hostValue_of_descData (h : hostSelect off = 3) : s.hostValue off = s.descData := by
  simp [State.hostValue, h]

theorem State.hostValue_of_wdata (h : hostSelect off = 4) : s.hostValue off = s.wdata := by
  simp [State.hostValue, h]

theorem State.hostValue_of_rdata (h : hostSelect off = 5) : s.hostValue off = s.rdata := by
  simp [State.hostValue, h]

theorem State.hostValue_of_param (h : hostSelect off = 6) : s.hostValue off = paramWord s.cfg := by
  simp [State.hostValue, h]

theorem State.hostValue_of_unmapped (h : 7 ≤ hostSelect off) : s.hostValue off = 0#32 := by
  unfold State.hostValue
  split
  case h_8 => rfl
  all_goals omega

end

/-- `BUSY` as a number (R25). -/
theorem State.busy_toNat (s : State) : s.busy.toNat = if s.fsm = .idle then 0 else 1 := by
  by_cases hf : s.fsm = .idle <;> simp [State.busy, hf]

/-- `STATUS` as a number, its fields at the places R151 gives them. -/
theorem State.status_toNat (s : State) :
    s.status.toNat =
      (if s.fsm = .idle then 0 else 1) + 2 * s.ovr.toNat + 4 * s.rsigned.toNat + 16 * s.err.code.toNat := by
  simp only [State.status, append_toNat, BitVec.toNat_ofBool, BitVec.toNat_ofNat, s.busy_toNat]
  omega

/-- `PARAM` as a number: legal parameters fit their fields (R6, R7, R30). -/
theorem paramWord_toNat {c : Config} (hc : c.legal = true) :
    (paramWord c).toNat = c.rwMax + c.nDesc * 2 ^ 8 + 10 * 2 ^ 16 + 1 * 2 ^ 24 := by
  obtain ⟨_, hrw, _, hn⟩ := legal_bounds hc
  simp only [paramWord, append_toNat, BitVec.toNat_ofNat, nFixed]
  omega

/-- Settles O11, register by register; the turns to come are no part of the value read. -/
theorem hostReadReturnsTheStatedValue : Obligations.HostReadReturnsTheStatedValue := by
  intro s off ts hc hs
  simp only [← hostSelect_eq]
  refine ⟨s.hostValue off, step_of_host hs, State.hostValue_of_cmd, fun h => ?_, fun h => ?_,
    State.hostValue_of_descData, State.hostValue_of_wdata, State.hostValue_of_rdata, fun h => ?_, fun h => ?_⟩
  · rw [State.hostValue_of_status h, State.status_toNat]
  · rw [State.hostValue_of_devaddr h, BitVec.toNat_setWidth_of_le (by omega)]
  · rw [State.hostValue_of_param h, paramWord_toNat hc]
  · rw [State.hostValue_of_unmapped h]
    rfl

/-! ### The write table (R152 to R155) -/

/-- Settles O12: each case of a host write is one line of the table, and no other register is selected. -/
theorem hostWriteDoesWhatTheTableStates : Obligations.HostWriteDoesWhatTheTableStates := by
  intro s off v ts hs
  rw [step_of_host hs]
  simp only [State.hostStep, ← hostSelect_eq, ← bit1_iff]
  congr 1
  obtain ⟨ho, hf, ht⟩ | ⟨ho, hf, ht⟩ | ⟨ho, hb, ht⟩ | ⟨ho, hb, ht⟩ | ⟨ho, ht⟩ | ⟨ho, ht⟩ | ⟨ho, ht⟩ | ⟨ho, ht⟩ :=
    ({ s with turns := ts } : State).hostWrite_cases off v <;> rw [ht]
  · rw [if_pos ho, if_pos hf]
    rfl
  · rw [if_pos ho, if_neg hf]
  · rw [if_neg (by omega), if_pos ho, if_pos hb]
  · rw [if_neg (by omega), if_pos ho, if_neg (Bool.eq_false_iff.mp hb)]
  · simp [ho, BitVec.extractLsb']
  · simp [ho]
  · simp [ho]
  · repeat rw [if_neg (by omega)]

end Sys2Proof.Machine
end

section
/-! PROOFS. The order in which a command's checks report its error, and the end of a command on a `Fail` answer (R173). -/

namespace Sys2Proof.Machine

open Sys2Proof

/-! ### Which words are illegal, as numbers (R73, R74) -/

/-- A word is illegal just where a reserved bit is set or OP is reserved (R73, R74). -/
theorem decode_error_iff (w : Word) :
    (∃ e, decode w = .error e) ↔
      w.toNat / 16 % 16 ≠ 0 ∨ w.toNat / 65536 ≠ 0 ∨ w.toNat % 16 = 0 ∨ 6 ≤ w.toNat % 16 := by
  rw [← cmdOp_toNat, ← or_assoc]
  constructor
  · rintro ⟨e, hd⟩
    unfold decode at hd
    split at hd
    · exact .inl ((reserved_iff w).mp ‹_›)
    · split at hd <;> cases hd
      exact .inr (by simp only [imp_false] at *; omega)
  · intro hw
    cases hd : decode w with
    | error e => exact ⟨e, rfl⟩
    | ok i =>
      obtain ⟨hres0, hres1⟩ := reserved_zero_of_decode hd
      obtain ⟨hop, _⟩ := decode_fields hd
      have hcode := opcode_toNat i
      rw [hop] at hw
      cases i <;> simp only at hcode <;> omega

/-- The fields of a word that decodes, as numbers (R70). -/
theorem decode_numbers {w : Word} {i : Instr} (h : decode w = .ok i) :
    w.toNat % 16 = i.opcode.toNat ∧ w.toNat / 256 % 256 = i.idx := by
  obtain ⟨hop, hidx⟩ := decode_fields h
  exact ⟨by rw [← hop, cmdOp_toNat], by rw [← hidx, cmdIdx_toNat]⟩

/-! ### The order of each command's checks (R107, R108, R134, R136, R137) -/

section

variable {s : State} (hinv : s.Inv) (hf : s.fsm = .pending) (i : Nat)

include hinv hf

/-- READ's checks: DESC_RANGE, then DESC_INVALID (R107, R173). -/
theorem readExecute_order :
    if s.cfg.nDesc ≤ i then readExecute i s = { s with err := .descRange, fsm := .idle }
    else if (s.dt i).valid = false then readExecute i s = { s with err := .descInvalid, fsm := .idle }
    else (readExecute i s).fsm = .rdWait ∧ (readExecute i s).err = s.err := by
  simp only [← hinv.raise_of_pending hf]
  unfold readExecute
  split_ifs
  · rfl
  · rfl
  · exact ⟨rfl, rfl⟩

/-- WRITE's checks: DESC_RANGE, DESC_INVALID, UNSUPPORTED, then INVALID_ARGUMENT (R108, R173). -/
theorem writeExecute_order :
    if s.cfg.nDesc ≤ i then writeExecute i s = { s with err := .descRange, fsm := .idle }
    else if (s.dt i).valid = false then writeExecute i s = { s with err := .descInvalid, fsm := .idle }
    else if (s.dt i).ro = true then writeExecute i s = { s with err := .unsupported, fsm := .idle }
    else if (s.dt i).fits s.latch.wdata = false then
      writeExecute i s = { s with err := .invalidArgument, fsm := .idle }
    else (writeExecute i s).fsm = .rdWait ∧ (writeExecute i s).err = s.err := by
  simp only [← hinv.raise_of_pending hf]
  unfold writeExecute
  split_ifs
  · rfl
  · rfl
  · rfl
  · rfl
  · exact ⟨rfl, rfl⟩

/-- DEFINE's checks: DESC_RANGE, DESC_FIXED, then CONSTRUCTION (R134, R173). -/
theorem defineExecute_order :
    if s.cfg.nDesc ≤ i then defineExecute i s = { s with err := .descRange, fsm := .idle }
    else if i < 10 then defineExecute i s = { s with err := .descFixed, fsm := .idle }
    else if (Desc.ofWord s.latch.desc).constructOk s.cfg = false then
      defineExecute i s = { s with err := .construction, fsm := .idle }
    else (defineExecute i s).fsm = .idle ∧ (defineExecute i s).err = .noError ∧
      (defineExecute i s).hist = s.hist := by
  simp only [← hinv.raise_of_pending hf]
  unfold defineExecute State.programmable nFixed
  split_ifs with hrange hfixed hbad hok hok
  · rfl
  · rfl
  · exact absurd hok (by simp [hbad])
  · rfl
  · exact ⟨rfl, rfl, rfl⟩
  · exact absurd (Bool.eq_true_of_not_eq_false hbad) hok

/-- UNDEFINE's checks: DESC_RANGE, then DESC_FIXED (R136, R173). -/
theorem undefineExecute_order :
    if s.cfg.nDesc ≤ i then undefineExecute i s = { s with err := .descRange, fsm := .idle }
    else if i < 10 then undefineExecute i s = { s with err := .descFixed, fsm := .idle }
    else (undefineExecute i s).fsm = .idle ∧ (undefineExecute i s).err = .noError ∧
      (undefineExecute i s).hist = s.hist := by
  simp only [← hinv.raise_of_pending hf]
  unfold undefineExecute State.programmable nFixed
  split_ifs
  · rfl
  · rfl
  · exact ⟨rfl, rfl, rfl⟩

/-- QUERY's only check is DESC_RANGE (R137, R173). -/
theorem queryExecute_order :
    if s.cfg.nDesc ≤ i then queryExecute i s = { s with err := .descRange, fsm := .idle }
    else (queryExecute i s).fsm = .idle ∧ (queryExecute i s).err = .noError ∧ (queryExecute i s).hist = s.hist := by
  simp only [← hinv.raise_of_pending hf]
  unfold queryExecute
  split_ifs
  · rfl
  · exact ⟨rfl, rfl, rfl⟩

end

/-! ### The Engine's steps that report an error (R158, R159, R173) -/

/-- A `Fail` answer ends the command in progress with TRANSPORT, whichever transaction it answers (R107, R108). -/
theorem State.Inv.engineStep_of_fail {s : State} (h : s.Inv) (hw : s.fsm = .rdWait ∨ s.fsm = .wrWait)
    (ha : s.trsp = some .fail) : engineStep s = .next { s with trsp := none, err := .transport, fsm := .idle } := by
  have ends : s.consume.raise .transport = { s with trsp := none, err := .transport, fsm := .idle } := by
    simp [State.raise, State.consume, h.channel.treq_eq_none ha]
  rw [← ends]
  obtain hf | hf := hw
  · obtain ⟨i, ⟨hd, _⟩ | ⟨hd, _⟩, _⟩ := (State.channelOk_of_rdWait hf).mp h.channel
    · rw [engineStep_of_read hf ha hd, exec_read_of_fail hf ha]
    · rw [engineStep_of_write (.inl hf) ha hd, exec_write_of_fail (.inl hf) ha]
  · obtain ⟨i, _, hd, _, _⟩ := (State.channelOk_of_wrWait hf).mp h.channel
    rw [engineStep_of_write (.inr hf) ha hd, exec_write_of_fail (.inr hf) ha]

/-- Settles O37: an illegal word is reported before any other error; a word that decodes runs its command's checks in
their order, which is the stated one restricted to the checks that command makes. -/
theorem firstApplicableErrorIsReported : Obligations.FirstApplicableErrorIsReported := by
  refine ⟨?_, fun s ts hinv hw ha hs => ?_⟩
  · rintro s ts w op i hinv hf hs rfl rfl rfl
    have hinv' := hinv.withTurns ts
    have hdt (k : Nat) : ({ s with turns := ts } : State).dt k = s.dt k := rfl
    have hf' : ({ s with turns := ts } : State).fsm = .pending := hf
    cases hd : decode s.latch.word with
    | error e =>
      refine ⟨_, step_of_illegal hs hf hd, ?_⟩
      rw [if_pos ((decode_error_iff _).mp ⟨e, hd⟩)]
      exact hinv'.raise_of_pending hf _
    | ok c =>
      have legal := mt (decode_error_iff s.latch.word).mpr (by simp [hd])
      obtain ⟨hop, hidx⟩ := decode_numbers hd
      have hstep : step s = exec c { s with turns := ts } := by
        rw [step_cons hs]
        exact engineStep_of_pending hf' hd
      simp only [if_neg legal]
      simp only [hstep, hop, hidx]
      cases c with
      | read k =>
        refine ⟨_, exec_read_of_pending hf' k, ?_⟩
        simpa [Instr.opcode, Instr.idx, hdt] using readExecute_order hinv' hf' k
      | write k =>
        refine ⟨_, exec_write_of_pending hf' k, ?_⟩
        simpa [Instr.opcode, Instr.idx, hdt] using writeExecute_order hinv' hf' k
      | define k =>
        refine ⟨_, exec_define_of_pending hf' k, ?_⟩
        simpa [Instr.opcode, Instr.idx, hdt] using defineExecute_order hinv' hf' k
      | undefine k =>
        refine ⟨_, exec_undefine_of_pending hf' k, ?_⟩
        simpa [Instr.opcode, Instr.idx, hdt] using undefineExecute_order hinv' hf' k
      | query k =>
        refine ⟨_, exec_query_of_pending hf' k, ?_⟩
        simpa [Instr.opcode, Instr.idx, hdt] using queryExecute_order hinv' hf' k
  · rw [step_cons hs]
    exact (hinv.withTurns ts).engineStep_of_fail hw ha

end Sys2Proof.Machine
end

section
/-! PROOFS. The block while a transaction is not answered: what Host and Engine can do to it (R154, R181, R184). -/

namespace Sys2Proof.Machine

open Sys2Proof

/-! ### The turns a step takes (R3) -/

theorem EngineEffect.turns_eq {s t : State} (h : EngineEffect s t) : t.turns = s.turns := by
  cases h <;> rfl

theorem State.hostStep_turns (s : State) (a : HostAccess) : (s.hostStep a).turns = s.turns := by
  cases a with
  | read off => rfl
  | write off v =>
    simp only [State.hostStep]
    obtain ⟨_, _, ht⟩ | ⟨_, _, ht⟩ | ⟨_, _, ht⟩ | ⟨_, _, ht⟩ | ⟨_, ht⟩ | ⟨_, ht⟩ | ⟨_, ht⟩ | ⟨_, ht⟩ :=
      s.hostWrite_cases off v <;> rw [ht]
    rfl

/-- A step takes the first of the turns listed, if any is (R3, log 2). -/
theorem step_turns {s t : State} (h : step s = .next t) : t.turns = s.turns.tail := by
  obtain ⟨hs, he⟩ | ⟨ts, hs, he⟩ | ⟨a, ts, hs, rfl⟩ | ⟨rsp, ts, hs, he⟩ | ⟨ts, hs, rfl⟩ := step_next h
  · rw [(engineStep_effect he).turns_eq, hs, List.tail_nil]
  · rw [(engineStep_effect he).turns_eq, hs, List.tail_cons]
  · rw [State.hostStep_turns, hs, List.tail_cons]
  · obtain ⟨_, _, _, _, rfl⟩ := transportStep_next he
    rw [State.answer_turns, hs, List.tail_cons]
  · rw [State.hwReset_turns, hs, List.tail_cons]

/-- The first step of a run of the machine (R3). -/
theorem core_run_first {n : Nat} {s t : State} (h : Host.Core.run Sys2Proof.core (n + 1) s = .next t) :
    ∃ s1, step s = .next s1 ∧ Host.Core.run Sys2Proof.core n s1 = .next t :=
  run_first Sys2Proof.core h

/-! ### The Host and a busy block (R151 to R155) -/

/-- A `CMD` write while a command is in progress is dropped with OVR set (R154). -/
theorem State.writeCmd_of_busy {s : State} (hf : s.fsm ≠ .idle) (v : Word) : s.writeCmd v = { s with ovr := true } := by
  unfold State.writeCmd
  split
  · exact absurd ‹_› hf
  · rfl

/-- What the Host can touch while a command is in progress: OVR, the operand registers and what it reads (R151 to
R155). -/
theorem State.hostStep_of_busy {s : State} (hf : s.fsm ≠ .idle) (a : HostAccess) :
    ∃ ovr devaddr descData wdata hostResult, s.hostStep a =
      { s with ovr := ovr, devaddr := devaddr, descData := descData, wdata := wdata, hostResult := hostResult } := by
  cases a with
  | read off => exact ⟨_, _, _, _, _, rfl⟩
  | write off v =>
    simp only [State.hostStep]
    obtain ⟨_, hi, _⟩ | ⟨_, _, ht⟩ | ⟨_, _, ht⟩ | ⟨_, _, ht⟩ | ⟨_, ht⟩ | ⟨_, ht⟩ | ⟨_, ht⟩ | ⟨_, ht⟩ :=
      s.hostWrite_cases off v
    · exact absurd hi hf
    all_goals exact ⟨_, _, _, _, _, ht⟩

/-! ### The command that waits (R181) -/

theorem Fsm.ne_idle_of_waiting {f : Fsm} (h : f = .rdWait ∨ f = .wrWait) : f ≠ .idle := by
  rintro rfl
  simp at h

/-- The command in progress in `t`, its transaction and the history are as in `s`. -/
structure State.SameCommand (s t : State) : Prop where
  fsm : t.fsm = s.fsm
  treq : t.treq = s.treq
  trsp : t.trsp = s.trsp
  latch : t.latch = s.latch
  cmd : t.cmd = s.cmd
  hist : t.hist = s.hist

theorem State.SameCommand.trans {s t u : State} (h : s.SameCommand t) (h' : t.SameCommand u) : s.SameCommand u :=
  ⟨h'.fsm.trans h.fsm, h'.treq.trans h.treq, h'.trsp.trans h.trsp, h'.latch.trans h.latch, h'.cmd.trans h.cmd,
    h'.hist.trans h.hist⟩

/-- While the Engine waits, a step of Host or Engine goes on with the same command (R181, R184). -/
theorem step_of_unanswered {s : State} (hw : s.fsm = .rdWait ∨ s.fsm = .wrWait) (hr : s.trsp = none)
    (hu : ∀ u ∈ s.turns, u = .engine ∨ ∃ a, u = .host a) : ∃ t, step s = .next t ∧ s.SameCommand t := by
  cases hs : s.turns with
  | nil => exact ⟨s, by rw [step_nil hs, engineStep_waiting hw hr], rfl, rfl, rfl, rfl, rfl, rfl⟩
  | cons u ts =>
    obtain rfl | ⟨a, rfl⟩ := hu u (by simp [hs])
    · refine ⟨{ s with turns := ts }, ?_, rfl, rfl, rfl, rfl, rfl, rfl⟩
      rw [step_cons hs]
      exact engineStep_waiting hw hr
    · refine ⟨_, step_of_host hs, ?_⟩
      obtain ⟨_, _, _, _, _, ht⟩ :=
        State.hostStep_of_busy (s := { s with turns := ts }) (Fsm.ne_idle_of_waiting hw) a
      rw [ht]
      exact ⟨rfl, rfl, rfl, rfl, rfl, rfl⟩

/-- While the Engine waits, any number of steps of Host and Engine go on with the same command (R181). -/
theorem run_of_unanswered (n : Nat) {s : State} (hw : s.fsm = .rdWait ∨ s.fsm = .wrWait) (hr : s.trsp = none)
    (hu : ∀ u ∈ s.turns, u = .engine ∨ ∃ a, u = .host a) :
    ∃ t : State, Host.Core.run Sys2Proof.core n s = .next t ∧ s.SameCommand t := by
  induction n generalizing s with
  | zero => exact ⟨s, rfl, rfl, rfl, rfl, rfl, rfl, rfl⟩
  | succ n ih =>
    obtain ⟨s1, hstep, same⟩ := step_of_unanswered hw hr hu
    have hu1 : ∀ u ∈ s1.turns, u = .engine ∨ ∃ a, u = .host a := fun u hm =>
      hu u (List.mem_of_mem_tail (step_turns hstep ▸ hm))
    obtain ⟨t, hrun, same'⟩ := ih (same.fsm.symm ▸ hw) (same.trsp.trans hr) hu1
    exact ⟨t, (run_succ Sys2Proof.core n s s1 hstep).trans hrun, same.trans same'⟩

/-- Settles O41: Host and Engine go on with the same command, and of the transitions of R34 only Reset's is possible. -/
theorem unansweredTransactionHangsTheBlock : Obligations.UnansweredTransactionHangsTheBlock := by
  refine ⟨fun n s hw hr hu => ?_, fun s v ts hw hs => ?_, fun s t hw hr hstep hne => ?_⟩
  · obtain ⟨t, hrun, same⟩ := run_of_unanswered n hw hr hu
    refine ⟨t, hrun, same.fsm, same.treq, same.trsp.trans hr, same.latch, same.cmd, same.hist, ?_⟩
    rw [State.status_bit_zero, State.busy, same.fsm]
    exact decide_eq_true (Fsm.ne_idle_of_waiting hw)
  · rw [step_of_host hs]
    exact congrArg _ (State.writeCmd_of_busy (s := { s with turns := ts }) (Fsm.ne_idle_of_waiting hw) v)
  · obtain ⟨_, _, transitions⟩ := engineMakesOnlyTheStatedTransitions
    obtain hreset | ⟨hi, _⟩ | ⟨_, ⟨hp, _⟩ | ⟨_, ha, _⟩ | ⟨_, ha, _⟩⟩ := transitions s t hstep hne
    · exact hreset
    · exact absurd hi (Fsm.ne_idle_of_waiting hw)
    · simp [hp] at hw
    · exact absurd hr ha
    · exact absurd hr ha

end Sys2Proof.Machine
end

section
/-! PROOFS. A whole command that ends with an error, from its acceptance, under any turns but a Reset (R172). -/

namespace Sys2Proof.Machine

open Sys2Proof

/-! ### The registers a turn of the Host writes (R152) -/

theorem Turn.writesReg_host_iff (off : BitVec 8) (v : Word) (k : Nat) :
    (Turn.host (.write off v)).writesReg k ↔ hostSelect off = k := by
  simp [Turn.writesReg, hostSelect_eq]

/-- OVR and the operand registers change only by a host write that selects them, OVR also by a dropped `CMD` write
(R152 to R155). -/
theorem State.hostStep_registers (s : State) (a : HostAccess) :
    (¬(Turn.host a).writesReg 0 ∧ ¬(Turn.host a).writesReg 1 → (s.hostStep a).ovr = s.ovr) ∧
    (¬(Turn.host a).writesReg 2 → (s.hostStep a).devaddr = s.devaddr) ∧
    (¬(Turn.host a).writesReg 3 → (s.hostStep a).descData = s.descData) ∧
    (¬(Turn.host a).writesReg 4 → (s.hostStep a).wdata = s.wdata) := by
  cases a with
  | read off => exact ⟨fun _ => rfl, fun _ => rfl, fun _ => rfl, fun _ => rfl⟩
  | write off v =>
    simp only [Turn.writesReg_host_iff, State.hostStep]
    obtain ⟨ho, _, ht⟩ | ⟨ho, _, ht⟩ | ⟨ho, _, ht⟩ | ⟨ho, _, ht⟩ | ⟨ho, ht⟩ | ⟨ho, ht⟩ | ⟨ho, ht⟩ | ⟨ho, ht⟩ :=
      s.hostWrite_cases off v <;> simp [ho, ht]

/-! ### What a command that fails keeps (R172) -/

/-- `t` has the results, the table, `CMD` and the latch of `s`, and OVR and each operand register of `s` that no turn of
`us` writes. -/
structure State.KeptBy (us : List Turn) (s t : State) : Prop where
  cmd : t.cmd = s.cmd
  latch : t.latch = s.latch
  rsigned : t.rsigned = s.rsigned
  rdata : t.rdata = s.rdata
  prog : t.prog = s.prog
  cfg : t.cfg = s.cfg
  ovr : (∀ u ∈ us, ¬u.writesReg 0 ∧ ¬u.writesReg 1) → t.ovr = s.ovr
  devaddr : (∀ u ∈ us, ¬u.writesReg 2) → t.devaddr = s.devaddr
  descData : (∀ u ∈ us, ¬u.writesReg 3) → t.descData = s.descData
  wdata : (∀ u ∈ us, ¬u.writesReg 4) → t.wdata = s.wdata

theorem State.KeptBy.refl (us : List Turn) (s : State) : s.KeptBy us s :=
  ⟨rfl, rfl, rfl, rfl, rfl, rfl, fun _ => rfl, fun _ => rfl, fun _ => rfl, fun _ => rfl⟩

theorem State.KeptBy.trans {us vs : List Turn} {s t u : State} (h : s.KeptBy us t) (h' : t.KeptBy vs u) :
    s.KeptBy (us ++ vs) u where
  cmd := h'.cmd.trans h.cmd
  latch := h'.latch.trans h.latch
  rsigned := h'.rsigned.trans h.rsigned
  rdata := h'.rdata.trans h.rdata
  prog := h'.prog.trans h.prog
  cfg := h'.cfg.trans h.cfg
  ovr hu :=
    have ⟨h1, h2⟩ := List.forall_mem_append.mp hu
    (h'.ovr h2).trans (h.ovr h1)
  devaddr hu :=
    have ⟨h1, h2⟩ := List.forall_mem_append.mp hu
    (h'.devaddr h2).trans (h.devaddr h1)
  descData hu :=
    have ⟨h1, h2⟩ := List.forall_mem_append.mp hu
    (h'.descData h2).trans (h.descData h1)
  wdata hu :=
    have ⟨h1, h2⟩ := List.forall_mem_append.mp hu
    (h'.wdata h2).trans (h.wdata h1)

theorem State.KeptBy.of_withTurns {us ts : List Turn} {s t : State} (h : ({ s with turns := ts } : State).KeptBy us t) :
    s.KeptBy us t :=
  ⟨h.cmd, h.latch, h.rsigned, h.rdata, h.prog, h.cfg, h.ovr, h.devaddr, h.descData, h.wdata⟩

/-- Of the Engine's steps only those that complete a command write a result or the table, and they leave ERR = 0
(R13, R172). -/
theorem EngineEffect.kept {s t : State} (h : EngineEffect s t) (hend : t.fsm ≠ .idle ∨ t.err ≠ .noError)
    (us : List Turn) : s.KeptBy us t := by
  cases h with
  | rests => exact .refl us s
  | rejects | issuesRead | fails | issuesWrite =>
    exact ⟨rfl, rfl, rfl, rfl, rfl, rfl, fun _ => rfl, fun _ => rfl, fun _ => rfl, fun _ => rfl⟩
  | defines | undefines | queries | readsValue | writesValue => simp at hend

/-- While a command is in progress a Host step keeps what a command that fails keeps (R153, R154). -/
theorem State.hostStep_kept {s : State} (hf : s.fsm ≠ .idle) (a : HostAccess) :
    s.KeptBy [.host a] (s.hostStep a) := by
  obtain ⟨_, _, _, _, _, ht⟩ := State.hostStep_of_busy hf a
  obtain ⟨hovr, hdevaddr, hdescData, hwdata⟩ := s.hostStep_registers a
  have self : Turn.host a ∈ [Turn.host a] := List.mem_singleton_self _
  exact ⟨by rw [ht], by rw [ht], by rw [ht], by rw [ht], by rw [ht], by rw [ht], fun hu => hovr (hu _ self),
    fun hu => hdevaddr (hu _ self), fun hu => hdescData (hu _ self), fun hu => hwdata (hu _ self)⟩

/-- While a command is in progress, a step that is not Reset's and does not end it with ERR = 0 keeps what a command
that fails keeps. -/
theorem step_kept {s t : State} (h : step s = .next t) (hf : s.fsm ≠ .idle)
    (hend : t.fsm ≠ .idle ∨ t.err ≠ .noError) (hr : .reset ∉ s.turns.take 1) : s.KeptBy (s.turns.take 1) t := by
  obtain ⟨hs, he⟩ | ⟨ts, hs, he⟩ | ⟨a, ts, hs, rfl⟩ | ⟨rsp, ts, hs, he⟩ | ⟨ts, hs, rfl⟩ := step_next h
  · exact (engineStep_effect he).kept hend _
  · exact ((engineStep_effect he).kept hend _).of_withTurns
  · rw [hs]
    exact (State.hostStep_kept (s := { s with turns := ts }) hf a).of_withTurns
  · obtain ⟨_, _, _, _, rfl⟩ := transportStep_next he
    exact ⟨rfl, rfl, rfl, rfl, rfl, rfl, fun _ => rfl, fun _ => rfl, fun _ => rfl, fun _ => rfl⟩
  · simp [hs] at hr

/-- A run without Reset in which a command is in progress before every step, and does not end with ERR = 0, keeps what
a command that fails keeps. -/
theorem run_kept {n : Nat} {s t : State} (h : Host.Core.run Sys2Proof.core n s = .next t)
    (hbusy : ∀ k u, k < n → Host.Core.run Sys2Proof.core k s = .next u → u.fsm ≠ .idle)
    (hend : t.err ≠ .noError) (hr : .reset ∉ s.turns.take n) : s.KeptBy (s.turns.take n) t := by
  induction n generalizing s with
  | zero =>
    cases h
    exact .refl _ t
  | succ n ih =>
    obtain ⟨s1, hstep, hrun⟩ := core_run_first h
    have hbusy1 (k : Nat) (u : State) (hk : k < n) (hu : Host.Core.run Sys2Proof.core k s1 = .next u) :
        u.fsm ≠ .idle :=
      hbusy (k + 1) u (Nat.succ_lt_succ hk) ((run_succ Sys2Proof.core k s s1 hstep).trans hu)
    have hend1 : s1.fsm ≠ .idle ∨ s1.err ≠ .noError := by
      cases n with
      | zero =>
        cases hrun
        exact .inr hend
      | succ n => exact .inl (hbusy1 0 s1 (Nat.succ_pos n) rfl)
    have htake : s.turns.take (n + 1) = s.turns.take 1 ++ s1.turns.take n := by
      rw [step_turns hstep, Nat.add_comm, List.take_add, List.drop_one]
    rw [htake, List.mem_append, not_or] at hr
    obtain ⟨hr0, hr1⟩ := hr
    rw [htake]
    exact (step_kept hstep (hbusy 0 s (Nat.succ_pos n) rfl) hend1 hr0).trans (ih hrun hbusy1 hr1)

/-- Every state of a run satisfies the invariant if the first does. -/
theorem State.Inv.run {n : Nat} {s t : State} (h : s.Inv) (hrun : Host.Core.run Sys2Proof.core n s = .next t) :
    t.Inv := by
  induction n generalizing s with
  | zero =>
    cases hrun
    exact h
  | succ n ih =>
    obtain ⟨s1, hstep, hrun1⟩ := core_run_first hrun
    exact ih (h.step hstep) hrun1

/-- A host write that selects `CMD`, while the Engine is IDLE, is accepted (R150, R153). -/
theorem step_of_accepted {s : State} {off : BitVec 8} {v : Word} {ts : List Turn}
    (hs : s.turns = .host (.write off v) :: ts) (hoff : off.toNat / 4 = 0) (hf : s.fsm = .idle) :
    step s = .next (({ s with turns := ts } : State).accept v) := by
  rw [step_of_host hs]
  simp [State.hostStep, State.hostWrite, hostSelect_eq, hoff, State.writeCmd, hf]

/-- Settles O52: the steps after the acceptance keep all but what R172 excepts, and at both ends the channel is empty. -/
theorem failedCommandsArePrecise : Obligations.FailedCommandsArePrecise := by
  refine ⟨fun s e => rfl, fun n s t off v ts hinv hf hs hoff hrun hbusy htf hterr hr => ?_⟩
  have hstep := step_of_accepted hs hoff hf
  obtain ⟨s1, hstep1, hrun1⟩ := core_run_first hrun
  obtain rfl : _ = s1 := Host.Outcome.next.inj (hstep.symm.trans hstep1)
  have hkept := run_kept hrun1
    (fun k u hk hu => hbusy (k + 1) u (Nat.succ_pos k) (Nat.succ_lt_succ hk)
      ((run_succ Sys2Proof.core k s _ hstep).trans hu)) hterr hr
  obtain ⟨htreq, htrsp⟩ := (State.channelOk_of_idle hf).mp hinv.channel
  obtain ⟨htreq', htrsp'⟩ := (State.channelOk_of_idle htf).mp (hinv.run hrun).channel
  obtain ⟨hcmd, hlatch, hrsigned, hrdata, hprog, hcfg, hovr, hdevaddr, hdescData, hwdata⟩ := hkept
  refine ⟨?_, hovr, hdevaddr, hdescData, hwdata⟩
  -- Field by field: each is kept, or is one of the exceptions, which both sides take from `t`.
  cases t
  simp_all

end Sys2Proof.Machine
end

section
/-! PROOFS. The Reset step: what it leaves of the descriptor table and of `STATUS`, and every piece of state after it
(R190, R191). -/

namespace Sys2Proof.Machine

open Sys2Proof

/-- A listed Reset is never refused, whatever the state (R190). -/
theorem step_of_reset {s : State} {ts : List Turn} (hs : s.turns = .reset :: ts) :
    step s = .next ({ s with turns := ts } : State).hwReset :=
  step_cons hs

/-- Reset leaves the fixed entries, which the parameters alone determine (R131, R191). -/
theorem State.hwReset_dt_fixed (s : State) {i : Nat} (hi : i < nFixed) : s.hwReset.dt i = s.dt i := by
  rw [s.hwReset.dt_fixed hi, s.dt_fixed hi, s.hwReset_cfg]

/-- Reset clears the programmable entries; past the end of the table an empty entry is read as well (R191). -/
theorem State.hwReset_dt_prog (s : State) {i : Nat} (hi : nFixed ≤ i) : s.hwReset.dt i = Desc.empty := by
  rw [s.hwReset.dt_prog hi, s.hwReset_prog, List.getD_eq_getElem?_getD,
    List.getElem?_getD_replicate_default_eq]

/-- `STATUS` reads 0 after Reset: no command in progress, no flag set, no error (R191). -/
theorem State.hwReset_status (s : State) : s.hwReset.status = 0#32 :=
  BitVec.eq_of_toNat_eq (by simp [State.status_toNat, Err.code])

/-- Settles O40: `STATUS` and the two halves of the table are the lemmas above; every other piece of state is a field
that the Reset step sets or keeps. -/
theorem resetSetsEveryPieceOfState : Obligations.ResetSetsEveryPieceOfState := by
  intro s ts hs
  refine ⟨({ s with turns := ts } : State).hwReset, step_of_reset hs, rfl, ?status, rfl, rfl, rfl, rfl, rfl, rfl, rfl,
    rfl, rfl, rfl, rfl, rfl, rfl, ?fixed, ?length, ?prog⟩
  case status => exact congrArg BitVec.toNat (State.hwReset_status _)
  case fixed => exact fun i hi => State.hwReset_dt_fixed _ hi
  case length => exact List.length_replicate
  case prog => exact fun i hi => State.hwReset_dt_prog _ hi

end Sys2Proof.Machine
end

section
/-! PROOFS. The command word: decoding and encoding undo each other, and which words are which commands, as numbers
(R70 to R76). -/

namespace Sys2Proof.Machine

open Sys2Proof

/-- Settles O1. -/
theorem decodeOfEncodeGivesTheCommandBack : Obligations.DecodeOfEncodeGivesTheCommandBack :=
  fun _ hi => decode_encode hi

/-- Settles O2. -/
theorem encodeOfDecodeGivesTheWordBack : Obligations.EncodeOfDecodeGivesTheWordBack :=
  fun _ _ h => ⟨wellFormed_of_decode h, encode_of_decode h⟩

/-- A word decodes to a command just where the index fits its field and the word is the command's, as a number (R70 to
R72). -/
theorem decode_ok_iff (w : Word) (i : Instr) :
    decode w = .ok i ↔ i.idx < 256 ∧ w.toNat = i.idx * 256 + i.opcode.toNat := by
  constructor
  · intro h
    have hi : i.idx < 256 := of_decide_eq_true (wellFormed_of_decode h)
    exact ⟨hi, by rw [← encode_of_decode h, encode_toNat_of_lt hi]⟩
  · rintro ⟨hi, hw⟩
    obtain rfl : encode i = w := BitVec.eq_of_toNat_eq (by rw [encode_toNat_of_lt hi, hw])
    exact decode_encode (decide_eq_true hi)

/-- Settles O3: each command's words, by its OP, and the illegal ones. -/
theorem decodeReadsTheStatedWords : Obligations.DecodeReadsTheStatedWords := fun w =>
  ⟨fun i => decode_ok_iff w (.read i), fun i => decode_ok_iff w (.write i), fun i => decode_ok_iff w (.define i),
    fun i => decode_ok_iff w (.undefine i), fun i => decode_ok_iff w (.query i), decode_error_iff w⟩

/-- A word whose reserved bits are zero and whose OP is none of the five is illegal for its OP (R74). -/
theorem decode_of_reservedOp {w : Word} (hres : w.toNat / 16 % 16 = 0 ∧ w.toNat / 65536 = 0)
    (hop : w.toNat % 16 = 0 ∨ 6 ≤ w.toNat % 16) : decode w = .error .reservedOp := by
  rw [decode, if_neg (mt (reserved_iff w).mp (by omega)), cmdOp_toNat]
  split
  case h_6 => rfl
  all_goals omega

/-- Settles O4: the five legal words are the encodings of their commands; the others have a reserved bit set or a
reserved OP. -/
theorem statedWordsDecodeAsStated : Obligations.StatedWordsDecodeAsStated :=
  ⟨decode_encode (i := .read 9) rfl, decode_encode (i := .write 1) rfl, decode_encode (i := .define 10) rfl,
    decode_encode (i := .undefine 15) rfl, decode_encode (i := .query 255) rfl,
    decode_of_reservedOp (by decide) (by decide), decode_of_reservedOp (by decide) (by decide),
    decode_of_reservedOp (by decide) (by decide), decode_of_reserved (by decide), decode_of_reserved (by decide),
    decode_of_reserved (by decide), decode_of_reserved (by decide)⟩

end Sys2Proof.Machine
end

section
/-! PROOFS. Which step runs which command, that the Engine and the Transport always have a step the spec gives them, and
what an enabled Engine step achieves (R52, R158 to R160). -/

namespace Sys2Proof.Machine

open Sys2Proof

/-! ### The Engine's turn (R3, R158) -/

/-- With an Engine turn next, or no turn listed, a step is the Engine's (log 2). -/
theorem step_of_engine {s : State} {ts : List Turn} (hs : s.turns = .engine :: ts) :
    step s = engineStep { s with turns := ts } :=
  step_cons hs

/-- Settles O7. -/
theorem stepRunsTheLatchedCommand : Obligations.StepRunsTheLatchedCommand := fun s _ hf hd =>
  ⟨fun ts hs => (step_of_engine hs).trans (engineStep_of_pending (s := { s with turns := ts }) hf hd),
    fun hs => (step_nil hs).trans (engineStep_of_pending hf hd)⟩

/-! ### The Engine on an answer (R159) -/

/-- What a waiting Engine's answer is an answer to: the read transaction of the latched READ or WRITE, or the write
transaction of the latched WRITE; and it is one R52 admits. -/
theorem State.Inv.answer_cases {s : State} {rsp : Rsp} (h : s.Inv) (hr : s.trsp = some rsp) :
    ∃ i, (s.fsm = .rdWait ∧ decode s.latch.word = .ok (.read i) ∧ (rsp = .fail ∨ ∃ b, rsp = .readOk b)) ∨
      (s.fsm = .rdWait ∧ decode s.latch.word = .ok (.write i) ∧ (rsp = .fail ∨ ∃ b, rsp = .readOk b)) ∨
      (s.fsm = .wrWait ∧ decode s.latch.word = .ok (.write i) ∧ (rsp = .fail ∨ rsp = .writeOk)) := by
  have admitted {req : Req} (ha : s.awaits req) : req.admits rsp = true := by
    obtain ⟨_, hn⟩ | ⟨_, rsp', hr', ha⟩ := ha
    · simp [hr] at hn
    · obtain rfl : rsp = rsp' := by simpa [hr] using hr'
      exact ha
  obtain (hf | hf) | ⟨_, hn⟩ := h.channel.waiting_or_empty
  · obtain ⟨i, hd, ha⟩ := (State.channelOk_of_rdWait hf).mp h.channel
    have kinds : rsp = .fail ∨ ∃ b, rsp = .readOk b := by
      have := admitted ha
      cases rsp <;> simp_all [State.readReq, Req.admits]
    exact ⟨i, hd.imp (fun ⟨hd, _⟩ => ⟨hf, hd, kinds⟩) fun ⟨hd, _⟩ => .inl ⟨hf, hd, kinds⟩⟩
  · obtain ⟨i, _, hd, _, ha⟩ := (State.channelOk_of_wrWait hf).mp h.channel
    have kinds : rsp = .fail ∨ rsp = .writeOk := by
      have := admitted ha
      cases rsp <;> simp_all [State.writeReq, Req.admits]
    exact ⟨i, .inr (.inr ⟨hf, hd, kinds⟩)⟩
  · simp [hr] at hn

/-- The Engine's step on an answer is `exec` of the latched command (R159). -/
theorem State.Inv.engineStep_of_answer {s : State} {i : Instr} (h : s.Inv) (hr : s.trsp ≠ none)
    (hd : decode s.latch.word = .ok i) : engineStep s = exec i s := by
  obtain ⟨rsp, hr⟩ := Option.ne_none_iff_exists'.mp hr
  obtain ⟨k, ⟨hf, hd', _⟩ | ⟨hf, hd', _⟩ | ⟨hf, hd', _⟩⟩ := h.answer_cases hr <;>
    obtain rfl := Except.ok.inj (hd.symm.trans hd')
  · exact engineStep_of_read hf hr hd
  · exact engineStep_of_write (.inl hf) hr hd
  · exact engineStep_of_write (.inr hf) hr hd

/-- Settles O8. -/
theorem stepRunsTheCommandInProgressOnItsAnswer : Obligations.StepRunsTheCommandInProgressOnItsAnswer :=
  fun _ _ ts h _ hr hd =>
  ⟨fun hs => (step_of_engine hs).trans ((h.withTurns ts).engineStep_of_answer hr hd),
    fun hs => (step_nil hs).trans (h.engineStep_of_answer hr hd)⟩

/-! ### The Engine is never refused (log 4, log 13) -/

/-- The execute step of a command always has a next state (R158). -/
theorem exec_next_of_pending {s : State} (hf : s.fsm = .pending) (i : Instr) : ∃ t, exec i s = .next t := by
  cases i with
  | read k => exact ⟨_, exec_read_of_pending hf k⟩
  | write k => exact ⟨_, exec_write_of_pending hf k⟩
  | define k => exact ⟨_, exec_define_of_pending hf k⟩
  | undefine k => exact ⟨_, exec_undefine_of_pending hf k⟩
  | query k => exact ⟨_, exec_query_of_pending hf k⟩

theorem engineStep_next_of_pending {s : State} (hf : s.fsm = .pending) : ∃ t, engineStep s = .next t := by
  cases hd : decode s.latch.word with
  | ok i => exact engineStep_of_pending hf hd ▸ exec_next_of_pending hf i
  | error e => exact ⟨s.raise .illegalCmd, by simp [engineStep, hf, executeStep, hd]⟩

theorem State.Inv.engineStep_next_of_answer {s : State} {rsp : Rsp} (h : s.Inv) (hr : s.trsp = some rsp) :
    ∃ t, engineStep s = .next t := by
  obtain ⟨i, ⟨hf, hd, rfl | ⟨b, rfl⟩⟩ | ⟨hf, hd, rfl | ⟨b, rfl⟩⟩ | ⟨hf, hd, rfl | rfl⟩⟩ := h.answer_cases hr <;>
    rw [h.engineStep_of_answer (by simp [hr]) hd]
  · exact ⟨_, exec_read_of_fail hf hr i⟩
  · exact ⟨_, exec_read_of_readOk hf hr i⟩
  · exact ⟨_, exec_write_of_fail (.inl hf) hr i⟩
  · exact ⟨_, exec_write_of_readOk hf hr i⟩
  · exact ⟨_, exec_write_of_fail (.inr hf) hr i⟩
  · exact ⟨_, exec_write_of_writeOk hf hr i⟩

/-- With the invariant the Engine's step always has a next state. -/
theorem State.Inv.engineStep_next {s : State} (h : s.Inv) : ∃ t, engineStep s = .next t := by
  cases hr : s.trsp with
  | some rsp => exact h.engineStep_next_of_answer hr
  | none =>
    cases hf : s.fsm with
    | idle => exact ⟨s, by simp [engineStep, hf]⟩
    | pending => exact engineStep_next_of_pending hf
    | rdWait => exact ⟨s, engineStep_waiting (.inl hf) hr⟩
    | wrWait => exact ⟨s, engineStep_waiting (.inr hf) hr⟩

/-! ### The Transport's step (R52) -/

/-- The Transport's step where a request waits: an admissible answer is taken, any other refused (R52, log 4). -/
theorem transportStep_of_request {s : State} {req : Req} (hq : s.treq = some req) (hr : s.trsp = none) (rsp : Rsp) :
    transportStep rsp s = if req.admits rsp then .next (s.answer rsp) else .refused .inadmissibleAnswer := by
  simp [transportStep, hq, hr]

theorem transportStep_of_no_request {s : State} (hq : s.treq = none) (rsp : Rsp) :
    transportStep rsp s = .refused .strayAnswer := by
  simp [transportStep, hq]

theorem Req.admits_read_iff (dev : DevAddr) (reg : RegAddr) (w : Nat) (rsp : Rsp) :
    (Req.read dev reg w).admits rsp = true ↔ rsp = .fail ∨ ∃ b, rsp = .readOk b ∧ b.length = w := by
  cases rsp <;> simp [Req.admits]

theorem Req.admits_write_iff (dev : DevAddr) (reg : RegAddr) (b : List Byte) (rsp : Rsp) :
    (Req.write dev reg b).admits rsp = true ↔ rsp = .fail ∨ rsp = .writeOk := by
  cases rsp <;> simp [Req.admits]

/-- Settles O39. -/
theorem transportAnswersTheOutstandingRequest : Obligations.TransportAnswersTheOutstandingRequest := by
  refine ⟨fun s req rsp ts hs hq hr => ?_, Req.admits_read_iff, Req.admits_write_iff⟩
  have hstep : step s = _ := (step_cons hs).trans (transportStep_of_request (s := { s with turns := ts }) hq hr rsp)
  exact ⟨fun ha => by rw [hstep, if_pos ha]; rfl, fun ha => by rw [hstep, if_neg (by simp [ha])]⟩

/-- With the invariant, why the Transport's step is refused (log 4). -/
theorem State.Inv.transportStep_refused {s : State} {rsp : Rsp} {r : Refusal} (h : s.Inv)
    (hr : transportStep rsp s = .refused r) :
    (r = .strayAnswer ∧ s.treq = none) ∨
    (r = .inadmissibleAnswer ∧ ∃ req, s.treq = some req ∧ req.admits rsp = false) := by
  cases hq : s.treq with
  | none =>
    rw [transportStep_of_no_request hq] at hr
    exact .inl ⟨(Host.Outcome.refused.inj hr).symm, rfl⟩
  | some req =>
    rw [transportStep_of_request hq (h.channel.one_slot_empty.resolve_left (by simp [hq]))] at hr
    split at hr
    · cases hr
    · exact .inr ⟨(Host.Outcome.refused.inj hr).symm, req, rfl, Bool.eq_false_iff.mpr ‹_›⟩

/-- Settles O10: the Engine, the Host and Reset always have a next state, and the Transport is refused for two
reasons. -/
theorem stepIsRefusedOnlyOnAnInadmissibleAnswer : Obligations.StepIsRefusedOnlyOnAnInadmissibleAnswer := by
  intro s r h hstep
  have engine {t : State} (ht : t.Inv) : engineStep t ≠ .refused r := by
    obtain ⟨u, hu⟩ := ht.engineStep_next
    simp [hu]
  cases hs : s.turns with
  | nil => exact absurd ((step_nil hs).symm.trans hstep) (engine h)
  | cons u ts =>
    have hagent : agentStep u { s with turns := ts } = .refused r := (step_cons hs).symm.trans hstep
    cases u with
    | host a => cases hagent
    | engine => exact absurd hagent (engine (h.withTurns ts))
    | transport rsp => exact ⟨rsp, ts, rfl, (h.withTurns ts).transportStep_refused hagent⟩
    | reset => cases hagent

/-! ### An enabled Engine step makes progress (R160) -/

/-- In the states of the invariant, a step in which the Engine is enabled brings the command nearer its end: it ends, or
has a request out. -/
theorem EngineEffect.progress {s t : State} (h : EngineEffect s t) (hinv : s.Inv) (hen : s.engineEnabled) :
    t.fsm.phase < s.fsm.phase ∧ (t.fsm = .idle ∨ t.treq ≠ none) := by
  cases h with
  | rests hp hrd hwr =>
    obtain hf | ⟨hw, hr⟩ := hen
    · exact absurd hf hp
    · obtain ⟨rsp, hr'⟩ := Option.ne_none_iff_exists'.mp hr
      obtain ⟨i, ⟨hf, hd, _⟩ | ⟨hf, hd, _⟩ | ⟨hf, hd, _⟩⟩ := hinv.answer_cases hr'
      · exact absurd (decode_fields hd).1 ((hrd hf).resolve_left hr).1
      · exact absurd (decode_fields hd).1 ((hrd hf).resolve_left hr).2
      · exact absurd (decode_fields hd).1 ((hwr hf).resolve_left hr)
  | rejects _ hf => simp [hf, Fsm.phase]
  | defines _ hf => simp [hf, Fsm.phase]
  | undefines _ hf => simp [hf, Fsm.phase]
  | queries _ hf => simp [hf, Fsm.phase]
  | issuesRead _ hf => simp [hf, Fsm.phase]
  | fails hw => rcases hw with hf | hf <;> simp [hf, Fsm.phase]
  | readsValue _ hf => simp [hf, Fsm.phase]
  | issuesWrite _ hf => simp [hf, Fsm.phase]
  | writesValue hf => simp [hf, Fsm.phase]

/-- An enabled Engine has a step, and it makes progress. -/
theorem State.Inv.engineStep_progress {s : State} (h : s.Inv) (hen : s.engineEnabled) :
    ∃ t, engineStep s = .next t ∧ t.fsm.phase < s.fsm.phase ∧ (t.fsm = .idle ∨ t.treq ≠ none) := by
  obtain ⟨t, ht⟩ := h.engineStep_next
  exact ⟨t, ht, (engineStep_effect ht).progress h hen⟩

/-- With the invariant an answer is in the channel only while the Engine waits, which so is enabled (R36, R159). -/
theorem State.Inv.engineEnabled_of_answer {s : State} (h : s.Inv) (hr : s.trsp ≠ none) : s.engineEnabled :=
  .inr ⟨h.channel.waiting_or_empty.resolve_right fun ⟨_, hn⟩ => hr hn, hr⟩

/-- Settles O42. -/
theorem enabledEngineStepMakesProgress : Obligations.EnabledEngineStepMakesProgress := by
  intro s h hturn hen
  have enabled : s.engineEnabled := hen.elim .inl h.engineEnabled_of_answer
  obtain hs | ⟨ts, hs⟩ := hturn
  · rw [step_nil hs]
    exact h.engineStep_progress enabled
  · rw [step_of_engine hs]
    exact (h.withTurns ts).engineStep_progress enabled

end Sys2Proof.Machine
end

section
/-! PROOFS. What one Engine step of a command can do, whatever the state: the commands' frames, transactions and errors,
and the state they depend on (R38, R156, R170 to R173). -/

namespace Sys2Proof.Machine

open Sys2Proof

/-! ### What one Engine step of a command can do (R158, R159) -/

/-- The errors a command may end with (R107, R108, R134, R136, R137). -/
def mayRaise : Instr → Err → Prop
  | .read _, e => e = .descRange ∨ e = .descInvalid ∨ e = .transport
  | .write _, e => e = .descRange ∨ e = .descInvalid ∨ e = .unsupported ∨ e = .invalidArgument ∨ e = .transport
  | .define _, e => e = .descRange ∨ e = .descFixed ∨ e = .construction
  | .undefine _, e => e = .descRange ∨ e = .descFixed
  | .query _, e => e = .descRange

/-- The next states of one Engine step of a command, in any state at all. In the states a run reaches, where the latched
word decodes to the command, these are the effects of `EngineEffect`. -/
inductive ExecEffect (s : State) : Instr → State → Prop where
  /-- The command has no step there (R159, log 3). -/
  | rests (i : Instr) : ExecEffect s i s
  /-- A check fails, or the Transport answered `Fail` (R172). -/
  | raises (i : Instr) (e : Err) : mayRaise i e → ExecEffect s i (s.raise e)
  /-- DEFINE stores the latched descriptor (R134). -/
  | defines (k : Nat) : k < s.cfg.nDesc → nFixed ≤ k →
      ExecEffect s (.define k) (s.setDt k (Desc.ofWord s.latch.desc)).complete
  /-- UNDEFINE clears an entry (R136). -/
  | undefines (k : Nat) : k < s.cfg.nDesc → nFixed ≤ k → ExecEffect s (.undefine k) (s.setDt k Desc.empty).complete
  /-- QUERY copies an entry into `DESC_DATA` (R137). -/
  | queries (k : Nat) : ExecEffect s (.query k) (s.setDescData (s.dt k).pack).complete
  /-- READ or WRITE issues the read transaction (R107, R108). -/
  | issuesRead (i : Instr) : s.fsm = .pending → i = .read i.idx ∨ i = .write i.idx →
      ExecEffect s i (s.issue .rdWait (s.readReq (s.dt i.idx)))
  /-- READ takes the value it read (R107). -/
  | readsValue (k : Nat) (v : Word) (signed : Bool) : ExecEffect s (.read k) (s.consume.setResult v signed).complete
  /-- WRITE issues the write transaction on the answer to its read (R108). -/
  | issuesWrite (k r : Nat) (b : List Byte) : s.fsm = .rdWait → s.trsp = some (.readOk b) →
      ExecEffect s (.write k) (s.consume.issue .wrWait (s.writeReq (s.dt k) r))
  /-- WRITE's write was answered (R108). -/
  | writesValue (k : Nat) : ExecEffect s (.write k) s.consume.complete

/-- If an Engine step of a command answers a next state, it is one of the stated effects (R158, R159). -/
theorem exec_effect {i : Instr} {s t : State} (h : exec i s = .next t) : ExecEffect s i t := by
  cases i with
  | read k =>
    obtain ⟨hf, rfl⟩ | ⟨_, _, rfl⟩ | ⟨_, b, _, rfl⟩ | ⟨_, _, rfl⟩ := execRead_next h
    · obtain ⟨_, ht⟩ | ⟨_, _, ht⟩ | ⟨_, _, ht⟩ := readExecute_cases k s <;> rw [ht]
      · exact .raises _ _ (.inl rfl)
      · exact .raises _ _ (.inr (.inl rfl))
      · exact .issuesRead (.read k) hf (.inl rfl)
    · exact .raises _ _ (.inr (.inr rfl))
    · exact .readsValue k _ _
    · exact .rests _
  | write k =>
    obtain ⟨hf, rfl⟩ | ⟨_, _, rfl⟩ | ⟨hf, b, hb, rfl⟩ | ⟨_, _, rfl⟩ | ⟨_, _, rfl⟩ := execWrite_next h
    · obtain ⟨e, he, ht⟩ | ⟨_, _, _, _, ht⟩ := writeExecute_cases k s <;> rw [ht]
      · exact .raises _ e (by unfold mayRaise; tauto)
      · exact .issuesRead (.write k) hf (.inr rfl)
    · exact .raises _ _ (.inr (.inr (.inr (.inr rfl))))
    · exact .issuesWrite k _ b hf hb
    · exact .writesValue k
    · exact .rests _
  | define k =>
    obtain rfl := Host.Outcome.next.inj ((execDefine_eq k s).symm.trans h)
    split
    · obtain ⟨e, he, ht⟩ | ⟨hk, hp, _, ht⟩ := defineExecute_cases k s <;> rw [ht]
      · exact .raises _ e he
      · exact .defines k hk hp
    · exact .rests _
  | undefine k =>
    obtain rfl := Host.Outcome.next.inj ((execUndefine_eq k s).symm.trans h)
    split
    · obtain ⟨e, he, ht⟩ | ⟨hk, hp, ht⟩ := undefineExecute_cases k s <;> rw [ht]
      · exact .raises _ e he
      · exact .undefines k hk hp
    · exact .rests _
  | query k =>
    obtain rfl := Host.Outcome.next.inj ((execQuery_eq k s).symm.trans h)
    split
    · obtain ⟨_, ht⟩ | ⟨_, ht⟩ := queryExecute_cases k s <;> rw [ht]
      · exact .raises _ _ rfl
      · exact .queries k
    · exact .rests _

/-! ### Frames, transactions and errors -/

/-- What no Engine step of a command touches (R156, R172). -/
theorem ExecEffect.frame {s t : State} {i : Instr} (h : ExecEffect s i t) :
    t.cmd = s.cmd ∧ t.ovr = s.ovr ∧ t.devaddr = s.devaddr ∧ t.wdata = s.wdata ∧ t.latch = s.latch ∧ t.cfg = s.cfg ∧
    t.turns = s.turns ∧ t.hostResult = s.hostResult := by
  cases h <;> exact ⟨rfl, rfl, rfl, rfl, rfl, rfl, rfl, rfl⟩

theorem ExecEffect.results_eq {s t : State} {i : Instr} (h : ExecEffect s i t) :
    (t.rdata = s.rdata ∧ t.rsigned = s.rsigned) ∨ ∃ k, i = .read k := by
  cases h with
  | readsValue k => exact .inr ⟨k, rfl⟩
  | rests | raises | defines | undefines | queries | issuesRead | issuesWrite | writesValue => exact .inl ⟨rfl, rfl⟩

theorem ExecEffect.descData_eq {s t : State} {i : Instr} (h : ExecEffect s i t) :
    t.descData = s.descData ∨ ∃ k, i = .query k := by
  cases h with
  | queries k => exact .inr ⟨k, rfl⟩
  | rests | raises | defines | undefines | issuesRead | readsValue | issuesWrite | writesValue => exact .inl rfl

/-- Only DEFINE and UNDEFINE write the table, at their own programmable entry (R134, R136). -/
theorem ExecEffect.prog_eq {s t : State} {i : Instr} (h : ExecEffect s i t) :
    t.prog = s.prog ∨ ∃ k, 10 ≤ k ∧ k < s.cfg.nDesc ∧ (i = .define k ∨ i = .undefine k) ∧
      ∀ j, j ≠ k → t.dt j = s.dt j := by
  cases h with
  | defines k hk hp => exact .inr ⟨k, hp, hk, .inl rfl, fun _ => s.setDt_dt_other _ hp⟩
  | undefines k hk hp => exact .inr ⟨k, hp, hk, .inr rfl, fun _ => s.setDt_dt_other _ hp⟩
  | rests | raises | queries | issuesRead | readsValue | issuesWrite | writesValue => exact .inl rfl

/-- Settles O34. -/
theorem commandsWriteOnlyTheirOwnState : Obligations.CommandsWriteOnlyTheirOwnState := by
  intro s t i h
  have effect := exec_effect h
  obtain ⟨hcmd, hovr, hdevaddr, hwdata, hlatch, hcfg, hturns, hresult⟩ := effect.frame
  refine ⟨hcmd, hovr, hdevaddr, hwdata, hlatch, hcfg, hturns, hresult, fun hne => ?_,
    effect.descData_eq.resolve_left, effect.prog_eq.resolve_left⟩
  exact effect.results_eq.resolve_left fun ⟨hrdata, hrsigned⟩ => hne.elim (· hrdata) (· hrsigned)

/-- Settles O35: only the two effects that issue a transaction touch the history. -/
theorem commandsIssueOnlyTheirOwnTransactions : Obligations.CommandsIssueOnlyTheirOwnTransactions := by
  intro s t i h
  cases exec_effect h with
  | issuesRead _ hf hi => exact .inr (.inl ⟨rfl, hf, rfl, hi⟩)
  | issuesWrite k r b hf hb => exact .inr (.inr ⟨_, b, rfl, split_length r _, hf, rfl, rfl, hb⟩)
  | rests | raises | defines | undefines | queries | readsValue | writesValue => exact .inl rfl

/-- Settles O36: a command ends by `raise`, or by `complete`, which writes ERR = 0. -/
theorem stepThatEndsWithAnErrorChangesNothingElse : Obligations.StepThatEndsWithAnErrorChangesNothingElse := by
  intro s t i h hbusy hidle herr
  cases exec_effect h with
  | rests => exact absurd hidle hbusy
  | raises => rfl
  | issuesRead => cases hidle
  | issuesWrite => cases hidle
  | defines | undefines | queries | readsValue | writesValue => exact absurd rfl herr

/-- ERR is written by `raise`, with an error the command may end with, and by `complete` (R13, R170). -/
theorem ExecEffect.err_cases {s t : State} {i : Instr} (h : ExecEffect s i t) :
    t.err = s.err ∨ t.err = .noError ∨ mayRaise i t.err := by
  cases h with
  | rests | issuesRead | issuesWrite => exact .inl rfl
  | raises _ _ he => exact .inr (.inr he)
  | defines | undefines | queries | readsValue | writesValue => exact .inr (.inl rfl)

/-- Settles O38. -/
theorem commandsRaiseOnlyTheirOwnErrors : Obligations.CommandsRaiseOnlyTheirOwnErrors := by
  refine ⟨rfl, fun s t i h hne => ?_⟩
  obtain he | he := (exec_effect h).err_cases.resolve_left hne
  · exact .inl he
  · cases i with
    | read k =>
      obtain he | he := he
      · exact .inr (.inl he)
      · exact .inr (.inr (.inl ⟨k, rfl, he⟩))
    | write k =>
      obtain he | he := he
      · exact .inr (.inl he)
      · exact .inr (.inr (.inr (.inl ⟨k, rfl, he⟩)))
    | define k =>
      obtain he | he := he
      · exact .inr (.inl he)
      · exact .inr (.inr (.inr (.inr (.inl ⟨k, rfl, he⟩))))
    | undefine k =>
      obtain he | he := he
      · exact .inr (.inl he)
      · exact .inr (.inr (.inr (.inr (.inr ⟨k, rfl, he⟩))))
    | query k => exact .inr (.inl he)

/-! ### What a command depends on (R38, R156) -/

/-- `s'` has the parameters, the table, the Engine state, the latch and the channel of `s`. -/
structure State.SameInputs (s s' : State) : Prop where
  cfg : s'.cfg = s.cfg
  prog : s'.prog = s.prog
  fsm : s'.fsm = s.fsm
  latch : s'.latch = s.latch
  treq : s'.treq = s.treq
  trsp : s'.trsp = s.trsp

theorem State.SameInputs.dt {s s' : State} (h : s.SameInputs s') (i : Nat) : s'.dt i = s.dt i :=
  State.dt_congr h.cfg h.prog i

/-- What led from `s` to `t` has done the same from `s'` to `t'`: the same inputs again, the same events, and each
result either kept on both sides or given the same value. -/
structure SameStep (s s' t t' : State) : Prop where
  inputs : t.SameInputs t'
  hist : ∃ evs, t.hist = s.hist ++ evs ∧ t'.hist = s'.hist ++ evs
  err : (t.err = s.err ∧ t'.err = s'.err) ∨ t'.err = t.err
  errAtEnd : s.fsm ≠ .idle → t.fsm = .idle → t'.err = t.err
  results : (t.rdata = s.rdata ∧ t'.rdata = s'.rdata ∧ t.rsigned = s.rsigned ∧ t'.rsigned = s'.rsigned) ∨
    (t'.rdata = t.rdata ∧ t'.rsigned = t.rsigned)
  descData : (t.descData = s.descData ∧ t'.descData = s'.descData) ∨ t'.descData = t.descData

section

variable {s s' t t' : State}

theorem SameStep.refl (h : s.SameInputs s') : SameStep s s' s s' where
  inputs := h
  hist := ⟨[], by simp, by simp⟩
  err := .inl ⟨rfl, rfl⟩
  errAtEnd hbusy hidle := absurd hidle hbusy
  results := .inl ⟨rfl, rfl, rfl, rfl⟩
  descData := .inl ⟨rfl, rfl⟩

theorem SameStep.raise (h : SameStep s s' t t') (e : Err) : SameStep s s' (t.raise e) (t'.raise e) where
  inputs := ⟨h.inputs.cfg, h.inputs.prog, rfl, h.inputs.latch, rfl, rfl⟩
  hist := h.hist
  err := .inr rfl
  errAtEnd _ _ := rfl
  results := h.results
  descData := h.descData

theorem SameStep.complete (h : SameStep s s' t t') : SameStep s s' t.complete t'.complete where
  inputs := ⟨h.inputs.cfg, h.inputs.prog, rfl, h.inputs.latch, h.inputs.treq, h.inputs.trsp⟩
  hist := h.hist
  err := .inr rfl
  errAtEnd _ _ := rfl
  results := h.results
  descData := h.descData

theorem SameStep.setResult (h : SameStep s s' t t') (v : Word) (signed : Bool) :
    SameStep s s' (t.setResult v signed) (t'.setResult v signed) where
  inputs := ⟨h.inputs.cfg, h.inputs.prog, h.inputs.fsm, h.inputs.latch, h.inputs.treq, h.inputs.trsp⟩
  hist := h.hist
  err := h.err
  errAtEnd := h.errAtEnd
  results := .inr ⟨rfl, rfl⟩
  descData := h.descData

theorem SameStep.setDescData (h : SameStep s s' t t') (v : Word) :
    SameStep s s' (t.setDescData v) (t'.setDescData v) where
  inputs := ⟨h.inputs.cfg, h.inputs.prog, h.inputs.fsm, h.inputs.latch, h.inputs.treq, h.inputs.trsp⟩
  hist := h.hist
  err := h.err
  errAtEnd := h.errAtEnd
  results := h.results
  descData := .inr rfl

theorem SameStep.setDt (h : SameStep s s' t t') (i : Nat) (e : Desc) :
    SameStep s s' (t.setDt i e) (t'.setDt i e) where
  inputs := ⟨h.inputs.cfg, by simp [h.inputs.prog], h.inputs.fsm, h.inputs.latch, h.inputs.treq, h.inputs.trsp⟩
  hist := h.hist
  err := h.err
  errAtEnd := h.errAtEnd
  results := h.results
  descData := h.descData

theorem SameStep.consume (h : SameStep s s' t t') : SameStep s s' t.consume t'.consume where
  inputs := ⟨h.inputs.cfg, h.inputs.prog, h.inputs.fsm, h.inputs.latch, h.inputs.treq, rfl⟩
  hist := h.hist
  err := h.err
  errAtEnd := h.errAtEnd
  results := h.results
  descData := h.descData

theorem SameStep.issue (h : SameStep s s' t t') {wait : Fsm} (hw : wait ≠ .idle) (req : Req) :
    SameStep s s' (t.issue wait req) (t'.issue wait req) where
  inputs := ⟨h.inputs.cfg, h.inputs.prog, rfl, h.inputs.latch, rfl, h.inputs.trsp⟩
  hist := by
    obtain ⟨evs, hs, hs'⟩ := h.hist
    exact ⟨evs ++ [.issue req], by simp [hs], by simp [hs']⟩
  err := h.err
  errAtEnd _ hi := absurd hi hw
  results := h.results
  descData := h.descData

end

section

variable {s s' : State} (h : s.SameInputs s') (i : Nat)

include h

/-- The requests of a command name the latched device address (R107, R108). -/
theorem State.SameInputs.readReq (d : Desc) : s'.readReq d = s.readReq d := by
  simp [State.readReq, h.latch]

theorem State.SameInputs.writeReq (d : Desc) (r : Nat) : s'.writeReq d r = s.writeReq d r := by
  simp [State.writeReq, h.latch]

theorem State.SameInputs.readExecute : SameStep s s' (readExecute i s) (readExecute i s') := by
  unfold Machine.readExecute
  simp only [h.cfg, h.dt, h.readReq]
  split_ifs
  · exact (SameStep.refl h).raise _
  · exact (SameStep.refl h).raise _
  · exact (SameStep.refl h).issue (by decide) _

theorem State.SameInputs.writeExecute : SameStep s s' (writeExecute i s) (writeExecute i s') := by
  unfold Machine.writeExecute
  simp only [h.cfg, h.dt, h.latch, h.readReq]
  split_ifs
  · exact (SameStep.refl h).raise _
  · exact (SameStep.refl h).raise _
  · exact (SameStep.refl h).raise _
  · exact (SameStep.refl h).raise _
  · exact (SameStep.refl h).issue (by decide) _

theorem State.SameInputs.programmable {w w' : State} (hw : SameStep s s' w w') :
    SameStep s s' (s.programmable i w) (s'.programmable i w') := by
  unfold State.programmable
  simp only [h.cfg]
  split_ifs
  · exact (SameStep.refl h).raise _
  · exact (SameStep.refl h).raise _
  · exact hw

theorem State.SameInputs.defineExecute : SameStep s s' (defineExecute i s) (defineExecute i s') := by
  refine h.programmable i ?_
  simp only [h.cfg, h.latch]
  split_ifs
  · exact ((SameStep.refl h).setDt i _).complete
  · exact (SameStep.refl h).raise _

theorem State.SameInputs.undefineExecute : SameStep s s' (undefineExecute i s) (undefineExecute i s') :=
  h.programmable i ((SameStep.refl h).setDt i _).complete

theorem State.SameInputs.queryExecute : SameStep s s' (queryExecute i s) (queryExecute i s') := by
  unfold Machine.queryExecute
  simp only [h.cfg, h.dt]
  split_ifs
  · exact (SameStep.refl h).raise _
  · exact ((SameStep.refl h).setDescData _).complete

end

/-- READ has no step in IDLE and WR_WAIT, nor without an answer in RD_WAIT (R159, log 3). -/
theorem exec_read_of_no_step {s : State} (hp : s.fsm ≠ .pending) (hr : s.fsm = .rdWait → s.trsp = none) (i : Nat) :
    exec (.read i) s = .next s := by
  cases hf : s.fsm <;> simp_all [exec, execRead]

/-- WRITE has no step in IDLE, nor without an answer while it waits (R159, log 3). -/
theorem exec_write_of_no_step {s : State} (hp : s.fsm ≠ .pending)
    (hr : s.fsm = .rdWait ∨ s.fsm = .wrWait → s.trsp = none) (i : Nat) : exec (.write i) s = .next s := by
  cases hf : s.fsm <;> simp_all [exec, execWrite]

/-- An Engine step of a command does the same in two states with the same inputs. -/
theorem State.SameInputs.exec {s s' t : State} (h : s.SameInputs s') {i : Instr} (ht : exec i s = .next t) :
    ∃ t', exec i s' = .next t' ∧ SameStep s s' t t' := by
  have same := SameStep.refl h
  cases i with
  | read k =>
    obtain ⟨hf, rfl⟩ | ⟨hf, hr, rfl⟩ | ⟨hf, b, hr, rfl⟩ | ⟨hf, hr, rfl⟩ := execRead_next ht
    · exact ⟨_, exec_read_of_pending (h.fsm.trans hf) k, h.readExecute k⟩
    · exact ⟨_, exec_read_of_fail (h.fsm.trans hf) (h.trsp.trans hr) k, same.consume.raise _⟩
    · refine ⟨_, exec_read_of_readOk (h.fsm.trans hf) (h.trsp.trans hr) k, ?_⟩
      rw [h.dt]
      exact (same.consume.setResult _ _).complete
    · exact ⟨_, exec_read_of_no_step (h.fsm.symm ▸ hf) (by rwa [h.fsm, h.trsp]) k, same⟩
  | write k =>
    obtain ⟨hf, rfl⟩ | ⟨hf, hr, rfl⟩ | ⟨hf, b, hr, rfl⟩ | ⟨hf, hr, rfl⟩ | ⟨hf, hr, rfl⟩ := execWrite_next ht
    · exact ⟨_, exec_write_of_pending (h.fsm.trans hf) k, h.writeExecute k⟩
    · exact ⟨_, exec_write_of_fail (h.fsm.symm ▸ hf) (h.trsp.trans hr) k, same.consume.raise _⟩
    · refine ⟨_, exec_write_of_readOk (h.fsm.trans hf) (h.trsp.trans hr) k, ?_⟩
      rw [h.dt, h.latch, h.writeReq]
      exact same.consume.issue (by decide) _
    · exact ⟨_, exec_write_of_writeOk (h.fsm.trans hf) (h.trsp.trans hr) k, same.consume.complete⟩
    · exact ⟨_, exec_write_of_no_step (h.fsm.symm ▸ hf) (by rwa [h.fsm, h.trsp]) k, same⟩
  | define k =>
    obtain rfl := Host.Outcome.next.inj ((execDefine_eq k s).symm.trans ht)
    refine ⟨_, execDefine_eq k s', ?_⟩
    rw [h.fsm]
    split
    · exact h.defineExecute k
    · exact same
  | undefine k =>
    obtain rfl := Host.Outcome.next.inj ((execUndefine_eq k s).symm.trans ht)
    refine ⟨_, execUndefine_eq k s', ?_⟩
    rw [h.fsm]
    split
    · exact h.undefineExecute k
    · exact same
  | query k =>
    obtain rfl := Host.Outcome.next.inj ((execQuery_eq k s).symm.trans ht)
    refine ⟨_, execQuery_eq k s', ?_⟩
    rw [h.fsm]
    split
    · exact h.queryExecute k
    · exact same

/-- Settles O13. -/
theorem commandDependsOnlyOnLatchTableAndAnswers : Obligations.CommandDependsOnlyOnLatchTableAndAnswers := by
  intro s s' t i hcfg hprog hfsm hlatch htreq htrsp ht
  obtain ⟨t', ht', ⟨hcfg', hprog', hfsm', hlatch', htreq', htrsp'⟩, hhist, herr, hend, hresults, hdesc⟩ :=
    State.SameInputs.exec ⟨hcfg, hprog, hfsm, hlatch, htreq, htrsp⟩ ht
  exact ⟨t', ht', hcfg', hprog', hfsm', hlatch', htreq', htrsp', hhist, herr, hend, hresults, hdesc⟩

end Sys2Proof.Machine
end

section
/-! PROOFS. What a step of any agent keeps: the parameters, the status fields and the results, the invariant and the
order of the history (R25, R62, R63, R131, R153). -/

namespace Sys2Proof.Machine

open Sys2Proof

/-! ### What each agent keeps -/

/-- No Engine step touches OVR or the parameters (R20, R25). -/
theorem EngineEffect.kept_always {s t : State} (h : EngineEffect s t) : t.ovr = s.ovr ∧ t.cfg = s.cfg := by
  cases h <;> exact ⟨rfl, rfl⟩

/-- The Engine writes ERR where it ends a command, and nowhere else (R25). -/
theorem EngineEffect.err_eq {s t : State} (h : EngineEffect s t) :
    t.err = s.err ∨ (s.fsm ≠ .idle ∧ t.fsm = .idle) := by
  cases h with
  | rests | issuesRead | issuesWrite => exact .inl rfl
  | rejects _ hf | defines _ hf | undefines _ hf | queries _ hf | readsValue _ hf | writesValue hf =>
    exact .inr ⟨by simp [hf], rfl⟩
  | fails hw => exact .inr ⟨Fsm.ne_idle_of_waiting hw, rfl⟩

/-- RSIGNED is written by a successful READ (R25, R107). -/
theorem EngineEffect.rsigned_eq {s t : State} (h : EngineEffect s t) :
    t.rsigned = s.rsigned ∨
      (s.fsm = .rdWait ∧ t.fsm = .idle ∧ t.err = .noError ∧ ∃ b, s.trsp = some (.readOk b)) := by
  cases h with
  | readsValue b hf _ hr => exact .inr ⟨hf, rfl, rfl, b, hr⟩
  | rests | rejects | defines | undefines | queries | issuesRead | fails | issuesWrite | writesValue => exact .inl rfl

/-- No Host step touches a result, ERR, the table, the parameters, the channel or the history (R151 to R155). -/
theorem State.hostStep_frame (s : State) (a : HostAccess) :
    (s.hostStep a).rdata = s.rdata ∧ (s.hostStep a).rsigned = s.rsigned ∧ (s.hostStep a).err = s.err ∧
    (s.hostStep a).prog = s.prog ∧ (s.hostStep a).cfg = s.cfg ∧ (s.hostStep a).treq = s.treq ∧
    (s.hostStep a).trsp = s.trsp ∧ (s.hostStep a).hist = s.hist := by
  cases a with
  | read off => exact ⟨rfl, rfl, rfl, rfl, rfl, rfl, rfl, rfl⟩
  | write off v =>
    simp only [State.hostStep]
    obtain ⟨_, _, ht⟩ | ⟨_, _, ht⟩ | ⟨_, _, ht⟩ | ⟨_, _, ht⟩ | ⟨_, ht⟩ | ⟨_, ht⟩ | ⟨_, ht⟩ | ⟨_, ht⟩ :=
      s.hostWrite_cases off v <;> rw [ht] <;> exact ⟨rfl, rfl, rfl, rfl, rfl, rfl, rfl, rfl⟩

/-- OVR is set by a `CMD` write while a command is in progress, and cleared by a `STATUS` write of bit 1 (R154,
R155). -/
theorem State.hostStep_ovr (s : State) (a : HostAccess) :
    (s.hostStep a).ovr = s.ovr ∨
    ((s.hostStep a).ovr = true ∧ s.fsm ≠ .idle ∧ ∃ off v, a = .write off v ∧ off.toNat / 4 = 0) ∨
    ((s.hostStep a).ovr = false ∧ ∃ off v, a = .write off v ∧ off.toNat / 4 = 1 ∧ v.toNat / 2 % 2 = 1) := by
  cases a with
  | read off => exact .inl rfl
  | write off v =>
    simp only [State.hostStep, ← hostSelect_eq, ← bit1_iff]
    obtain ⟨_, _, ht⟩ | ⟨ho, hf, ht⟩ | ⟨ho, hv, ht⟩ | ⟨_, _, ht⟩ | ⟨_, ht⟩ | ⟨_, ht⟩ | ⟨_, ht⟩ | ⟨_, ht⟩ :=
      s.hostWrite_cases off v <;> rw [ht]
    · exact .inl rfl
    · exact .inr (.inl ⟨rfl, hf, off, v, rfl, ho⟩)
    · exact .inr (.inr ⟨rfl, off, v, rfl, ho, hv⟩)
    all_goals exact .inl rfl

/-- `DESC_DATA` is written by the Host's own write of it (R152). -/
theorem State.hostStep_descData (s : State) (a : HostAccess) :
    (s.hostStep a).descData = s.descData ∨
    ∃ off, a = .write off (s.hostStep a).descData ∧ off.toNat / 4 = 3 := by
  cases a with
  | read off => exact .inl rfl
  | write off v =>
    simp only [State.hostStep, ← hostSelect_eq]
    obtain ⟨_, _, ht⟩ | ⟨_, _, ht⟩ | ⟨_, _, ht⟩ | ⟨_, _, ht⟩ | ⟨_, ht⟩ | ⟨ho, ht⟩ | ⟨_, ht⟩ | ⟨_, ht⟩ :=
      s.hostWrite_cases off v <;> rw [ht]
    case inr.inr.inr.inr.inr.inl => exact .inr ⟨off, rfl, ho⟩
    all_goals exact .inl rfl

/-! ### The status fields, the results and the fixed entries -/

/-- Everything a step can do, whichever way the Engine has its turn (R3): it is an effect of the Engine, a Host access,
the Transport's answer to the request that waits, or Reset. -/
theorem step_effect {s t : State} (h : step s = .next t) :
    (∃ ts, EngineEffect { s with turns := ts } t) ∨
    (∃ a ts, s.turns = .host a :: ts ∧ t = ({ s with turns := ts } : State).hostStep a) ∨
    (∃ req rsp ts, s.treq = some req ∧ req.admits rsp = true ∧ t = ({ s with turns := ts } : State).answer rsp) ∨
    (∃ ts, s.turns = .reset :: ts ∧ t = ({ s with turns := ts } : State).hwReset) := by
  obtain ⟨_, he⟩ | ⟨ts, _, he⟩ | ⟨a, ts, hs, ht⟩ | ⟨rsp, ts, hs, he⟩ | ⟨ts, hs, ht⟩ := step_next h
  · exact .inl ⟨s.turns, engineStep_effect he⟩
  · exact .inl ⟨ts, engineStep_effect he⟩
  · exact .inr (.inl ⟨a, ts, hs, ht⟩)
  · obtain ⟨req, hq, _, ha, ht⟩ := transportStep_next he
    exact .inr (.inr (.inl ⟨req, rsp, ts, hq, ha, ht⟩))
  · exact .inr (.inr (.inr ⟨ts, hs, ht⟩))

section

variable {s t : State} (h : step s = .next t)

include h

theorem step_err : t.err = s.err ∨ (∃ ts, s.turns = .reset :: ts) ∨ (s.fsm ≠ .idle ∧ t.fsm = .idle) := by
  obtain ⟨_, effect⟩ | ⟨a, ts, _, rfl⟩ | ⟨_, _, _, _, _, rfl⟩ | ⟨ts, hs, _⟩ := step_effect h
  · exact effect.err_eq.imp_right .inr
  · obtain ⟨_, _, herr, _⟩ := ({ s with turns := ts } : State).hostStep_frame a
    exact .inl herr
  · exact .inl rfl
  · exact .inr (.inl ⟨ts, hs⟩)

theorem step_rsigned :
    t.rsigned = s.rsigned ∨ (∃ ts, s.turns = .reset :: ts) ∨
      (s.fsm = .rdWait ∧ t.fsm = .idle ∧ t.err = .noError ∧ ∃ b, s.trsp = some (.readOk b)) := by
  obtain ⟨_, effect⟩ | ⟨a, ts, _, rfl⟩ | ⟨_, _, _, _, _, rfl⟩ | ⟨ts, hs, _⟩ := step_effect h
  · exact effect.rsigned_eq.imp_right .inr
  · obtain ⟨_, hrsigned, _⟩ := ({ s with turns := ts } : State).hostStep_frame a
    exact .inl hrsigned
  · exact .inl rfl
  · exact .inr (.inl ⟨ts, hs⟩)

theorem step_ovr :
    t.ovr = s.ovr ∨ (t.ovr = false ∧ ∃ ts, s.turns = .reset :: ts) ∨
    (t.ovr = true ∧ ∃ off v ts, s.turns = .host (.write off v) :: ts ∧ off.toNat / 4 = 0 ∧ s.fsm ≠ .idle) ∨
    (t.ovr = false ∧ ∃ off v ts, s.turns = .host (.write off v) :: ts ∧ off.toNat / 4 = 1 ∧ v.toNat / 2 % 2 = 1) := by
  obtain ⟨_, effect⟩ | ⟨a, ts, hs, rfl⟩ | ⟨_, _, _, _, _, rfl⟩ | ⟨ts, hs, rfl⟩ := step_effect h
  · obtain ⟨hovr, _⟩ := effect.kept_always
    exact .inl hovr
  · obtain hovr | ⟨hovr, hf, off, v, rfl, ho⟩ | ⟨hovr, off, v, rfl, ho⟩ :=
      ({ s with turns := ts } : State).hostStep_ovr a
    · exact .inl hovr
    · exact .inr (.inr (.inl ⟨hovr, off, v, ts, hs, ho, hf⟩))
    · exact .inr (.inr (.inr ⟨hovr, off, v, ts, hs, ho⟩))
  · exact .inl rfl
  · exact .inr (.inl ⟨rfl, ts, hs⟩)

end

/-- Settles O14: ERR and RSIGNED are the Engine's to write, OVR the Host's, and Reset's all three. -/
theorem statusFieldsChangeOnlyAsStated : Obligations.StatusFieldsChangeOnlyAsStated := by
  intro s t h
  refine ⟨(step_err h).resolve_left, fun h0 h1 => ?_, fun h1 h0 => ?_, (step_rsigned h).resolve_left⟩
  · obtain hovr | ⟨hovr, _⟩ | ⟨_, hcause⟩ | ⟨hovr, _⟩ := step_ovr h
    · simp [h0, h1] at hovr
    · simp [h1] at hovr
    · exact hcause
    · simp [h1] at hovr
  · obtain hovr | ⟨_, hcause⟩ | ⟨hovr, _⟩ | ⟨_, hcause⟩ := step_ovr h
    · simp [h0, h1] at hovr
    · exact .inl hcause
    · simp [h0] at hovr
    · exact .inr hcause

/-- An Engine step after which a command is in progress writes no result (R153). -/
theorem EngineEffect.results_of_busy {s t : State} (h : EngineEffect s t) (hbusy : t.fsm ≠ .idle) :
    t.rdata = s.rdata ∧ t.rsigned = s.rsigned ∧ t.err = s.err ∧ t.prog = s.prog ∧ t.descData = s.descData := by
  cases h with
  | rests | issuesRead | issuesWrite => exact ⟨rfl, rfl, rfl, rfl, rfl⟩
  | rejects | defines | undefines | queries | fails | readsValue | writesValue => exact absurd rfl hbusy

/-- No step changes a parameter (R6 to R8, R20). -/
theorem step_cfg {s t : State} (h : step s = .next t) : t.cfg = s.cfg := by
  obtain ⟨_, effect⟩ | ⟨a, ts, _, rfl⟩ | ⟨_, _, _, _, _, rfl⟩ | ⟨_, _, rfl⟩ := step_effect h
  · obtain ⟨_, hcfg⟩ := effect.kept_always
    exact hcfg
  · obtain ⟨_, _, _, _, hcfg, _⟩ := ({ s with turns := ts } : State).hostStep_frame a
    exact hcfg
  · rfl
  · rfl

/-- Settles O15: the Engine writes results and the table only where it ends a command, and the Host only `DESC_DATA`. -/
theorem resultsHoldUntilCompletion : Obligations.ResultsHoldUntilCompletion := by
  intro s t h hbusy
  have same_table (hprog : t.prog = s.prog) (i : Nat) : t.dt i = s.dt i := State.dt_congr (step_cfg h) hprog i
  obtain ⟨_, effect⟩ | ⟨a, ts, hs, rfl⟩ | ⟨_, _, _, _, _, rfl⟩ | ⟨_, _, rfl⟩ := step_effect h
  · obtain ⟨hrdata, hrsigned, herr, hprog, hdesc⟩ := effect.results_of_busy hbusy
    exact ⟨hrdata, hrsigned, herr, same_table hprog, .inl hdesc⟩
  · obtain ⟨hrdata, hrsigned, herr, hprog, _⟩ := ({ s with turns := ts } : State).hostStep_frame a
    refine ⟨hrdata, hrsigned, herr, same_table hprog, ?_⟩
    obtain hdesc | ⟨off, ha, ho⟩ := ({ s with turns := ts } : State).hostStep_descData a
    · exact .inl hdesc
    · exact .inr ⟨off, ts, hs.trans (congrArg (Turn.host · :: ts) ha), ho⟩
  · exact ⟨rfl, rfl, rfl, same_table rfl, .inl rfl⟩
  · exact absurd rfl hbusy

/-- Settles O26: the fixed entries are determined by the parameters. -/
theorem noStepChangesAFixedEntry : Obligations.NoStepChangesAFixedEntry := by
  intro s t h
  have hcfg := step_cfg h
  exact ⟨hcfg, fun i hi => by rw [t.dt_fixed hi, s.dt_fixed hi, hcfg]⟩

/-! ### The invariant (R32 to R34, R36) -/

theorem Config.reference_legal : Config.reference.legal = true := rfl

/-- Settles O43. -/
theorem resetStateSatisfiesTheInvariant : Obligations.ResetStateSatisfiesTheInvariant :=
  ⟨fun _ hc => ⟨State.resetOf_inv hc, rfl⟩, State.resetOf_inv Config.reference_legal, rfl, rfl,
    State.reset.status_toNat.trans rfl⟩

/-- Settles O44. -/
theorem everyStepKeepsTheInvariant : Obligations.EveryStepKeepsTheInvariant :=
  fun _ _ hinv h => hinv.step h

/-! ### The history (R37, R52, R62) -/

/-- A history with one more event leaves outstanding what the event makes of what was outstanding before. -/
theorem histOutstanding_snoc {l : List Event} {o o' : Option Req} (h : histOutstanding l o = some o') (e : Event) :
    histOutstanding (l ++ [e]) o = e.follow o' := by
  induction l generalizing o with
  | nil =>
    obtain rfl : o = o' := Option.some.inj h
    simp only [List.nil_append, histOutstanding]
    split <;> simp_all
  | cons x l ih =>
    rw [List.cons_append]
    unfold histOutstanding at h ⊢
    split at h
    · exact ih h
    · cases h

/-- A step that records nothing and leaves the request slot as it was keeps the history in order. -/
theorem State.histOk.of_same {s t : State} (h : s.histOk) (hhist : t.hist = s.hist) (hreq : t.treq = s.treq) :
    t.histOk := by
  unfold State.histOk at *
  rw [hhist, hreq, h]

/-- A step that records one event keeps the history in order, if the event makes of the request that was outstanding
what the request slot then holds. -/
theorem State.histOk.record {s t : State} (h : s.histOk) {e : Event} (hhist : t.hist = s.hist ++ [e])
    (hfollow : e.follow s.treq = some t.treq) : t.histOk := by
  unfold State.histOk at *
  rw [hhist, histOutstanding_snoc h, hfollow]

/-- An Engine step records nothing, or the transaction it issues; and it finds the request slot empty before it does
(R36, R37, R62). -/
theorem EngineEffect.hist_cases {s t : State} (h : EngineEffect s t) (hch : s.channelOk) :
    (t.hist = s.hist ∧ t.treq = s.treq) ∨
    ∃ req, s.treq = none ∧ t.hist = s.hist ++ [.issue req] ∧ t.treq = some req := by
  have pending (hf : s.fsm = .pending) : s.treq = none := ((State.channelOk_of_pending hf).mp hch).left
  cases h with
  | rests | defines | undefines | queries | readsValue | writesValue => exact .inl ⟨rfl, rfl⟩
  | rejects _ hf => exact .inl ⟨rfl, (pending hf).symm⟩
  | fails _ ha => exact .inl ⟨rfl, (hch.treq_eq_none ha).symm⟩
  | issuesRead _ hf => exact .inr ⟨_, pending hf, rfl, rfl⟩
  | issuesWrite _ _ _ ha => exact .inr ⟨_, hch.treq_eq_none ha, rfl, rfl⟩

/-- Every step of every agent keeps the history in order. -/
theorem State.histOk.step {s t : State} (hhist : s.histOk) (hinv : s.Inv) (h : step s = .next t) : t.histOk := by
  obtain ⟨ts, effect⟩ | ⟨a, ts, _, rfl⟩ | ⟨req, rsp, _, hq, ha, rfl⟩ | ⟨_, _, rfl⟩ := step_effect h
  · obtain ⟨heq, hreq⟩ | ⟨req, hq, heq, hreq⟩ := effect.hist_cases (hinv.withTurns ts).channel
    · exact hhist.of_same heq hreq
    · exact hhist.record heq (by rw [show s.treq = none from hq, hreq]; rfl)
  · obtain ⟨_, _, _, _, _, hreq, _, heq⟩ := ({ s with turns := ts } : State).hostStep_frame a
    exact hhist.of_same heq hreq
  · exact hhist.record rfl (by simp [Event.follow, hq, ha])
  · exact hhist.record rfl rfl

/-- Settles O45. -/
theorem everyStepKeepsTheHistoryInOrder : Obligations.EveryStepKeepsTheHistoryInOrder :=
  fun _ _ hinv hhist h => hhist.step hinv h

/-- In every state a run reaches the history is in order. -/
theorem Reached.histOk {s : State} (h : Reached s) : s.histOk := by
  induction h with
  | reset c turns hc => rfl
  | step s t hr hs ih => exact ih.step hr.inv hs

/-- BUSY = 0 says that the Engine is IDLE (R25). -/
theorem State.idle_of_status {s : State} (h : s.status.getLsbD 0 = false) : s.fsm = .idle := by
  rw [State.status_bit_zero] at h
  simpa [State.busy] using h

/-- Settles O48: IDLE means an empty channel, and what the history leaves outstanding is in the channel. -/
theorem idleMeansEveryTransactionIsAnsweredOrAbandoned :
    Obligations.IdleMeansEveryTransactionIsAnsweredOrAbandoned := by
  intro s hr hbusy
  have hq : s.quiescent := State.quiescent_of_idle hr.inv (State.idle_of_status hbusy)
  have ⟨_, htreq, _⟩ := hq
  exact ⟨hq, hr.histOk.trans (congrArg some htreq)⟩

end Sys2Proof.Machine
end

section
/-! PROOFS. The reference transport, failing the requests a vector names or none, and what host programs stage
(R67, R79, R80). -/

namespace Sys2Proof.Machine

open Sys2Proof

/-! ### Host programs (R79, R80) -/

/-- The word `fdefine` stages is that of the entry with its arguments and VALID clear (R75, R79). -/
theorem Pseudo.expand_fdefine (i : Nat) (addr : RegAddr) (width : BitVec 4) (lb nbits : BitVec 8) (sg ro : Bool) :
    (Pseudo.fdefine i addr width lb nbits sg ro).expand =
      [.wr .descData (Desc.pack
        { valid := false, addr := addr, width := width, signed := sg, ro := ro, lb := lb, nbits := nbits }),
        .wr .cmd (encode (.define i)), .poll] := rfl

/-- Settles O51: DEFINE reads the staged word as its entry, valid whatever VALID says. -/
theorem hostProgramSyntaxNamesWhatTheBlockReads : Obligations.HostProgramSyntaxNamesWhatTheBlockReads :=
  ⟨fun i addr width lb nbits sg ro =>
    ⟨_, Pseudo.expand_fdefine i addr width lb nbits sg ro, Desc.ofWord_pack _⟩, rfl⟩

/-! ### The rule of the reference transport (R67) -/

/-- A value of at most four bytes is what the register holds of it. -/
theorem zext32_assemble_toNat {b : List Byte} (hb : b.length ≤ 4) :
    (zext32 (assemble b b.length)).toNat = assemble b b.length :=
  zext32_toNat (Nat.lt_of_lt_of_le (assemble_lt b b.length) (Nat.pow_le_pow_right Nat.two_pos (by omega)))

/-- Settles O49: a read answer is split from the register's low bytes, and a write is a device register write. -/
theorem referenceTransportServesAsStated : Obligations.ReferenceTransportServesAsStated := by
  refine fun m dev reg hm => ⟨fun w => ⟨_, rfl, split_length _ w, ?_⟩,
    fun b hb => ⟨_, rfl, Memory.write_wf hm dev reg _, ?_, fun dev' reg' hne => ?_⟩⟩
  · rw [assemble_split, Nat.mod_mod]
  · rw [Memory.read_write hm, if_pos ⟨rfl, rfl⟩, zext32_assemble_toNat hb]
  · rw [Memory.read_write hm, if_neg (by tauto)]

/-! ### Named requests fail (R67) -/

theorem Memory.serveFailing_of_mem {fails : List Req} {req : Req} (h : req ∈ fails) (m : Memory) :
    m.serveFailing fails req = (.fail, m) :=
  if_pos h

theorem Memory.serveFailing_of_not_mem {fails : List Req} {req : Req} (h : req ∉ fails) (m : Memory) :
    m.serveFailing fails req = m.serve req :=
  if_neg h

/-- `Fail` is an admissible answer to any request (R52). -/
theorem Req.admits_fail (req : Req) : req.admits .fail = true := by
  cases req <;> rfl

/-- The Engine's step on a `Fail` answer, whichever of the two commands it is and whichever its transaction (R107,
R108). -/
theorem engineStep_of_fail {s : State} {i : Nat} (ha : s.trsp = some .fail)
    (hd : (s.fsm = .rdWait ∧ decode s.latch.word = .ok (.read i)) ∨
      ((s.fsm = .rdWait ∨ s.fsm = .wrWait) ∧ decode s.latch.word = .ok (.write i))) :
    engineStep s = .next (s.consume.raise .transport) := by
  obtain ⟨hf, hd⟩ | ⟨hf, hd⟩ := hd
  · rw [engineStep_of_read hf ha hd, exec_read_of_fail hf ha]
  · rw [engineStep_of_write hf ha hd, exec_write_of_fail hf ha]

/-- A request that is named ends its command: the Transport answers `Fail`, the Engine raises TRANSPORT, and the block
stays at rest with every device register kept (R67, R107, R108). -/
theorem refRun_of_named_request {fails : List Req} {s : State} {req : Req} {i : Nat} (m : Memory) (k : Nat)
    (hq : s.treq = some req) (hr : s.trsp = none) (hmem : req ∈ fails)
    (hd : (s.fsm = .rdWait ∧ decode s.latch.word = .ok (.read i)) ∨
      ((s.fsm = .rdWait ∨ s.fsm = .wrWait) ∧ decode s.latch.word = .ok (.write i))) :
    refRun fails (k + 2) (s, m) = .next ((s.answer .fail).consume.raise .transport, m) := by
  have ends : engineStep (s.answer .fail) = .next ((s.answer .fail).consume.raise .transport) :=
    engineStep_of_fail rfl hd
  rw [refRun_of_request fails (k + 1) m hq hr, Memory.serveFailing_of_mem hmem, refRun_of_engine fails k m rfl ends,
    refRun_of_quiescent fails k m ⟨rfl, rfl, rfl⟩]

/-- A READ or WRITE whose read is named, run from rest: it ends with TRANSPORT after that read. -/
theorem refCommandFailing_of_named_read {fails : List Req} {s : State} {d : Desc} {c : Instr} {i : Nat} (m : Memory)
    (hq : s.quiescent) (hc : c = .read i ∨ c = .write i) (hi : i < 256)
    (hx : exec c (s.accept (encode c)) =
      .next ((s.accept (encode c)).issue .rdWait ((s.accept (encode c)).readReq d)))
    (hmem : .read s.devaddr d.addr d.w ∈ fails) :
    ∃ t, refCommandFailing fails (encode c) (s, m) = .next (t, m) ∧ t.quiescent ∧ t.err = .transport ∧
      t.rdata = s.rdata ∧ t.rsigned = s.rsigned ∧
      t.hist = s.hist ++ [.issue (.read s.devaddr d.addr d.w), .answer .fail] := by
  obtain ⟨hf, htreq, htrsp⟩ := hq
  have hdec : decode (encode c) = .ok c := decode_encode (by rcases hc with rfl | rfl <;> exact decide_eq_true hi)
  have execute := (engineStep_of_pending (s := s.accept (encode c)) rfl hdec).trans hx
  rw [refCommandFailing_eq fails m hf, refRun_of_engine fails 4 m (by simpa using htreq) execute,
    refRun_of_named_request (i := i) m 2 rfl (by simpa using htrsp) hmem
      (hc.imp (fun h => ⟨rfl, h ▸ hdec⟩) fun h => ⟨.inl rfl, h ▸ hdec⟩)]
  exact ⟨_, rfl, ⟨rfl, rfl, rfl⟩, rfl, rfl, rfl, List.append_assoc ..⟩

/-- A WRITE whose read is answered and whose write is named, run from rest: it ends with TRANSPORT after that write. -/
theorem refCommandFailing_of_named_write {fails : List Req} {s : State} {d : Desc} {i r : Nat} (m : Memory)
    (hq : s.quiescent) (hi : i < 256) (hwrite : (s.accept (encode (.write i))).writable i) (hd : d = s.dt i)
    (hval : r = m.readBytes s.devaddr d.addr d.w) (hserved : .read s.devaddr d.addr d.w ∉ fails)
    (hmem : .write s.devaddr d.addr (split (d.inject r s.wdata) d.w) ∈ fails) :
    ∃ t, refCommandFailing fails (encode (.write i)) (s, m) = .next (t, m) ∧ t.quiescent ∧ t.err = .transport ∧
      t.hist = s.hist ++ [.issue (.read s.devaddr d.addr d.w), .answer (.readOk (split r d.w)),
        .issue (.write s.devaddr d.addr (split (d.inject r s.wdata) d.w)), .answer .fail] := by
  have ⟨hf, _, _⟩ := hq
  have hdec : decode (encode (.write i)) = .ok (.write i) := decode_encode (decide_eq_true hi)
  have execute := (exec_write_of_pending (s := s.accept (encode (.write i))) rfl i).trans
    (congrArg _ (writeExecute_of_writable hwrite))
  have readAnswer := State.engineStep_write_foundValue hdec hd (hval ▸ m.readBytes_lt ..)
  have latched : decode ((s.foundValue (encode (.write i)) d r).consume.issue .wrWait
      (.write s.devaddr d.addr (split (d.inject r s.wdata) d.w))).latch.word = .ok (.write i) := hdec
  rw [refCommandFailing_eq fails m hf, refRun_of_read_issue m 3 hq hdec (hd ▸ execute) hserved hval,
    refRun_of_engine fails 2 m rfl readAnswer, refRun_of_named_request m 0 rfl rfl hmem (.inr ⟨.inr rfl, latched⟩)]
  exact ⟨_, rfl, ⟨rfl, rfl, rfl⟩, rfl, by simp [State.foundValue, State.readReq]⟩

/-- Settles O56: the two whole commands above, READ and WRITE sharing the first. -/
theorem namedRequestsFailUnderTheReferenceTransport : Obligations.NamedRequestsFailUnderTheReferenceTransport := by
  refine ⟨fun fails m req => ⟨fun h => ⟨Memory.serveFailing_of_mem h m, req.admits_fail⟩,
    fun h => Memory.serveFailing_of_not_mem h m⟩, ?_⟩
  rintro s m i V0 d fails rd wr r hinv hf hi rfl hvalid hV0 rfl rfl rfl
  have hq := State.quiescent_of_idle hinv hf
  have hi256 := lt_256_of_lt_nDesc hinv.cfgLegal hi
  have writable (hro : (s.dt i).ro = false) (hfit : (s.dt i).fits s.wdata = true) :
      (s.accept (encode (.write i))).writable i := ⟨⟨hi, hvalid⟩, hro, hfit⟩
  refine ⟨fun hmem => ?_, fun hro hfit hmem => ?_, fun hro hfit hserved hmem => ?_⟩
  · exact refCommandFailing_of_named_read m hq (.inl rfl) hi256
      ((exec_read_of_pending rfl i).trans (congrArg _ (readExecute_of_readable ⟨hi, hvalid⟩))) hmem
  · obtain ⟨t, hrun, hquiet, herr, _, _, hhist⟩ := refCommandFailing_of_named_read m hq (.inr rfl) hi256
      ((exec_write_of_pending rfl i).trans (congrArg _ (writeExecute_of_writable (writable hro hfit)))) hmem
    exact ⟨t, hrun, hquiet, herr, hhist⟩
  · exact refCommandFailing_of_named_write m hq hi256 (writable hro hfit) rfl hV0 hserved hmem

end Sys2Proof.Machine
end

section
/-! PROOFS. Endless runs: they are runs of the machine, and under weakly fair Engine steps a command whose transactions
are answered ends (R3, R53, R160). -/

namespace Sys2Proof.Machine

open Sys2Proof

/-! ### The turns still listed have no part in a turn (log 1) -/

theorem engineStep_of_waiting {s : State} (hw : s.fsm = .rdWait ∨ s.fsm = .wrWait) : engineStep s = answerStep s := by
  rcases hw with hf | hf <;> simp [engineStep, hf]

/-- The answer step runs READ or WRITE as `L.op` says, where there is an answer (R159). -/
theorem answerStep_of_answer {s : State} (hr : s.trsp ≠ none) :
    answerStep s = if s.latch.op = 1#4 then exec (.read s.latch.idx) s
      else if s.latch.op = 2#4 then exec (.write s.latch.idx) s else .next s := by
  obtain ⟨rsp, hr⟩ := Option.ne_none_iff_exists'.mp hr
  simp [answerStep, hr]

section

variable {s t : State} (ts : List Turn)

/-- An Engine step of a command does the same with other turns listed: by its frame and its inputs, field by field. -/
theorem exec_withTurns {i : Instr} (h : exec i s = .next t) :
    exec i { s with turns := ts } = .next { t with turns := ts } := by
  have inputs : s.SameInputs { s with turns := ts } := ⟨rfl, rfl, rfl, rfl, rfl, rfl⟩
  obtain ⟨t', ht', same⟩ := inputs.exec h
  obtain ⟨hcmd, hovr, hdevaddr, hwdata, _, _, _, hresult⟩ := (exec_effect h).frame
  obtain ⟨hcmd', hovr', hdevaddr', hwdata', _, _, hturns', hresult'⟩ := (exec_effect ht').frame
  obtain ⟨hcfg, hprog, hfsm, hlatch, htreq, htrsp⟩ := same.inputs
  have hhist : t'.hist = t.hist := by
    obtain ⟨evs, hs, hs'⟩ := same.hist
    exact hs'.trans hs.symm
  have herr : t'.err = t.err := same.err.elim (fun ⟨hs, hs'⟩ => hs'.trans hs.symm) id
  have hdesc : t'.descData = t.descData := same.descData.elim (fun ⟨hs, hs'⟩ => hs'.trans hs.symm) id
  have hresults : t'.rdata = t.rdata ∧ t'.rsigned = t.rsigned :=
    same.results.elim (fun ⟨hs, hs', hr, hr'⟩ => ⟨hs'.trans hs.symm, hr'.trans hr.symm⟩) id
  rw [ht']
  congr 1
  -- Field by field: the frame gives what the command does not touch, the inputs and results the rest.
  cases t
  cases t'
  simp_all

/-- The Engine does the same with other turns listed. -/
theorem engineStep_withTurns (h : engineStep s = .next t) :
    engineStep { s with turns := ts } = .next { t with turns := ts } := by
  have answer (hw : s.fsm = .rdWait ∨ s.fsm = .wrWait) (hr : s.trsp ≠ none) :=
    (engineStep_of_waiting (s := { s with turns := ts }) hw).trans (answerStep_of_answer hr)
  obtain ⟨hf, rfl⟩ | ⟨hf, i, hd, he⟩ | ⟨hf, ⟨e, hd⟩, rfl⟩ | ⟨hw, hr, rfl⟩ | ⟨hw, hr, hop, he⟩ | ⟨hw, hr, hop, he⟩ |
    ⟨hw, h1, h2, rfl⟩ := engineStep_next h
  · simp [engineStep, hf]
  · exact (engineStep_of_pending (s := { s with turns := ts }) hf hd).trans (exec_withTurns ts he)
  · simp [engineStep, executeStep, hf, hd, State.raise]
  · exact engineStep_waiting (s := { t with turns := ts }) hw hr
  · exact (answer hw hr).trans ((if_pos hop).trans (exec_withTurns ts he))
  · have hop1 : s.latch.op ≠ 1#4 := by simp [hop]
    exact (answer hw hr).trans ((if_neg hop1).trans ((if_pos hop).trans (exec_withTurns ts he)))
  · by_cases hr : t.trsp = none
    · exact engineStep_waiting (s := { t with turns := ts }) hw hr
    · exact (answer hw hr).trans ((if_neg h1).trans (if_neg h2))

/-- A host access neither reads nor writes the turns. -/
theorem State.hostStep_withTurns (s : State) (a : HostAccess) :
    ({ s with turns := ts } : State).hostStep a = { s.hostStep a with turns := ts } := by
  cases a with
  | read off => rfl
  | write off v =>
    simp only [State.hostStep, State.hostWrite, State.writeCmd, State.writeStatus]
    split
    · split <;> rfl
    · split <;> rfl
    all_goals rfl

/-- Every agent does the same with other turns listed. -/
theorem agentStep_withTurns {u : Turn} (h : agentStep u s = .next t) :
    agentStep u { s with turns := ts } = .next { t with turns := ts } := by
  cases u with
  | host a =>
    obtain rfl := Host.Outcome.next.inj h
    exact congrArg _ (s.hostStep_withTurns ts a)
  | engine => exact engineStep_withTurns ts h
  | transport rsp =>
    obtain ⟨req, hq, hr, ha, rfl⟩ := transportStep_next h
    exact (transportStep_of_request (s := { s with turns := ts }) hq hr rsp).trans (if_pos ha)
  | reset =>
    obtain rfl := Host.Outcome.next.inj h
    rfl

end

/-- A step takes the turn listed first, or the Engine's where none is listed (R3, log 2). -/
theorem step_of_agent {s t : State} {l : List Turn} (h : agentStep (l.getD 0 .engine) s = .next t) :
    step { s with turns := l } = .next { t with turns := l.tail } := by
  cases l with
  | nil => exact engineStep_withTurns [] h
  | cons u ts => exact agentStep_withTurns (s := s) ts h

/-- Settles O55, step by step: the list that is left gives each turn of the schedule. -/
theorem endlessRunsAreRunsOfTheMachine : Obligations.EndlessRunsAreRunsOfTheMachine := by
  intro sched run n l hrun hsched
  induction n with
  | zero => rfl
  | succ n ih =>
    have hturn : sched n = (l.drop n).getD 0 .engine := by
      simpa [List.getD_eq_getElem?_getD] using hsched n (Nat.lt_succ_self n)
    rw [run_last Sys2Proof.core n _ _ (ih fun k hk => hsched k (Nat.lt_succ_of_lt hk)), ← List.tail_drop]
    exact step_of_agent (hturn ▸ hrun n)

/-! ### The states of an endless run -/

/-- A turn of an agent is the step of the machine in which that turn is listed first. -/
theorem step_of_turn (u : Turn) (s : State) : step { s with turns := u :: s.turns } = agentStep u s := rfl

theorem State.Inv.agent {s t : State} {u : Turn} (h : s.Inv) (ht : agentStep u s = .next t) : t.Inv :=
  (h.withTurns (u :: s.turns)).step ((step_of_turn u s).trans ht)

theorem EndlessRun.inv {sched : Nat → Turn} {run : Nat → State} (h : EndlessRun sched run) (h0 : (run 0).Inv)
    (n : Nat) : (run n).Inv := by
  induction n with
  | zero => exact h0
  | succ n ih => exact ih.agent (h n)

theorem Fsm.phase_injective : Function.Injective Fsm.phase := by
  intro f g h
  cases f <;> cases g <;> simp_all [Fsm.phase]

theorem Fsm.phase_pos {f : Fsm} (h : f ≠ .idle) : 0 < f.phase := by
  cases f <;> simp_all [Fsm.phase]

/-- No effect of the Engine takes a command further from its end (R34, R160). -/
theorem EngineEffect.phase_le {s t : State} (h : EngineEffect s t) : t.fsm.phase ≤ s.fsm.phase := by
  obtain hf | ⟨hf, ht | ht⟩ | ⟨hf, _, ht | ht⟩ | ⟨hf, _, ht⟩ := h.fsm_cases
  · rw [hf]
  all_goals simp [hf, ht, Fsm.phase]

/-- A turn of another agent than the Engine ends the command in progress, or leaves the Engine where it is and an answer
in the channel there (R52, R190). -/
theorem agentStep_of_busy {s t : State} {u : Turn} (h : agentStep u s = .next t) (hbusy : s.fsm ≠ .idle)
    (hu : u ≠ .engine) : t.fsm = .idle ∨ (t.fsm = s.fsm ∧ (s.trsp ≠ none → t.trsp ≠ none)) := by
  cases u with
  | host a =>
    obtain rfl := Host.Outcome.next.inj h
    obtain ⟨_, _, _, _, _, ht⟩ := State.hostStep_of_busy hbusy a
    rw [ht]
    exact .inr ⟨rfl, id⟩
  | engine => exact absurd rfl hu
  | transport rsp =>
    obtain ⟨_, _, _, _, rfl⟩ := transportStep_next h
    exact .inr ⟨rfl, fun _ => by simp⟩
  | reset =>
    obtain rfl := Host.Outcome.next.inj h
    exact .inl rfl

/-- While a command is in progress no turn takes it further from its end. -/
theorem agentStep_phase_le {s t : State} {u : Turn} (h : agentStep u s = .next t) (hbusy : s.fsm ≠ .idle) :
    t.fsm.phase ≤ s.fsm.phase := by
  by_cases hu : u = .engine
  · subst hu
    exact (engineStep_effect h).phase_le
  · obtain hf | ⟨hf, _⟩ := agentStep_of_busy h hbusy hu <;> rw [hf]
    exact Nat.zero_le _

/-! ### Fair runs end their commands (R160) -/

section

variable {sched : Nat → Turn} {run : Nat → State}

/-- Up to any later point, a command in progress has come nearer its end, or the Engine is where it was. -/
theorem EndlessRun.nearer_or_same (h : EndlessRun sched run) {n : Nat} (hbusy : (run n).fsm ≠ .idle) {m : Nat}
    (hm : n ≤ m) : (∃ k > n, (run k).fsm.phase < (run n).fsm.phase) ∨ (run m).fsm = (run n).fsm := by
  induction m, hm using Nat.le_induction with
  | base => exact .inr rfl
  | succ m hm ih =>
    refine ih.elim .inl fun hsame => ?_
    have hle : (run (m + 1)).fsm.phase ≤ (run n).fsm.phase := hsame ▸ agentStep_phase_le (h m) (hsame ▸ hbusy)
    obtain hlt | heq := Nat.lt_or_eq_of_le hle
    · exact .inl ⟨m + 1, by omega, hlt⟩
    · exact .inr (Fsm.phase_injective heq)

/-- An enabled Engine stays enabled until the command comes nearer its end, which its own step brings about. -/
theorem EndlessRun.enabled_step (h : EndlessRun sched run) {m : Nat} (hinv : (run m).Inv)
    (hen : (run m).engineEnabled) :
    (run (m + 1)).fsm.phase < (run m).fsm.phase ∨
    (sched m ≠ .engine ∧ (run (m + 1)).engineEnabled ∧ (run (m + 1)).fsm = (run m).fsm) := by
  have hbusy : (run m).fsm ≠ .idle := by
    obtain hf | ⟨hw, _⟩ := hen
    · simp [hf]
    · exact Fsm.ne_idle_of_waiting hw
  by_cases hu : sched m = .engine
  · have hstep := h m
    rw [hu] at hstep
    exact .inl ((engineStep_effect hstep).progress hinv hen).left
  · obtain hf | ⟨hf, hr⟩ := agentStep_of_busy (h m) hbusy hu
    · exact .inl (hf ▸ Fsm.phase_pos hbusy)
    · exact .inr ⟨hu, hen.imp (hf.trans ·) (And.imp (hf.symm ▸ ·) hr), hf⟩

/-- An enabled Engine brings the command nearer its end in a weakly fair run (R160). -/
theorem EndlessRun.nearer_of_enabled (h : EndlessRun sched run) (hfair : WeaklyFair sched run) (h0 : (run 0).Inv)
    {n : Nat} (hen : (run n).engineEnabled) : ∃ m > n, (run m).fsm.phase < (run n).fsm.phase := by
  by_contra hnone
  have stays (m : Nat) (hm : n ≤ m) : (run m).engineEnabled ∧ (run m).fsm = (run n).fsm := by
    induction m, hm using Nat.le_induction with
    | base => exact ⟨hen, rfl⟩
    | succ m hm ih =>
      obtain ⟨hen, hf⟩ := ih
      obtain hlt | ⟨_, hen', hf'⟩ := h.enabled_step (h.inv h0 m) hen
      · exact absurd ⟨m + 1, by omega, hf ▸ hlt⟩ hnone
      · exact ⟨hen', hf'.trans hf⟩
  obtain ⟨m, hm, hturn⟩ := hfair n fun m hm => (stays m hm).left
  obtain ⟨hen, hf⟩ := stays m hm
  obtain hlt | ⟨hne, _⟩ := h.enabled_step (h.inv h0 m) hen
  · exact hnone ⟨m + 1, by omega, hf ▸ hlt⟩
  · exact hne hturn

/-- A waiting Engine whose request is no longer out has its answer (R36). -/
theorem State.Inv.engineEnabled_of_no_request {s : State} (h : s.Inv) (hbusy : s.fsm ≠ .idle) (hq : s.treq = none) :
    s.engineEnabled := by
  cases hf : s.fsm with
  | idle => exact absurd hf hbusy
  | pending => exact .inl hf
  | rdWait | wrWait =>
    obtain ⟨req, ⟨hq', _⟩ | ⟨_, rsp, hr, _⟩⟩ := h.channel.awaits_of_waiting (by simp [hf])
    · simp [hq] at hq'
    · exact h.engineEnabled_of_answer (by simp [hr])

/-- In a weakly fair run a command whose request, if one is out, is answered comes nearer its end. -/
theorem EndlessRun.nearer_of_answered (h : EndlessRun sched run) (hfair : WeaklyFair sched run) (h0 : (run 0).Inv)
    {n : Nat} (hbusy : (run n).fsm ≠ .idle) (hans : (run n).treq ≠ none → ∃ k ≥ n, (run k).treq = none) :
    ∃ m > n, (run m).fsm.phase < (run n).fsm.phase := by
  obtain ⟨k, hk, hq⟩ : ∃ k ≥ n, (run k).treq = none := by
    by_cases hq : (run n).treq = none
    · exact ⟨n, Nat.le_refl n, hq⟩
    · exact hans hq
  obtain hnearer | hf := h.nearer_or_same hbusy hk
  · exact hnearer
  · obtain ⟨m, hm, hlt⟩ := h.nearer_of_enabled hfair h0 ((h.inv h0 k).engineEnabled_of_no_request (hf ▸ hbusy) hq)
    exact ⟨m, by omega, hf ▸ hlt⟩

/-- In a weakly fair run a command whose transactions are all answered ends: by induction on how far it is from its
end. -/
theorem EndlessRun.ends (h : EndlessRun sched run) (hfair : WeaklyFair sched run) (h0 : (run 0).Inv) {n : Nat}
    (hbusy : (run n).fsm ≠ .idle) (hans : ∀ m ≥ n, (run m).treq ≠ none → ∃ k ≥ m, (run k).treq = none) :
    ∃ m > n, (run m).fsm = .idle := by
  induction hp : (run n).fsm.phase using Nat.strong_induction_on generalizing n with
  | _ p ih =>
    obtain ⟨m, hm, hlt⟩ := h.nearer_of_answered hfair h0 hbusy (hans n (Nat.le_refl n))
    by_cases hidle : (run m).fsm = .idle
    · exact ⟨m, hm, hidle⟩
    · obtain ⟨k, hk, hend⟩ := ih _ (hp ▸ hlt) hidle (fun j hj => hans j (by omega)) rfl
      exact ⟨k, by omega, hend⟩

end

/-- Settles O53. -/
theorem fairEndlessRunsEndTheirCommands : Obligations.FairEndlessRunsEndTheirCommands :=
  fun _ _ _ h hfair h0 hbusy hans => h.ends hfair h0 hbusy hans

/-! ### A wait may last for ever (R53, R162, R181) -/

/-- The run a schedule makes from `s`, going on from the same state where a turn is refused. -/
def scheduledRun (sched : Nat → Turn) (s : State) : Nat → State
  | 0 => s
  | n + 1 => match agentStep (sched n) (scheduledRun sched s n) with
    | .next t => t
    | .fault _ => scheduledRun sched s n
    | .refused _ => scheduledRun sched s n

theorem scheduledRun_succ {sched : Nat → Turn} {s t : State} {n : Nat}
    (h : agentStep (sched n) (scheduledRun sched s n) = .next t) : scheduledRun sched s (n + 1) = t := by
  rw [scheduledRun, h]

/-- While the Engine waits, a turn of Host or Engine goes on with the same command (R181, R184). -/
theorem agentStep_of_unanswered {s : State} {u : Turn} (hw : s.fsm = .rdWait ∨ s.fsm = .wrWait) (hr : s.trsp = none)
    (hu : u = .engine ∨ ∃ a, u = .host a) : ∃ t, agentStep u s = .next t ∧ s.SameCommand t := by
  obtain ⟨t, ht, same⟩ := step_of_unanswered (s := { s with turns := [u] }) hw hr
    fun v hv => (List.mem_singleton.mp hv) ▸ hu
  exact ⟨_, agentStep_withTurns (s := { s with turns := [] }) s.turns ht, same.fsm, same.treq, same.trsp, same.latch,
    same.cmd, same.hist⟩

/-- Settles O54: without an answer the Engine is never enabled, and every turn goes on with the same command. -/
theorem neitherTransportNorHostIsFair : Obligations.NeitherTransportNorHostIsFair := by
  refine ⟨fun s sched hw hr hsched => ?_, fun s hq => ?_⟩
  · have next (n : Nat) (same : s.SameCommand (scheduledRun sched s n)) :=
      agentStep_of_unanswered (same.fsm ▸ hw) (same.trsp.trans hr) (hsched n)
    have same (n : Nat) : s.SameCommand (scheduledRun sched s n) := by
      induction n with
      | zero => exact ⟨rfl, rfl, rfl, rfl, rfl, rfl⟩
      | succ n ih =>
        obtain ⟨t, ht, hsame⟩ := next n ih
        exact scheduledRun_succ ht ▸ ih.trans hsame
    refine ⟨scheduledRun sched s, rfl, fun n => ?_, fun n hen => ?_, fun n => ?_⟩
    · obtain ⟨t, ht, _⟩ := next n (same n)
      rw [ht, scheduledRun_succ ht]
    · obtain hf | ⟨_, ha⟩ := hen n (Nat.le_refl n)
      · rw [(same n).fsm] at hf
        simp [hf] at hw
      · exact absurd ((same n).trsp.trans hr) ha
    · refine ⟨(same n).fsm, (same n).treq, (same n).hist, ?_⟩
      rw [State.status_bit_zero, State.busy, (same n).fsm]
      exact decide_eq_true (Fsm.ne_idle_of_waiting hw)
  · obtain ⟨hf, _⟩ := hq
    exact ⟨fun _ => by simp [agentStep, engineStep, hf], fun n _ => ⟨n, Nat.le_refl n, rfl⟩⟩

end Sys2Proof.Machine
end

section
/-! PROOFS. The end of a command, of an endless run and of a host program (R79, R161). -/

namespace Sys2Proof.Machine

open Sys2Proof

section

variable {sched : Nat → Turn} {run : Nat → State}

/-! ### Ends under fairness (R160, R161) -/

/-- The command is in progress right after its acceptance (R153). -/
theorem EndlessRun.pending_of_accepted (h : EndlessRun sched run) {n : Nat} (hacc : AcceptedAt sched run n) :
    (run (n + 1)).fsm = .pending := by
  obtain ⟨hf, off, v, hturn, hsel⟩ := hacc
  have hstep := h n
  rw [hturn] at hstep
  rw [← Host.Outcome.next.inj hstep]
  simp [State.hostStep, State.hostWrite, hsel, State.writeCmd, hf]

/-- An accepted command that is IDLE again at some point has an end: the first such point (R161). -/
theorem commandEnded_of_idle {n m : Nat} (hacc : AcceptedAt sched run n) (hm : n < m) (hidle : (run m).fsm = .idle) :
    ∃ k, CommandEnded sched run n k := by
  have hex : ∃ k, n < k ∧ (run k).fsm = .idle := ⟨m, hm, hidle⟩
  obtain ⟨hlt, hend⟩ := Nat.find_spec hex
  exact ⟨Nat.find hex, hacc, hlt, hend, fun k hk hkm hf => Nat.find_min hex hkm ⟨hk, hf⟩⟩

/-- A run that has ended is the end of every host program whose accesses the Host had made when it was done (R161). -/
theorem RunEnded.program {n m : Nat} (h : RunEnded sched run m) (hdone : HostDone sched n) (hm : n ≤ m)
    {prog : List HostStmt} (hprog : stmtsSee prog (hostSees sched run n) = true) : ProgramEnded prog sched run m := by
  obtain ⟨j, rfl⟩ := Nat.exists_eq_add_of_le hm
  exact ⟨by rw [hostSees_done hdone, hprog], h⟩

/-- Settles O57: a command in progress ends, and with the Host done a block in IDLE is at the end of its run. -/
theorem fairAnsweredRunsEnd : Obligations.FairAnsweredRunsEnd := by
  intro sched run n h hfair h0 hans
  refine ⟨fun hacc => ?_, fun hdone => ?_⟩
  · have hbusy : (run (n + 1)).fsm ≠ .idle := by simp [h.pending_of_accepted hacc]
    obtain ⟨m, hm, hidle⟩ := h.ends hfair h0 hbusy fun m hm => hans m (by omega)
    exact commandEnded_of_idle hacc (by omega) hidle
  · obtain ⟨m, hm, hidle⟩ : ∃ m ≥ n, (run m).fsm = .idle := by
      by_cases hbusy : (run n).fsm = .idle
      · exact ⟨n, Nat.le_refl n, hbusy⟩
      · obtain ⟨m, hm, hidle⟩ := h.ends hfair h0 hbusy hans
        exact ⟨m, Nat.le_of_lt hm, hidle⟩
    have ended : RunEnded sched run m := ⟨hdone.mono hm, State.quiescent_of_idle (h.inv h0 m) hidle⟩
    exact ⟨m, hm, ended, fun _ => ended.program hdone hm⟩

/-! ### After the end (R161) -/

/-- A turn of the Engine or Reset, the only ones a block at rest can take once the Host is done, leaves it at rest; the
Engine's changes nothing (log 3). -/
theorem State.quiescent.agentStep {s t : State} {u : Turn} (hq : s.quiescent) (h : agentStep u s = .next t)
    (hu : ∀ a, u ≠ .host a) : t.quiescent ∧ (u ≠ .reset → t = s) := by
  have ⟨hf, hreq, _⟩ := hq
  cases u with
  | host a => exact absurd rfl (hu a)
  | engine =>
    obtain rfl : s = t := by simpa [Machine.agentStep, engineStep, hf] using h
    exact ⟨hq, fun _ => rfl⟩
  | transport rsp =>
    obtain ⟨_, hreq', _⟩ := transportStep_next h
    simp [hreq] at hreq'
  | reset =>
    obtain rfl := Host.Outcome.next.inj h
    exact ⟨⟨rfl, rfl, rfl⟩, fun hne => absurd rfl hne⟩

/-- Settles O58, turn by turn. -/
theorem endedRunsStayEnded : Obligations.EndedRunsStayEnded := by
  rintro sched run n m h ⟨hdone, hq⟩ hm
  suffices (run m).quiescent ∧ ((∀ k, n ≤ k → k < m → sched k ≠ .reset) → run m = run n) from
    ⟨⟨hdone.mono hm, this.left⟩, this.right⟩
  induction m, hm using Nat.le_induction with
  | base => exact ⟨hq, fun _ => rfl⟩
  | succ m hm ih =>
    obtain ⟨hqm, hsame⟩ := ih
    obtain ⟨hq', hkeep⟩ := hqm.agentStep (h m) (hdone m hm)
    refine ⟨hq', fun hr => ?_⟩
    rw [hkeep (hr m hm (Nat.lt_succ_self m)), hsame fun k hk hkm => hr k hk (Nat.lt_succ_of_lt hkm)]

/-! ### What the Host has seen, access by access (R150) -/

/-- A turn shows the Host one access at most. -/
theorem Turn.seen_cases (u : Turn) (s : State) : u.seen s = [] ∨ ∃ x, u.seen s = [x] := by
  cases u with
  | host a => cases a <;> exact .inr ⟨_, rfl⟩
  | engine | transport | reset => exact .inl rfl

/-- An access the Host has seen was made by one turn of the run, and the accesses after it by the turns after that. -/
theorem hostSees_eq_append_cons {n : Nat} {a b : List Seen} {x : Seen} (h : hostSees sched run n = a ++ x :: b) :
    ∃ k < n, (sched k).seen (run k) = [x] ∧ ∀ j, k < j → j < n → ∀ y ∈ (sched j).seen (run j), y ∈ b := by
  induction n generalizing b with
  | zero => simp [hostSees] at h
  | succ n ih =>
    rw [hostSees_succ] at h
    obtain hs | ⟨y, hs⟩ := Turn.seen_cases (sched n) (run n) <;> rw [hs] at h
    · rw [List.append_nil] at h
      obtain ⟨k, hk, hx, hafter⟩ := ih h
      refine ⟨k, by omega, hx, fun j hkj hj => ?_⟩
      obtain hj | rfl := Nat.lt_succ_iff_lt_or_eq.mp hj
      · exact hafter j hkj hj
      · simp [hs]
    · obtain rfl | ⟨b', z, rfl⟩ := b.eq_nil_or_concat'
      · obtain ⟨_, hyx⟩ := List.append_inj' h rfl
        exact ⟨n, Nat.lt_succ_self n, hs.trans hyx, fun j hkj hj => absurd hj (by omega)⟩
      · rw [← List.cons_append, ← List.append_assoc] at h
        obtain ⟨hinit, hyz⟩ := List.append_inj' h rfl
        obtain ⟨k, hk, hx, hafter⟩ := ih hinit
        refine ⟨k, by omega, hx, fun j hkj hj w hw => ?_⟩
        obtain hj | rfl := Nat.lt_succ_iff_lt_or_eq.mp hj
        · exact List.mem_append_left _ (hafter j hkj hj w hw)
        · exact List.mem_append_right _ (hyz ▸ hs ▸ hw)

/-- A write the Host is seen to make is that of a `wr` statement (R79). -/
theorem HostStmt.wrote_of_sees {st : HostStmt} {l : List Seen} {off : BitVec 8} {v : Word} (h : st.sees l = true)
    (hw : .wrote off v ∈ l) : ∃ r, st = .wr r v ∧ off = r.offset := by
  cases st with
  | wr r v' =>
    unfold HostStmt.sees at h
    split at h <;> simp_all
  | rd r =>
    unfold HostStmt.sees at h
    split at h <;> simp_all
  | poll =>
    obtain ⟨_, hread⟩ := pollSees_reads h _ hw
    cases hread
  | wait ms =>
    unfold HostStmt.sees at h
    split at h <;> simp_all

theorem wrote_of_stmtsSee {q : List HostStmt} {l : List Seen} {off : BitVec 8} {v : Word}
    (h : stmtsSee q l = true) (hw : .wrote off v ∈ l) : ∃ r, HostStmt.wr r v ∈ q ∧ off = r.offset := by
  induction q generalizing l with
  | nil =>
    obtain rfl : l = [] := by simpa [stmtsSee] using h
    cases hw
  | cons st q ih =>
    obtain ⟨l1, l2, rfl, h1, h2⟩ := stmtsSee_cons.mp h
    obtain hw | hw := List.mem_append.mp hw
    · obtain ⟨r, rfl, hr⟩ := HostStmt.wrote_of_sees h1 hw
      exact ⟨r, List.mem_cons_self, hr⟩
    · obtain ⟨r, hmem, hr⟩ := ih h2 hw
      exact ⟨r, List.mem_cons_of_mem _ hmem, hr⟩

/-- Of the named registers only `CMD` is selected by its offset as `CMD` (R23, R150). -/
theorem HostReg.eq_cmd_of_select {r : HostReg} (h : hostSelect r.offset = 0) : r = .cmd := by
  revert h
  cases r <;> decide

/-! ### A program that polls last (R79, R161) -/

/-- A read of `STATUS` that shows BUSY = 0 was made in IDLE (R25, R151). -/
theorem Turn.idle_of_seen {u : Turn} {s : State} {v : Word} (h : u.seen s = [.got HostReg.status.offset v])
    (hv : v.getLsbD 0 = false) : s.fsm = .idle := by
  cases u with
  | host a =>
    cases a with
    | read off =>
      simp only [Turn.seen, List.cons.injEq, Seen.got.injEq, and_true] at h
      obtain ⟨rfl, rfl⟩ := h
      exact State.idle_of_status (State.hostValue_of_status (s := s) (off := HostReg.status.offset) rfl ▸ hv)
    | write off v' => simp [Turn.seen] at h
  | engine | transport | reset => simp [Turn.seen] at h

/-- An IDLE block stays IDLE in a turn that makes no `CMD` write (R34). -/
theorem agentStep_idle {s t : State} {u : Turn} (h : agentStep u s = .next t) (hf : s.fsm = .idle)
    (hu : ∀ off v, .wrote off v ∈ u.seen s → hostSelect off ≠ 0) : t.fsm = .idle := by
  cases u with
  | host a =>
    obtain rfl := Host.Outcome.next.inj h
    obtain hsame | ⟨_, _, off, v, rfl, ho⟩ := s.hostStep_fsm_cases a
    · exact hsame.trans hf
    · exact absurd ((hostSelect_eq off).trans ho) (hu off v List.mem_cons_self)
  | engine =>
    obtain rfl : s = t := by simpa [agentStep, engineStep, hf] using h
    exact hf
  | transport rsp =>
    obtain ⟨_, _, _, _, rfl⟩ := transportStep_next h
    exact hf
  | reset =>
    obtain rfl := Host.Outcome.next.inj h
    rfl

/-- From a point in IDLE on, a run without `CMD` writes stays in IDLE. -/
theorem EndlessRun.idle_of_no_cmd (h : EndlessRun sched run) {k n : Nat} (hk : k ≤ n) (hidle : (run k).fsm = .idle)
    (hno : ∀ j, k ≤ j → j < n → ∀ off v, .wrote off v ∈ (sched j).seen (run j) → hostSelect off ≠ 0) :
    (run n).fsm = .idle := by
  induction n, hk using Nat.le_induction with
  | base => exact hidle
  | succ n hk ih =>
    exact agentStep_idle (h n) (ih fun j hkj hj => hno j hkj (Nat.lt_succ_of_lt hj)) (hno n hk (Nat.lt_succ_self n))

end

/-- Settles O59: the last read of the `poll` finds the block in IDLE, and no access after it is a `CMD` write. -/
theorem programsThatPollLastEndWithTheirLastAccess : Obligations.ProgramsThatPollLastEndWithTheirLastAccess := by
  intro sched run n p q h h0 hq hsee
  obtain ⟨lp, _, hl, _, htail⟩ := stmtsSee_append.mp hsee
  obtain ⟨lpoll, lq, rfl, hpoll, hlq⟩ := stmtsSee_cons.mp htail
  obtain ⟨init, v, rfl, hv⟩ := pollSees_last hpoll
  have hsplit : hostSees sched run n = (lp ++ init) ++ .got HostReg.status.offset v :: lq := by simp [hl]
  obtain ⟨k, hk, hread, hafter⟩ := hostSees_eq_append_cons hsplit
  have noCmd (j : Nat) (hkj : k ≤ j) (hj : j < n) (off : BitVec 8) (w : Word)
      (hw : .wrote off w ∈ (sched j).seen (run j)) : hostSelect off ≠ 0 := by
    obtain rfl | hkj := Nat.eq_or_lt_of_le hkj
    · simp [hread] at hw
    · obtain ⟨r, hmem, rfl⟩ := wrote_of_stmtsSee hlq (hafter j hkj hj _ hw)
      intro hsel
      exact hq w (HostReg.eq_cmd_of_select hsel ▸ hmem)
  have hidle := h.idle_of_no_cmd (Nat.le_of_lt hk) (Turn.idle_of_seen hread hv) noCmd
  have quiet := State.quiescent_of_idle (h.inv h0 n) hidle
  exact ⟨quiet, fun hdone => ⟨hsee, hdone, quiet⟩⟩

end Sys2Proof.Machine
end
